-- ==== Sys2Proof/Word.lean ====
section
/-! DEFINITION. The 32-bit word of SDRB and its two readings (00_scope.md R6, R7). -/

namespace Sys2Proof

/-- Every register, argument, response and memory word is 32 bits wide (R6, R64). -/
abbrev Word := BitVec 32

/-- `uint(w)`: the value of a word in [0, 2^32) (R7). -/
def uint (w : Word) : Nat := w.toNat

/-- `sint(w)`: the value of a word in two's complement, in [-2^31, 2^31) (R7). -/
def sint (w : Word) : Int := w.toInt

/-- The word of a natural number that a rule shows to fit (R8). -/
def wordOfNat (n : Nat) : Word := BitVec.ofNat 32 n

/-- The word whose `sint` is the given integer, where it fits (R8). -/
def wordOfInt (z : Int) : Word := BitVec.ofInt 32 z

end Sys2Proof
end

