-- ==== Sys2Proof/Config.lean ====
section
/-! DEFINITION. What an SDRB instance fixes: the parameters of 00_scope.md R5, the constants of each number format
(R17, R23), the identity of the command set (R2, R44) and the one open parameter that no rule reads (20_memory.md R67). -/

namespace Sys2Proof

/-- NUMFMT (R5): the format of every sample, gain and ratio word. -/
inductive NumFmt where
  /-- IEEE binary32, the normative profile (R10 to R17). -/
  | f32
  /-- Signed fixed point with 24 fraction bits, the optional profile (R18 to R24). -/
  | q824
  deriving DecidableEq, Repr

/-- `ZERO` of the profile (R17, R23). -/
def NumFmt.zero : NumFmt → Word
  | .f32 => 0x00000000
  | .q824 => 0x00000000

/-- `HALF` of the profile (R17, R23). -/
def NumFmt.half : NumFmt → Word
  | .f32 => 0x3F000000
  | .q824 => 0x00800000

/-- `ONE` of the profile (R17, R23). -/
def NumFmt.one : NumFmt → Word
  | .f32 => 0x3F800000
  | .q824 => 0x01000000

/-- What register HW_NUMFMT reads for the profile (10_state.md R44). -/
def NumFmt.code : NumFmt → Nat
  | .f32 => 0
  | .q824 => 1

/-- The parameters that fix an instance (R5). -/
structure Params where
  /-- NUMFMT: number format of every sample, gain and ratio word. -/
  numFmt : NumFmt
  /-- NCH_MAX: physical channels of the store, the cursor files and the block buffer. -/
  nchMax : Nat
  /-- CAP_MAX: physical sample slots per channel. -/
  capMax : Nat
  /-- BLK_MAX: block-buffer words per channel. -/
  blkMax : Nat
  /-- RST_CAP: capacity established by hardware reset. -/
  rstCap : Nat
  /-- RST_NCH: channel count established by hardware reset. -/
  rstNch : Nat
  deriving DecidableEq, Repr

/-- The legal values of the parameters (R5). -/
abbrev Params.Legal (p : Params) : Prop :=
  (1 ≤ p.nchMax ∧ p.nchMax ≤ 256) ∧ (1 ≤ p.capMax ∧ p.capMax ≤ 2 ^ 24) ∧ (1 ≤ p.blkMax ∧ p.blkMax ≤ 65536) ∧
    (1 ≤ p.rstCap ∧ p.rstCap ≤ p.capMax) ∧ (1 ≤ p.rstNch ∧ p.rstNch ≤ p.nchMax)

/-- The reference values of R5, which 95_test_vectors.md uses. DESIGN CHOICE (log 1): the instance that `State.reset`
is the reset state of. -/
def Params.reference : Params :=
  { numFmt := .f32, nchMax := 8, capMax := 2 ^ 20, blkMax := 1024, rstCap := 2 ^ 20, rstNch := 2 }

/-- The identification string of an instance (R2). -/
def Params.identification (p : Params) : String :=
  "SDRB-1.0-" ++ (match p.numFmt with | .f32 => "F32" | .q824 => "Q8_24")

/-- HW_ID: ASCII "S", "D", then version 1.0 (R44). -/
def hwIdWord : Word := 0x53440100

/-- PLATFORM_BASE: where a platform maps the ports; "which no rule of this spec reads" (R67). An opaque constant, so
no proof can rest on its value (log 9). -/
opaque platformBase : Nat

end Sys2Proof
end

