-- ==== Sys2Proof/Syntax.lean ====
section
/-! DEFINITION. The commands of SDRB: one constructor of `Instr` per row of spec/opcode_table.json (30_encoding.md R84),
the opcode each carries, and the three words a command travels in (R81). -/

namespace Sys2Proof

/-- A command as it crosses the command port: three 32-bit words (R80, R81). -/
structure Command where
  /-- CMD: opcode, channel and index fields. -/
  cmd : Word
  /-- ARG0. -/
  arg0 : Word
  /-- ARG1. -/
  arg1 : Word
  deriving DecidableEq, Repr

/-- The mnemonics of R84. -/
inductive Opcode where
  | nop | init
  | rbWrite | rbRead | rbSetrp | rbReset | rbResize | rbGetcap | rbSetcapf | rbStep | rbGetwc | rbGetrc
  | deReset | deSetdly | deSetfb | deSetmix | deMixstep | deProcess
  | blkWr | blkRd
  | regRd | statClr
  deriving DecidableEq, Repr

/-- A decoded command with the operands R84 gives it: `ch` is CMD[23:16], `idx` and `sel` are CMD[15:0], the rest are
argument words as they stand in ARG0 and ARG1 (R82). -/
inductive Instr where
  /-- NOP (42_host_access.md R210). -/
  | nop
  /-- INIT maxDelaySamples, channels (41_delay_effect.md R160). -/
  | init (maxDelaySamples channels : Word)
  /-- RB.WRITE ch, sample (40_ring_buffer.md R112). -/
  | rbWrite (ch : BitVec 8) (sample : Word)
  /-- RB.READ ch (R113). -/
  | rbRead (ch : BitVec 8)
  /-- RB.SETRP ch, lagSamples (R114). -/
  | rbSetrp (ch : BitVec 8) (lagSamples : Word)
  /-- RB.RESET (R115). -/
  | rbReset
  /-- RB.RESIZE newCapacity (R116). -/
  | rbResize (newCapacity : Word)
  /-- RB.GETCAP (R117). -/
  | rbGetcap
  /-- RB.SETCAPF capacity (R118). -/
  | rbSetcapf (capacity : Word)
  /-- RB.STEP ch, input, feedback (R119). -/
  | rbStep (ch : BitVec 8) (input feedback : Word)
  /-- RB.GETWC ch (42_host_access.md R214). -/
  | rbGetwc (ch : BitVec 8)
  /-- RB.GETRC ch (R215). -/
  | rbGetrc (ch : BitVec 8)
  /-- DE.RESET sampleRate, delayTimeMs (41_delay_effect.md R162). -/
  | deReset (sampleRate delayTimeMs : Word)
  /-- DE.SETDLY delayTimeMs, sampleRate (R163): the order of the arguments differs from DE.RESET's (R84). -/
  | deSetdly (delayTimeMs sampleRate : Word)
  /-- DE.SETFB value (R164). -/
  | deSetfb (value : Word)
  /-- DE.SETMIX value (R165). -/
  | deSetmix (value : Word)
  /-- DE.MIXSTEP ch, input (R166). -/
  | deMixstep (ch : BitVec 8) (input : Word)
  /-- DE.PROCESS channelCount, sampleCount (R167). -/
  | deProcess (channelCount sampleCount : Word)
  /-- BLK.WR ch, idx, value (42_host_access.md R211). -/
  | blkWr (ch : BitVec 8) (idx : BitVec 16) (value : Word)
  /-- BLK.RD ch, idx (R212). -/
  | blkRd (ch : BitVec 8) (idx : BitVec 16)
  /-- REG.RD sel (R213). -/
  | regRd (sel : BitVec 16)
  /-- STAT.CLR (R216). -/
  | statClr
  deriving DecidableEq, Repr

/-- The opcode of a command. -/
def Instr.opcode : Instr → Opcode
  | .nop => .nop
  | .init .. => .init
  | .rbWrite .. => .rbWrite
  | .rbRead .. => .rbRead
  | .rbSetrp .. => .rbSetrp
  | .rbReset => .rbReset
  | .rbResize .. => .rbResize
  | .rbGetcap => .rbGetcap
  | .rbSetcapf .. => .rbSetcapf
  | .rbStep .. => .rbStep
  | .rbGetwc .. => .rbGetwc
  | .rbGetrc .. => .rbGetrc
  | .deReset .. => .deReset
  | .deSetdly .. => .deSetdly
  | .deSetfb .. => .deSetfb
  | .deSetmix .. => .deSetmix
  | .deMixstep .. => .deMixstep
  | .deProcess .. => .deProcess
  | .blkWr .. => .blkWr
  | .blkRd .. => .blkRd
  | .regRd .. => .regRd
  | .statClr => .statClr

end Sys2Proof
end

