-- ==== Sys2Proof/WellFormed.lean ====
section
/-! DEFINITION. Which commands the encoding admits. The types of `Instr` bound every field but one: REG.RD's selector
(30_encoding.md R87). -/

namespace Sys2Proof

/-- The selectors REG.RD takes are 0x0000 to 0x000C (R87). -/
def selectorInTable (sel : BitVec 16) : Bool := sel.toNat ≤ 0x000C

/-- A command is well formed when R84 and R87 give it a meaning: every channel, index and argument word is admitted
(R88), and a REG.RD selector stands in the table of R213. -/
def Instr.wellFormed : Instr → Bool
  | .regRd sel => selectorInTable sel
  | .nop | .init .. | .rbWrite .. | .rbRead .. | .rbSetrp .. | .rbReset | .rbResize .. | .rbGetcap | .rbSetcapf ..
  | .rbStep .. | .rbGetwc .. | .rbGetrc .. | .deReset .. | .deSetdly .. | .deSetfb .. | .deSetmix .. | .deMixstep ..
  | .deProcess .. | .blkWr .. | .blkRd .. | .statClr => true

end Sys2Proof
end

