-- ==== Sys2Proof/Decode.lean ====
section
/-! DEFINITION. Decoding of a command word and, after it, the encoder (30_encoding.md R81 to R89). Decoding is total:
a command either is one of the rows of R84 with its zero fields zero, or is refused for a named reason (R88); the machine
raises ILLEGAL for every one of those reasons. -/

namespace Sys2Proof

/-- Why a command word is no command (R85 to R87). All three raise the same error, ILLEGAL. -/
inductive DecodeError where
  /-- The OPC value is in no row of R84 (R85). -/
  | reservedOpcode
  /-- CH is nonzero where R84 says 0 (R86). -/
  | nonzeroChannel
  /-- IDX is nonzero where R84 says 0 (R86). -/
  | nonzeroIndex
  /-- A REG.RD selector above 0x000C (R87). -/
  | reservedSelector
  deriving DecidableEq, Repr

/-- OPC = CMD[31:24] (R81). -/
def opcField (w : Word) : BitVec 8 := w.extractLsb' 24 8

/-- CH = CMD[23:16] (R81). -/
def chField (w : Word) : BitVec 8 := w.extractLsb' 16 8

/-- IDX = CMD[15:0] (R81). -/
def idxField (w : Word) : BitVec 16 := w.extractLsb' 0 16

/-- `{OPC, CH, IDX}`, a command word from its fields (R81). -/
def packCmd (opc ch : BitVec 8) (idx : BitVec 16) : Word := (opc ++ ch) ++ idx

/-- The OPC column of R84. -/
def Opcode.code : Opcode → BitVec 8
  | .nop => 0x00
  | .init => 0x01
  | .rbWrite => 0x10
  | .rbRead => 0x11
  | .rbSetrp => 0x12
  | .rbReset => 0x13
  | .rbResize => 0x14
  | .rbGetcap => 0x15
  | .rbSetcapf => 0x16
  | .rbStep => 0x17
  | .rbGetwc => 0x18
  | .rbGetrc => 0x19
  | .deReset => 0x20
  | .deSetdly => 0x21
  | .deSetfb => 0x22
  | .deSetmix => 0x23
  | .deMixstep => 0x24
  | .deProcess => 0x25
  | .blkWr => 0x30
  | .blkRd => 0x31
  | .regRd => 0x40
  | .statClr => 0x41

/-- The rows of R84, in the table's order. -/
def Opcode.rows : List Opcode :=
  [.nop, .init, .rbWrite, .rbRead, .rbSetrp, .rbReset, .rbResize, .rbGetcap, .rbSetcapf, .rbStep, .rbGetwc, .rbGetrc,
    .deReset, .deSetdly, .deSetfb, .deSetmix, .deMixstep, .deProcess, .blkWr, .blkRd, .regRd, .statClr]

/-- The CH column of R84: whether the channel field is an operand (otherwise it must be 0). -/
def Opcode.takesChannel : Opcode → Bool
  | .rbWrite | .rbRead | .rbSetrp | .rbStep | .rbGetwc | .rbGetrc | .deMixstep | .blkWr | .blkRd => true
  | .nop | .init | .rbReset | .rbResize | .rbGetcap | .rbSetcapf | .deReset | .deSetdly | .deSetfb | .deSetmix
  | .deProcess | .regRd | .statClr => false

/-- The IDX column of R84: whether the index field is an operand (otherwise it must be 0). -/
def Opcode.takesIndex : Opcode → Bool
  | .blkWr | .blkRd | .regRd => true
  | .nop | .init | .rbWrite | .rbRead | .rbSetrp | .rbReset | .rbResize | .rbGetcap | .rbSetcapf | .rbStep | .rbGetwc
  | .rbGetrc | .deReset | .deSetdly | .deSetfb | .deSetmix | .deMixstep | .deProcess | .statClr => false

/-- The row whose OPC value is `b`, if there is one (R85). -/
def Opcode.ofCode (b : BitVec 8) : Option Opcode := Opcode.rows.find? (fun o => o.code == b)

/-- The command of a row with its operands; a word the row does not use is ignored (R82). -/
def Opcode.instr (o : Opcode) (ch : BitVec 8) (idx : BitVec 16) (a0 a1 : Word) : Instr :=
  match o with
  | .nop => .nop
  | .init => .init a0 a1
  | .rbWrite => .rbWrite ch a0
  | .rbRead => .rbRead ch
  | .rbSetrp => .rbSetrp ch a0
  | .rbReset => .rbReset
  | .rbResize => .rbResize a0
  | .rbGetcap => .rbGetcap
  | .rbSetcapf => .rbSetcapf a0
  | .rbStep => .rbStep ch a0 a1
  | .rbGetwc => .rbGetwc ch
  | .rbGetrc => .rbGetrc ch
  | .deReset => .deReset a0 a1
  | .deSetdly => .deSetdly a0 a1
  | .deSetfb => .deSetfb a0
  | .deSetmix => .deSetmix a0
  | .deMixstep => .deMixstep ch a0
  | .deProcess => .deProcess a0 a1
  | .blkWr => .blkWr ch idx a0
  | .blkRd => .blkRd ch idx
  | .regRd => .regRd idx
  | .statClr => .statClr

/-- Decoding reads CMD only; the argument words never make a command illegal (R88). -/
def decode (c : Command) : Except DecodeError Instr :=
  match Opcode.ofCode (opcField c.cmd) with
  | none => .error .reservedOpcode
  | some o =>
    if !o.takesChannel && chField c.cmd != 0 then .error .nonzeroChannel
    else if !o.takesIndex && idxField c.cmd != 0 then .error .nonzeroIndex
    else
      let i := o.instr (chField c.cmd) (idxField c.cmd) c.arg0 c.arg1
      if i.wellFormed then .ok i else .error .reservedSelector

/-- The CH field of a command: its channel operand, or 0 (R84). -/
def Instr.chOperand : Instr → BitVec 8
  | .rbWrite ch _ | .rbRead ch | .rbSetrp ch _ | .rbStep ch _ _ | .rbGetwc ch | .rbGetrc ch | .deMixstep ch _
  | .blkWr ch _ _ | .blkRd ch _ => ch
  | .nop | .init .. | .rbReset | .rbResize .. | .rbGetcap | .rbSetcapf .. | .deReset .. | .deSetdly .. | .deSetfb ..
  | .deSetmix .. | .deProcess .. | .regRd .. | .statClr => 0

/-- The IDX field of a command: its index or selector operand, or 0 (R84). -/
def Instr.idxOperand : Instr → BitVec 16
  | .blkWr _ idx _ | .blkRd _ idx | .regRd idx => idx
  | .nop | .init .. | .rbWrite .. | .rbRead .. | .rbSetrp .. | .rbReset | .rbResize .. | .rbGetcap | .rbSetcapf ..
  | .rbStep .. | .rbGetwc .. | .rbGetrc .. | .deReset .. | .deSetdly .. | .deSetfb .. | .deSetmix .. | .deMixstep ..
  | .deProcess .. | .statClr => 0

/-- The word in ARG0: the first argument of R84's table, or 0 where the command has none (R90: an omitted argument
word encodes as zero). -/
def Instr.arg0Operand : Instr → Word
  | .init a _ | .rbWrite _ a | .rbSetrp _ a | .rbResize a | .rbSetcapf a | .rbStep _ a _ | .deReset a _ | .deSetdly a _
  | .deSetfb a | .deSetmix a | .deMixstep _ a | .deProcess a _ | .blkWr _ _ a => a
  | .nop | .rbRead .. | .rbReset | .rbGetcap | .rbGetwc .. | .rbGetrc .. | .blkRd .. | .regRd .. | .statClr => 0

/-- The word in ARG1, as for ARG0. -/
def Instr.arg1Operand : Instr → Word
  | .init _ b | .rbStep _ _ b | .deReset _ b | .deSetdly _ b | .deProcess _ b => b
  | .nop | .rbWrite .. | .rbRead .. | .rbSetrp .. | .rbReset | .rbResize .. | .rbGetcap | .rbSetcapf .. | .rbGetwc ..
  | .rbGetrc .. | .deSetfb .. | .deSetmix .. | .deMixstep .. | .blkWr .. | .blkRd .. | .regRd .. | .statClr => 0

/-- The command word CMD of a command: what ERR_CMD captures when it raises an error (10_state.md R43). DEDUCED
(log 6): CMD is wholly determined by the decoded command, since every CMD bit is opcode, operand or must-be-zero. -/
def cmdWord (i : Instr) : Word := packCmd i.opcode.code i.chOperand i.idxOperand

/-- The three words of a command (R81, R84). -/
def encode (i : Instr) : Command := { cmd := cmdWord i, arg0 := i.arg0Operand, arg1 := i.arg1Operand }

/-- The command whose 96 bits, CMD first, are `w`; bits at and above `nbits` are 0. -/
def commandOfBits (nbits w : Nat) : Command :=
  let v := w % 2 ^ nbits
  { cmd := wordOfNat v, arg0 := wordOfNat (v >>> 32), arg1 := wordOfNat (v >>> 64) }

/-- What the decoder reads from a table row's bits: CMD is bits 31:0, ARG0 bits 63:32, ARG1 bits 95:64. -/
def decodeTableWord (nbits w : Nat) : Option Instr :=
  match decode (commandOfBits nbits w) with
  | .ok i => some i
  | .error _ => none

end Sys2Proof
end

