-- ==== Sys2Proof/Machine/State.lean ====
section
/-! DEFINITION. The state of SDRB as plain data (10_state.md R30: "exactly the following ... nothing else is state"),
with two fields of the model's own for what crosses the ports, and the state after hardware reset
(70_reset_and_hazards.md R270). -/

namespace Sys2Proof.Machine

/-- One response (30_encoding.md R83): the data word DATA and the bit ERR. -/
structure Response where
  /-- DATA. -/
  data : Word
  /-- ERR: 1 exactly when the command raised ILLEGAL, ARG or ACCESS. -/
  err : Bool
  deriving DecidableEq, Repr

/-- One thing the host does to the machine's inputs (60_exceptions.md R251). -/
inductive PortEvent where
  /-- The host's next command transfers on the command port (R80). -/
  | command (c : Command)
  /-- Hardware reset (70_reset_and_hazards.md R270). `during` is the command the reset abandons, if one was in SDRB or
  its response was waiting to be taken (R272). -/
  | reset (during : Option Command)
  deriving DecidableEq, Repr

/-- A word memory (STORE or BLK): (index, word) pairs with strictly rising indices and no ZERO word listed, so that equal
memories are equal lists. The smallest thing SDRB addresses is a 32-bit word (20_memory.md R64; log 4). -/
abbrev Memory := List (Nat × Word)

/-- The machine. -/
structure State where
  /-- The constants of the instance: HW_NUMFMT, HW_NCH_MAX, HW_CAP_MAX, HW_BLK_MAX (R44) and the two reset parameters
  RST_CAP, RST_NCH (R5). Nothing writes it. -/
  hw : Params
  /-- HW_ID (R44). Nothing writes it. -/
  hwId : Word
  /-- CHANNELS, the source's `channelCount` (R33). -/
  channels : Word
  /-- CAPACITY, the modulus of every cursor advance and lag (R34). -/
  capacity : Word
  /-- ALLOC, the slots per channel last allocated (R35). -/
  alloc : Word
  /-- WCUR[c] for c in [0, NCH_MAX) (R36). -/
  wcur : List Word
  /-- RCUR[c] for c in [0, NCH_MAX) (R36). -/
  rcur : List Word
  /-- FEEDBACK, a sample word in [0, 1] (R37, R39). -/
  feedback : Word
  /-- MIX, a sample word in [0, 1] (R38, R39). -/
  mix : Word
  /-- DELAY_SAMPLES (R40). -/
  delaySamples : Word
  /-- STATUS (R41, R42). -/
  status : Word
  /-- ERR_CMD, the command word of the first command that raised an error (R43). -/
  errCmd : Word
  /-- STORE, the sample store (20_memory.md R60, R61). -/
  store : Memory
  /-- BLK, the block buffer (R60, R63). -/
  blk : Memory
  /-- The model's own: what the host will do, oldest first (log 2). -/
  input : List PortEvent
  /-- The model's own: the responses transferred so far, oldest first (20_memory.md R68; log 3). -/
  output : List Response
  deriving DecidableEq, Repr

/-- Why the machine stops. SDRB itself never stops (60_exceptions.md R240): its errors ILLEGAL, ARG and ACCESS are
status bits of a next state. -/
inductive Fault where
  /-- Raised by RB.WRITE, RB.READ, RB.STEP, DE.MIXSTEP and DE.PROCESS for a STORE word that does not exist: a channel at
  or above NCH_MAX or a slot at or above CAP_MAX (20_memory.md R60). It can happen only in a state that breaks
  10_state.md R45 (CHANNELS above NCH_MAX, or ALLOC above CAP_MAX), which no run from reset reaches. Safe: the model
  stops where the spec gives nothing (log 5). -/
  | storeAbsent
  deriving DecidableEq, Repr

/-- Why the model has no meaning to give. -/
inductive Refusal where
  /-- An instruction that is not modelled, by its mnemonic. No arm answers it: every instruction has its meaning. Safe. -/
  | notModelled (mnemonic : String)
  /-- Raised by `portEdge` alone, for a host that withdraws or changes a command while it waits to be accepted: such a
  host is outside the spec and has no move (60_exceptions.md R251; log 12). No command answers it. Safe: it stops only
  where the spec gives nothing. -/
  | hostMove
  deriving DecidableEq, Repr

/-- The state hardware reset brings an instance to (R30's reset column, R270), with what stands on the ports: the
parameters and HW_ID are constants of the instance (R271). -/
def State.afterReset (hw : Params) (input : List PortEvent) (output : List Response) : State :=
  { hw := hw
    hwId := hwIdWord
    channels := wordOfNat hw.rstNch
    capacity := wordOfNat hw.rstCap
    alloc := wordOfNat hw.rstCap
    wcur := List.replicate hw.nchMax 0
    rcur := List.replicate hw.nchMax 0
    feedback := hw.numFmt.half
    mix := hw.numFmt.one
    delaySamples := 0
    status := 0
    errCmd := 0
    store := []
    blk := []
    input := input
    output := output }

/-- The machine right after reset: the reference instance of R5 (log 1), nothing offered and nothing answered yet
(log 2, log 3). -/
def State.reset : State := State.afterReset Params.reference [] []

end Sys2Proof.Machine
end

