-- ==== Sys2Proof/Machine/Flags.lean ====
section
/-! DEFINITION. The bits of STATUS (10_state.md R41, 60_exceptions.md R241) and how warnings and errors set and clear
them. -/

namespace Sys2Proof.Machine

/-- The warnings of R241. -/
inductive Warning where
  /-- A command named a channel at or above CHANNELS. -/
  | chInv
  /-- DE.SETFB got a value outside [0, 1]. -/
  | fbRange
  /-- DE.SETMIX got a value outside [0, 1]. -/
  | mixRange
  /-- DE.SETDLY clamped the derived delay. -/
  | dlyClamp
  deriving DecidableEq, Repr

/-- The errors of R241. -/
inductive ErrorKind where
  /-- Reserved opcode, nonzero reserved field or reserved selector. -/
  | illegal
  /-- An argument outside the range the hardware accepts. -/
  | arg
  /-- A sample-store access at a slot at or above ALLOC. -/
  | access
  deriving DecidableEq, Repr

/-- The STATUS bit number of a warning (R41). -/
def warningBit : Warning → Nat
  | .chInv => 0
  | .fbRange => 1
  | .mixRange => 2
  | .dlyClamp => 3

/-- The STATUS bit number of an error (R41). -/
def errorBit : ErrorKind → Nat
  | .illegal => 8
  | .arg => 9
  | .access => 10

/-- STATUS with bit `n` set; every other bit stays (R41: "Every bit is sticky"). -/
def setBit (status : Word) (n : Nat) : Word := status ||| BitVec.twoPow 32 n

/-- STATUS bits 10:8 are all 0: no error since hardware reset (R43). -/
def noErrorYet (status : Word) : Bool := status.extractLsb' 8 3 == 0

/-- STATUS with bits 3:0 cleared (42_host_access.md R216). -/
def clearWarnings (status : Word) : Word := status &&& 0xFFFFFFF0

end Sys2Proof.Machine
end

