-- ==== Sys2Proof/Machine/Fixed.lean ====
section
/-! DEFINITION. Profile Q8_24: signed fixed point with 24 fraction bits (00_scope.md R18 to R24). Products and sums are
exact integers; one rounding, one saturation. -/

namespace Sys2Proof.Machine

/-- `rnd24(a) = floor((a + 2^23) / 2^24)`: to nearest, ties toward plus infinity (R19). -/
def rnd24 (a : Int) : Int := (a + 2 ^ 23) / 2 ^ 24

/-- `sat32(a) = min(max(a, -2^31), 2^31 - 1)` (R19). -/
def sat32 (a : Int) : Int := min (max a (-2 ^ 31)) (2 ^ 31 - 1)

/-- `MAC(x, f, d)` (R20). -/
def macQ (x f d : Word) : Word := wordOfInt (sat32 (rnd24 (sint x * 2 ^ 24 + sint f * sint d)))

/-- `BLEND(m, w, x)` (R21). -/
def blendQ (m w x : Word) : Word :=
  wordOfInt (sat32 (rnd24 (sint m * sint w + (2 ^ 24 - sint m) * sint x)))

/-- `CLAMP01(v)` (R22). -/
def clampQ (v : Word) : Word × Bool :=
  if sint v < 0 then (NumFmt.q824.zero, true)
  else if 2 ^ 24 < sint v then (NumFmt.q824.one, true)
  else (v, false)

/-- `LAGINT(v) = max(0, sint(v))`, never BAD (R24). -/
def lagQ (v : Word) : Option Nat := some (sint v).toNat

end Sys2Proof.Machine
end

