-- ==== Sys2Proof/Machine/Float32.lean ====
section
/-! DEFINITION. Profile F32: IEEE 754 binary32 words and the three operations on them (00_scope.md R10 to R12). A finite
word is read as an exact whole number of units of 2^-149 (the smallest subnormal); every operation computes exactly and
rounds once. -/

namespace Sys2Proof.Machine

/-- The sign bit `w[31]` (R10). -/
def f32Sign (w : Word) : Bool := w.getLsbD 31

/-- The biased exponent `w[30:23]` (R10). -/
def f32Exp (w : Word) : Nat := (w.extractLsb' 23 8).toNat

/-- The fraction `w[22:0]` (R10). -/
def f32Frac (w : Word) : Nat := (w.extractLsb' 0 23).toNat

/-- `e = 255, f != 0` (R10). -/
def f32IsNaN (w : Word) : Bool := f32Exp w == 255 && f32Frac w != 0

/-- `e = 255, f = 0` (R10). -/
def f32IsInf (w : Word) : Bool := f32Exp w == 255 && f32Frac w == 0

/-- The magnitude of a finite word in units of 2^-149 (R10): `f` for `e = 0`, else `(2^23 + f) * 2^(e - 1)`. -/
def f32Mag (w : Word) : Nat :=
  if f32Exp w = 0 then f32Frac w else (2 ^ 23 + f32Frac w) * 2 ^ (f32Exp w - 1)

/-- The value of a finite word in units of 2^-149 (R10). -/
def f32Units (w : Word) : Int := if f32Sign w then -(f32Mag w : Int) else (f32Mag w : Int)

/-- 1.0 in units of 2^-149. -/
def f32OneUnits : Int := 2 ^ 149

/-- The canonical quiet NaN (R12). -/
def f32Nan : Word := 0x7FC00000

/-- The bits 30:0 of an infinity (R10). -/
def f32InfMag : Nat := 0x7F800000

/-- A word from its sign and its bits 30:0. -/
def f32Pack (neg : Bool) (mag : Nat) : Word := wordOfNat (if neg then 2 ^ 31 + mag else mag)

/-- roundTiesToEven of the magnitude `num / den` units of 2^-149 (R11): the bits 30:0 of the nearest binary32, of the two
nearest the one with an even fraction, and an infinity when the rounded magnitude is beyond the largest finite one. The
unit in the last place of the result is 2^shift units, where 2^(shift + 23) is the leading bit of the value, but never
below one unit, so that subnormals are kept. -/
def f32RoundMag (num den : Nat) : Nat :=
  let shift := (num / den).log2 - 23
  let ulp := den * 2 ^ shift
  let q := num / ulp
  let r := num % ulp
  let q' := if ulp < 2 * r ∨ (2 * r = ulp ∧ q % 2 = 1) then q + 1 else q
  min (shift * 2 ^ 23 + q') f32InfMag

/-- The rounded word of a sign and an exact magnitude `num / den` units. -/
def f32Round (neg : Bool) (num den : Nat) : Word := f32Pack neg (f32RoundMag num den)

/-- `fadd(a, b)` (R11, R12): a NaN operand or `inf + (-inf)` gives the canonical NaN; an exact zero sum is `-0` only when
both operands are `-0`. -/
def fadd (a b : Word) : Word :=
  if f32IsNaN a || f32IsNaN b then f32Nan
  else if f32IsInf a then (if f32IsInf b && f32Sign a != f32Sign b then f32Nan else a)
  else if f32IsInf b then b
  else
    let sum := f32Units a + f32Units b
    if sum = 0 then f32Pack (f32Sign a && f32Sign b) 0
    else f32Round (sum < 0) sum.natAbs 1

/-- A word with its sign bit inverted. -/
def f32Neg (w : Word) : Word := w ^^^ 0x80000000

/-- `fsub(a, b)` (R11): IEEE 754 subtraction is the addition of the negated second operand (log 8). -/
def fsub (a b : Word) : Word := fadd a (f32Neg b)

/-- `fmul(a, b)` (R11, R12): a NaN operand or `0 * inf` gives the canonical NaN; the sign is the exclusive or of the
operands' signs. The product of two magnitudes in units of 2^-149 is in units of 2^-298. -/
def fmul (a b : Word) : Word :=
  let neg := f32Sign a != f32Sign b
  if f32IsNaN a || f32IsNaN b then f32Nan
  else if f32IsInf a || f32IsInf b then
    (if (!f32IsInf a && f32Mag a == 0) || (!f32IsInf b && f32Mag b == 0) then f32Nan else f32Pack neg f32InfMag)
  else f32Round neg (f32Mag a * f32Mag b) (2 ^ 149)

/-- `MAC(x, f, d) = fadd(x, fmul(f, d))`, two roundings (R13). -/
def macF32 (x f d : Word) : Word := fadd x (fmul f d)

/-- `BLEND(m, w, x)` in the order `t1 = m * w`, `t2 = ONE - m`, `t3 = t2 * x`, `t1 + t3` (R14). -/
def blendF32 (m w x : Word) : Word :=
  let t1 := fmul m w
  let t2 := fsub NumFmt.f32.one m
  let t3 := fmul t2 x
  fadd t1 t3

/-- A word below zero: `value(v) < 0`, `-inf` included (R15). -/
def f32Below0 (v : Word) : Bool := if f32IsInf v then f32Sign v else f32Units v < 0

/-- A word above one: `value(v) > 1`, `+inf` included (R15). -/
def f32Above1 (v : Word) : Bool := if f32IsInf v then !f32Sign v else f32OneUnits < f32Units v

/-- `CLAMP01(v)` (R15): the clamped word and whether `v` was outside [0, 1]. -/
def clampF32 (v : Word) : Word × Bool :=
  if f32IsNaN v then (NumFmt.f32.one, true)
  else if f32Below0 v then (NumFmt.f32.zero, true)
  else if f32Above1 v then (NumFmt.f32.one, true)
  else if f32Units v = 0 then (NumFmt.f32.zero, false)
  else (v, false)

/-- `LAGINT(v)` (R16): NaN and `value(v) <= 0` (`-inf` included) give 0, `+inf` gives BAD (`none`), any other word the
floor of its value. -/
def lagF32 (v : Word) : Option Nat :=
  if f32IsNaN v then some 0
  else if f32IsInf v then (if f32Sign v then some 0 else none)
  else if f32Units v ≤ 0 then some 0
  else some (f32Mag v / 2 ^ 149)

end Sys2Proof.Machine
end

