-- ==== Sys2Proof/Machine/Operands.lean ====
section
/-! DEFINITION. The five numeric primitives per NUMFMT (00_scope.md section 5), the operand forms of 30_encoding.md R82,
and the arithmetic of cursors and delay times (40_ring_buffer.md R111, R114; 41_delay_effect.md R161). -/

namespace Sys2Proof.Machine

/-- `MAC(x, f, d)`, the feedback multiply-accumulate (R13, R20). -/
def mac (fmt : NumFmt) (x f d : Word) : Word :=
  match fmt with
  | .f32 => macF32 x f d
  | .q824 => macQ x f d

/-- `BLEND(m, w, x)`, the wet/dry mix (R14, R21). -/
def blend (fmt : NumFmt) (m w x : Word) : Word :=
  match fmt with
  | .f32 => blendF32 m w x
  | .q824 => blendQ m w x

/-- `CLAMP01(v)`, the parameter clamp (R15, R22). -/
def clamp01 (fmt : NumFmt) (v : Word) : Word × Bool :=
  match fmt with
  | .f32 => clampF32 v
  | .q824 => clampQ v

/-- `LAGINT(v)`, the lag conversion; `none` is BAD (R16, R24). -/
def lagInt (fmt : NumFmt) (v : Word) : Option Nat :=
  match fmt with
  | .f32 => lagF32 v
  | .q824 => lagQ v

/-- `ch = uint(CMD[23:16])` (R82). -/
abbrev chanNat (ch : BitVec 8) : Nat := ch.toNat

/-- `idx = uint(CMD[15:0])` (R82). -/
abbrev indexNat (idx : BitVec 16) : Nat := idx.toNat

/-- An `int` argument is in the range [lo, hi] (60_exceptions.md R241). -/
def intInRange (lo hi : Nat) (w : Word) : Bool := decide ((lo : Int) ≤ sint w ∧ sint w ≤ (hi : Int))

/-- `adv(p) = (p + 1) mod capacity` (R111). -/
def advance (capacity p : Nat) : Nat := (p + 1) % capacity

/-- `(w - lag) mod capacity` with the Euclidean remainder (R114, 00_scope.md R8). -/
def lagPosition (capacity w lag : Nat) : Nat := (((w : Int) - (lag : Int)) % (capacity : Int)).toNat

/-- `dsamp(sr, ms) = floor((sr * ms) / 1000)` on exact integers, for non-negative arguments (R161). -/
def dsamp (sr ms : Nat) : Nat := sr * ms / 1000

end Sys2Proof.Machine
end

