-- ==== Sys2Proof/Machine/Ops.lean ====
section
/-! DEFINITION. The named operations over memory and registers that every command is made of: the word memories
(20_memory.md), the cursor files, the response, the warnings, the one operation that raises an error
(60_exceptions.md R243), the comb-filter step (40_ring_buffer.md R119) and the block loop (41_delay_effect.md R167). -/

namespace Sys2Proof.Machine

/-- What a command ends in. -/
abbrev Result := Host.Outcome State Fault Refusal

/-! ### The word memories -/

/-- The index under which `STORE[c][i]` or `BLK[c][i]` is listed. Indices within a channel are below 2^32, so two
different words never share one. -/
def cellKey (c i : Nat) : Nat := c * 2 ^ 32 + i

/-- What an index that is not listed reads as: ZERO, the reset content of both memories (10_state.md R30), which is the
word 0 in both profiles (R17, R23). -/
def unlistedWord : Word := 0

/-- The canonical form: indices strictly rising, and no entry equal to what an unlisted index reads as. -/
abbrev Memory.wf (m : Memory) : Prop :=
  m.Pairwise (fun a b => a.1 < b.1) ∧ ∀ e ∈ m, e.2 ≠ unlistedWord

/-- The word at an index. -/
def Memory.read : Memory → Nat → Word
  | [], _ => unlistedWord
  | (k, v) :: m, a => if k = a then v else Memory.read m a

/-- The memory with one whole word replaced (R64), in canonical form. -/
def Memory.write : Memory → Nat → Word → Memory
  | [], a, v => if v = unlistedWord then [] else [(a, v)]
  | (k, w) :: m, a, v =>
    if a < k then (if v = unlistedWord then (k, w) :: m else (a, v) :: (k, w) :: m)
    else if a = k then (if v = unlistedWord then m else (a, v) :: m)
    else (k, w) :: Memory.write m a v

/-- `MemRead(STORE, c, p)` (00_scope.md R9). -/
def State.storeRead (s : State) (c p : Nat) : Word := s.store.read (cellKey c p)

/-- `MemWrite(STORE, c, p, v)`. -/
def State.storeWrite (s : State) (c p : Nat) (v : Word) : State := { s with store := s.store.write (cellKey c p) v }

/-- `MemRead(BLK, c, i)`. -/
def State.blkRead (s : State) (c i : Nat) : Word := s.blk.read (cellKey c i)

/-- `MemWrite(BLK, c, i, v)`. -/
def State.blkWrite (s : State) (c i : Nat) (v : Word) : State := { s with blk := s.blk.write (cellKey c i) v }

/-- `STORE[c][p]` exists: channel below NCH_MAX, slot below CAP_MAX (R60). -/
def State.storeHas (s : State) (c p : Nat) : Bool := decide (c < s.hw.nchMax ∧ p < s.hw.capMax)

/-- `BLK[c][i]` exists: channel below NCH_MAX, index below BLK_MAX (R60, R63). -/
def State.blkHas (s : State) (c i : Nat) : Bool := decide (c < s.hw.nchMax ∧ i < s.hw.blkMax)

/-! ### Channels and cursors -/

/-- `valid(c)` is `c < CHANNELS` (40_ring_buffer.md R110). -/
def State.valid (s : State) (c : Nat) : Bool := decide (c < uint s.channels)

/-- WCUR[c]. A cursor the instance does not have (c at or above NCH_MAX) reads 0 (log 10). -/
def State.wcurAt (s : State) (c : Nat) : Nat := uint (s.wcur.getD c 0)

/-- RCUR[c], as for WCUR. -/
def State.rcurAt (s : State) (c : Nat) : Nat := uint (s.rcur.getD c 0)

/-- `WCUR[c] <- p`. -/
def State.setWcur (s : State) (c p : Nat) : State := { s with wcur := s.wcur.set c (wordOfNat p) }

/-- `RCUR[c] <- p`. -/
def State.setRcur (s : State) (c p : Nat) : State := { s with rcur := s.rcur.set c (wordOfNat p) }

/-- `adv` by the state's CAPACITY (R111). -/
def State.adv (s : State) (p : Nat) : Nat := advance (uint s.capacity) p

/-- Where channel `c`'s read cursor stands for a lag of `lag` samples (R114, R163). -/
def State.lagSlot (s : State) (c lag : Nat) : Nat := lagPosition (uint s.capacity) (s.wcurAt c) lag

/-- What a slot check finds (20_memory.md R62). -/
inductive SlotCheck where
  /-- Every slot may be accessed. -/
  | inside
  /-- Some slot is at or above ALLOC: the command raises ACCESS. -/
  | beyondAlloc
  /-- Every slot is below ALLOC but some word does not exist; no state that keeps 10_state.md R45 has one (log 5). -/
  | absent
  deriving DecidableEq, Repr

/-- The check a command makes, before it changes any state, on every slot it will access (R62). -/
def State.checkSlots (s : State) (c : Nat) (slots : List Nat) : SlotCheck :=
  if slots.any (fun p => decide (uint s.alloc ≤ p)) then .beyondAlloc
  else if slots.all (fun p => s.storeHas c p) then .inside
  else .absent

/-! ### Responses, warnings, errors -/

/-- The command's one response: `respond(v)`, ERR 0 (R83). -/
def State.respond (s : State) (v : Word) : State := { s with output := s.output ++ [{ data := v, err := false }] }

/-- `warn W`: set the bit and go on (R244). -/
def State.warn (s : State) (w : Warning) : State := { s with status := setBit s.status (warningBit w) }

/-- `if cond: warn W`. -/
def State.warnIf (s : State) (cond : Bool) (w : Warning) : State :=
  { s with status := if cond then setBit s.status (warningBit w) else s.status }

/-- RAISING AN ERROR, the only exception SDRB has (R243): if STATUS bits 10:8 are all 0, ERR_CMD takes the command word;
then the error's STATUS bit is set; nothing else changes, and the response is DATA 0, ERR 1. No control is transferred,
no mode changes and nothing else is saved, so there is no return from it (R246, R247). -/
def State.raiseWord (s : State) (cmd : Word) (e : ErrorKind) : State :=
  { s with
    errCmd := if noErrorYet s.status then cmd else s.errCmd
    status := setBit s.status (errorBit e)
    output := s.output ++ [{ data := 0, err := true }] }

/-- `raise E` in the command `i`. -/
def State.raise (s : State) (i : Instr) (e : ErrorKind) : State := s.raiseWord (cmdWord i) e

/-! ### Registers -/

/-- `CAPACITY <- k` alone (40_ring_buffer.md R118). -/
def State.setCapacity (s : State) (k : Word) : State := { s with capacity := k }

/-- `DELAY_SAMPLES <- n` (10_state.md R40). -/
def State.setDelaySamples (s : State) (n : Nat) : State := { s with delaySamples := wordOfNat n }

/-- `FEEDBACK <- v` (R37). -/
def State.setFeedback (s : State) (v : Word) : State := { s with feedback := v }

/-- `MIX <- v` (R38). -/
def State.setMix (s : State) (v : Word) : State := { s with mix := v }

/-- The registers a constructed effect starts with: CHANNELS, FEEDBACK HALF, MIX ONE, DELAY_SAMPLES 0
(41_delay_effect.md R160). -/
def State.construct (s : State) (channels : Word) : State :=
  { s with channels := channels, feedback := s.hw.numFmt.half, mix := s.hw.numFmt.one, delaySamples := 0 }

/-- STATUS bits 3:0 cleared (42_host_access.md R216). -/
def State.clearWarningBits (s : State) : State := { s with status := clearWarnings s.status }

/-! ### Clearing, resizing -/

/-- The body of RB.RESET (40_ring_buffer.md R115): every physical word of STORE and every cursor of every physical channel
becomes zero. A STORE of ZERO words only is the empty list. -/
def State.clearBuffer (s : State) : State :=
  { s with store := [], wcur := List.replicate s.hw.nchMax 0, rcur := List.replicate s.hw.nchMax 0 }

/-- `ALLOC <- n`, `CAPACITY <- n`, then the body of RB.RESET (R116, R160, R162). -/
def State.allocate (s : State) (n : Nat) : State :=
  { s with alloc := wordOfNat n, capacity := wordOfNat n }.clearBuffer

/-- One iteration of DE.SETDLY's loop: `if valid(c): RCUR[c] <- (WCUR[c] - ds) mod CAPACITY` (41_delay_effect.md R163). -/
def State.reposition (s : State) (ds c : Nat) : State :=
  { s with rcur := if s.valid c then s.rcur.set c (wordOfNat (s.lagSlot c ds)) else s.rcur }

/-! ### The comb-filter step, the blender and the block loop -/

/-- How a step ends. -/
inductive StepOutcome where
  /-- It returns the word `y` in the state `s`. -/
  | stepped (y : Word) (s : State)
  /-- A slot is at or above ALLOC: ACCESS, and nothing has changed. -/
  | access
  /-- A word that does not exist (log 5). -/
  | absent
  deriving DecidableEq, Repr

/-- The procedure `step(c, x, f)` of 40_ring_buffer.md R119: both slots are checked before either access; the read takes
the old word of the slot and the write comes after it; the word stored is the output. -/
def combStep (c : Nat) (x f : Word) (s : State) : StepOutcome :=
  match s.checkSlots c [s.rcurAt c, s.wcurAt c] with
  | .beyondAlloc => .access
  | .absent => .absent
  | .inside =>
    let d := s.storeRead c (s.rcurAt c)
    let y := mac s.hw.numFmt x f d
    let read := s.setRcur c (s.adv (s.rcurAt c))
    let written := read.storeWrite c (s.wcurAt c) y
    .stepped y (written.setWcur c (s.adv (s.wcurAt c)))

/-- The body of `process` for one sample (41_delay_effect.md R166, R167): the wet value is the step's output on a valid
channel, ZERO (with CH_INV) on an invalid one; the result is `BLEND(MIX, wet, x)`. -/
def mixSample (c : Nat) (x : Word) (s : State) : StepOutcome :=
  if s.valid c then
    match combStep c x s.feedback s with
    | .stepped wet s' => .stepped (blend s.hw.numFmt s.mix wet x) s'
    | .access => .access
    | .absent => .absent
  else .stepped (blend s.hw.numFmt s.mix s.hw.numFmt.zero x) (s.warn .chInv)

/-- How a block loop ends. -/
inductive LoopOutcome where
  /-- Every iteration has run. -/
  | done (s : State)
  /-- A step raised ACCESS; `s` keeps the iterations already done. -/
  | access (s : State)
  /-- A word that does not exist (log 5). -/
  | absent
  deriving DecidableEq, Repr

/-- One iteration of DE.PROCESS at channel `c` and index `i` (R167). -/
def processSample (c i : Nat) (s : State) : LoopOutcome :=
  match mixSample c (s.blkRead c i) s with
  | .stepped y s' => .done (s'.blkWrite c i y)
  | .access => .access s
  | .absent => .absent

/-- `todo` iterations on channel `c` from index `i` on (R167's inner loop). -/
def processRow (c : Nat) : Nat → Nat → State → LoopOutcome
  | 0, _, s => .done s
  | todo + 1, i, s =>
    match processSample c i s with
    | .done s' => processRow c todo (i + 1) s'
    | .access s' => .access s'
    | .absent => .absent

/-- `todo` channels of `ns` samples each from channel `c` on (R167's outer loop). -/
def processRows (ns : Nat) : Nat → Nat → State → LoopOutcome
  | 0, _, s => .done s
  | todo + 1, c, s =>
    match processRow c ns 0 s with
    | .done s' => processRows ns todo (c + 1) s'
    | .access s' => .access s'
    | .absent => .absent

/-! ### Registers the host reads -/

/-- The table of REG.RD (42_host_access.md R213); `none` for a selector that is not in it. -/
def State.register (s : State) (sel : Nat) : Option Word :=
  match sel with
  | 0x0000 => some s.status
  | 0x0001 => some s.capacity
  | 0x0002 => some s.alloc
  | 0x0003 => some s.channels
  | 0x0004 => some s.feedback
  | 0x0005 => some s.mix
  | 0x0006 => some s.delaySamples
  | 0x0007 => some s.errCmd
  | 0x0008 => some (wordOfNat s.hw.numFmt.code)
  | 0x0009 => some (wordOfNat s.hw.nchMax)
  | 0x000A => some (wordOfNat s.hw.capMax)
  | 0x000B => some (wordOfNat s.hw.blkMax)
  | 0x000C => some s.hwId
  | _ => none

/-! ### The ports -/

/-- The next port event and the state without it; with no event offered there is none. -/
def State.takeEvent (s : State) : Option (PortEvent × State) :=
  match s.input with
  | [] => none
  | e :: rest => some (e, { s with input := rest })

/-- Hardware reset (70_reset_and_hazards.md R270 to R272): every piece of state takes its reset value and the constants
stay. A command or a response it interrupts is dropped: no response is added. What stands on the ports is the host's. -/
def State.hardwareReset (s : State) : State := State.afterReset s.hw s.input s.output

end Sys2Proof.Machine
end

