-- ==== Sys2Proof/Machine/DelayEffect.lean ====
section
/-! DEFINITION. The delay-effect commands (41_delay_effect.md R160 to R167). -/

namespace Sys2Proof.Machine

/-- INIT (R160): construct; BLK, STATUS and ERR_CMD are left. -/
def execInit (maxDelaySamples channels : Word) (s : State) : Result :=
  if intInRange 1 s.hw.capMax maxDelaySamples && intInRange 1 s.hw.nchMax channels then
    .next (((s.construct channels).allocate (uint maxDelaySamples)).respond 0)
  else .next (s.raise (.init maxDelaySamples channels) .arg)

/-- DE.RESET (R162): the derived delay becomes the capacity; a negative argument, or a derived delay that is 0 or above
CAP_MAX, raises ARG. -/
def execDeReset (sampleRate delayTimeMs : Word) (s : State) : Result :=
  let ds := dsamp (sint sampleRate).toNat (sint delayTimeMs).toNat
  if sint sampleRate < 0 ∨ sint delayTimeMs < 0 then .next (s.raise (.deReset sampleRate delayTimeMs) .arg)
  else if ds < 1 ∨ s.hw.capMax < ds then .next (s.raise (.deReset sampleRate delayTimeMs) .arg)
  else .next (((s.setDelaySamples ds).allocate ds).respond 0)

/-- DE.SETDLY (R163): the derived delay, clamped to CAPACITY - 1, repositions the read cursors of channels 0 and 1
exactly, each only if valid and without CH_INV. -/
def execDeSetdly (delayTimeMs sampleRate : Word) (s : State) : Result :=
  let ds := dsamp (sint sampleRate).toNat (sint delayTimeMs).toNat
  let limit := uint s.capacity - 1
  if sint sampleRate < 0 ∨ sint delayTimeMs < 0 then .next (s.raise (.deSetdly delayTimeMs sampleRate) .arg)
  else
    let clamped := min ds limit
    let set := (s.warnIf (limit < ds) .dlyClamp).setDelaySamples clamped
    .next (((set.reposition clamped 0).reposition clamped 1).respond 0)

/-- DE.SETFB (R164). -/
def execDeSetfb (value : Word) (s : State) : Result :=
  let (c, out) := clamp01 s.hw.numFmt value
  .next (((s.warnIf out .fbRange).setFeedback c).respond 0)

/-- DE.SETMIX (R165). -/
def execDeSetmix (value : Word) (s : State) : Result :=
  let (c, out) := clamp01 s.hw.numFmt value
  .next (((s.warnIf out .mixRange).setMix c).respond 0)

/-- DE.MIXSTEP (R166): one sample through the step and the blender; an invalid channel gives the dry part. -/
def execDeMixstep (ch : BitVec 8) (input : Word) (s : State) : Result :=
  match mixSample (chanNat ch) input s with
  | .stepped y s' => .next (s'.respond y)
  | .access => .next (s.raise (.deMixstep ch input) .access)
  | .absent => .fault .storeAbsent

/-- DE.PROCESS (R167): the counts are checked before any work; an ACCESS ends the command at that sample and keeps the
iterations already done (90_conflicts.md C10). -/
def execDeProcess (channelCount sampleCount : Word) (s : State) : Result :=
  if intInRange 0 s.hw.nchMax channelCount && intInRange 0 s.hw.blkMax sampleCount then
    match processRows (uint sampleCount) (uint channelCount) 0 s with
    | .done s' => .next (s'.respond 0)
    | .access s' => .next (s'.raise (.deProcess channelCount sampleCount) .access)
    | .absent => .fault .storeAbsent
  else .next (s.raise (.deProcess channelCount sampleCount) .arg)

end Sys2Proof.Machine
end

