-- ==== Sys2Proof/Machine/HostAccess.lean ====
section
/-! DEFINITION. The host-access commands (42_host_access.md R210 to R216). -/

namespace Sys2Proof.Machine

/-- NOP (R210): a response and nothing else. -/
def execNop (s : State) : Result := .next (s.respond 0)

/-- BLK.WR (R211): physical channels, so CH_INV does not apply; the word is stored bit for bit. -/
def execBlkWr (ch : BitVec 8) (idx : BitVec 16) (value : Word) (s : State) : Result :=
  if s.blkHas (chanNat ch) (indexNat idx) then .next ((s.blkWrite (chanNat ch) (indexNat idx) value).respond 0)
  else .next (s.raise (.blkWr ch idx value) .arg)

/-- BLK.RD (R212). -/
def execBlkRd (ch : BitVec 8) (idx : BitVec 16) (s : State) : Result :=
  if s.blkHas (chanNat ch) (indexNat idx) then .next (s.respond (s.blkRead (chanNat ch) (indexNat idx)))
  else .next (s.raise (.blkRd ch idx) .arg)

/-- REG.RD (R213): a selector that is not in the table raises ILLEGAL (R87). -/
def execRegRd (sel : BitVec 16) (s : State) : Result :=
  match s.register (indexNat sel) with
  | some v => .next (s.respond v)
  | none => .next (s.raise (.regRd sel) .illegal)

/-- RB.GETWC (R214). -/
def execRbGetwc (ch : BitVec 8) (s : State) : Result :=
  let c := chanNat ch
  if s.valid c then .next (s.respond (wordOfNat (s.wcurAt c)))
  else .next ((s.warn .chInv).respond 0)

/-- RB.GETRC (R215). -/
def execRbGetrc (ch : BitVec 8) (s : State) : Result :=
  let c := chanNat ch
  if s.valid c then .next (s.respond (wordOfNat (s.rcurAt c)))
  else .next ((s.warn .chInv).respond 0)

/-- STAT.CLR (R216): clears the warning bits; the error bits and ERR_CMD stay. -/
def execStatClr (s : State) : Result := .next (s.clearWarningBits.respond 0)

end Sys2Proof.Machine
end

