-- ==== Sys2Proof/Machine/RingBuffer.lean ====
section
/-! DEFINITION. The ring-buffer commands (40_ring_buffer.md R112 to R119). -/

namespace Sys2Proof.Machine

/-- RB.WRITE (R112): the word is stored bit for bit, then WCUR advances; RCUR does not move. -/
def execRbWrite (ch : BitVec 8) (sample : Word) (s : State) : Result :=
  let c := chanNat ch
  if s.valid c then
    match s.checkSlots c [s.wcurAt c] with
    | .beyondAlloc => .next (s.raise (.rbWrite ch sample) .access)
    | .absent => .fault .storeAbsent
    | .inside => .next (((s.storeWrite c (s.wcurAt c) sample).setWcur c (s.adv (s.wcurAt c))).respond 0)
  else .next ((s.warn .chInv).respond 0)

/-- RB.READ (R113): read, then advance RCUR; WCUR does not move; an invalid channel responds ZERO. -/
def execRbRead (ch : BitVec 8) (s : State) : Result :=
  let c := chanNat ch
  if s.valid c then
    match s.checkSlots c [s.rcurAt c] with
    | .beyondAlloc => .next (s.raise (.rbRead ch) .access)
    | .absent => .fault .storeAbsent
    | .inside => .next ((s.setRcur c (s.adv (s.rcurAt c))).respond (s.storeRead c (s.rcurAt c)))
  else .next ((s.warn .chInv).respond s.hw.numFmt.zero)

/-- RB.SETRP (R114): the channel is checked before the lag; a BAD lag raises ARG; no STORE access. -/
def execRbSetrp (ch : BitVec 8) (lagSamples : Word) (s : State) : Result :=
  let c := chanNat ch
  if s.valid c then
    match lagInt s.hw.numFmt lagSamples with
    | none => .next (s.raise (.rbSetrp ch lagSamples) .arg)
    | some lag => .next ((s.setRcur c (s.lagSlot c lag)).respond 0)
  else .next ((s.warn .chInv).respond 0)

/-- RB.RESET (R115). -/
def execRbReset (s : State) : Result := .next (s.clearBuffer.respond 0)

/-- RB.RESIZE (R116). -/
def execRbResize (newCapacity : Word) (s : State) : Result :=
  if intInRange 1 s.hw.capMax newCapacity then .next ((s.allocate (uint newCapacity)).respond 0)
  else .next (s.raise (.rbResize newCapacity) .arg)

/-- RB.GETCAP (R117): the capacity field. -/
def execRbGetcap (s : State) : Result := .next (s.respond s.capacity)

/-- RB.SETCAPF (R118): the capacity field only; ALLOC, STORE and the cursors do not change. -/
def execRbSetcapf (capacity : Word) (s : State) : Result :=
  if intInRange 1 (2 ^ 24) capacity then .next ((s.setCapacity capacity).respond 0)
  else .next (s.raise (.rbSetcapf capacity) .arg)

/-- RB.STEP (R119): the feedback argument is used as given; an invalid channel responds ZERO. -/
def execRbStep (ch : BitVec 8) (input feedback : Word) (s : State) : Result :=
  let c := chanNat ch
  if s.valid c then
    match combStep c input feedback s with
    | .stepped y s' => .next (s'.respond y)
    | .access => .next (s.raise (.rbStep ch input feedback) .access)
    | .absent => .fault .storeAbsent
  else .next ((s.warn .chInv).respond s.hw.numFmt.zero)

end Sys2Proof.Machine
end

