-- ==== Sys2Proof/Machine/Dispatch.lean ====
section
/-! DEFINITION. One arm per constructor of `Instr`: the meaning of each command. -/

namespace Sys2Proof.Machine

def exec (i : Instr) (s : State) : Host.Outcome State Fault Refusal :=
  match i with
  | .nop => Sys2Proof.Machine.execNop s
  | .init maxDelaySamples channels => Sys2Proof.Machine.execInit maxDelaySamples channels s
  | .rbWrite ch sample => Sys2Proof.Machine.execRbWrite ch sample s
  | .rbRead ch => Sys2Proof.Machine.execRbRead ch s
  | .rbSetrp ch lagSamples => Sys2Proof.Machine.execRbSetrp ch lagSamples s
  | .rbReset => Sys2Proof.Machine.execRbReset s
  | .rbResize newCapacity => Sys2Proof.Machine.execRbResize newCapacity s
  | .rbGetcap => Sys2Proof.Machine.execRbGetcap s
  | .rbSetcapf capacity => Sys2Proof.Machine.execRbSetcapf capacity s
  | .rbStep ch input feedback => Sys2Proof.Machine.execRbStep ch input feedback s
  | .rbGetwc ch => Sys2Proof.Machine.execRbGetwc ch s
  | .rbGetrc ch => Sys2Proof.Machine.execRbGetrc ch s
  | .deReset sampleRate delayTimeMs => Sys2Proof.Machine.execDeReset sampleRate delayTimeMs s
  | .deSetdly delayTimeMs sampleRate => Sys2Proof.Machine.execDeSetdly delayTimeMs sampleRate s
  | .deSetfb value => Sys2Proof.Machine.execDeSetfb value s
  | .deSetmix value => Sys2Proof.Machine.execDeSetmix value s
  | .deMixstep ch input => Sys2Proof.Machine.execDeMixstep ch input s
  | .deProcess channelCount sampleCount => Sys2Proof.Machine.execDeProcess channelCount sampleCount s
  | .blkWr ch idx value => Sys2Proof.Machine.execBlkWr ch idx value s
  | .blkRd ch idx => Sys2Proof.Machine.execBlkRd ch idx s
  | .regRd sel => Sys2Proof.Machine.execRegRd sel s
  | .statClr => Sys2Proof.Machine.execStatClr s

end Sys2Proof.Machine
end

