-- ==== Sys2Proof/Machine/Issue.lean ====
section
/-! DEFINITION. What becomes of a command that has transferred on the command port: decoding, then its meaning or ILLEGAL
(30_encoding.md R85, R88), and how the host places one. -/

namespace Sys2Proof.Machine

/-- Run one command whole: the one atomic step of 20_memory.md R68. Every word that does not decode raises ILLEGAL and
changes nothing but STATUS and ERR_CMD (R85). -/
def runCommand (c : Command) (s : State) : Result :=
  match decode c with
  | .ok i => exec i s
  | .error _ => .next (s.raiseWord c.cmd .illegal)

/-- The state whose next port event is the command with the given bits, CMD first (log 2). -/
def State.offerBits (s : State) (nbits w : Nat) : State :=
  { s with input := .command (commandOfBits nbits w) :: s.input }

end Sys2Proof.Machine
end

