-- ==== Sys2Proof/Machine/Step.lean ====
section
/-! DEFINITION. One step of the untimed machine: the next port event, whole (20_memory.md R66, R68). -/

namespace Sys2Proof.Machine

/-- A command is one atomic step from state to state and response (R68); hardware reset is one step
(70_reset_and_hazards.md R270); while nothing arrives the state holds unchanged (60_exceptions.md R252). -/
def step (s : State) : Host.Outcome State Fault Refusal :=
  match s.takeEvent with
  | none => .next s
  | some (.command c, s') => runCommand c s'
  | some (.reset _, s') => .next s'.hardwareReset

/-- `s` with the command of the given bits as the next event of the command port, so that the very next step runs it. -/
def State.withFetchWord (s : State) (nbits w : Nat) : State := s.offerBits nbits w

end Sys2Proof.Machine
end

