-- ==== Sys2Proof/Machine/Asm.lean ====
section
/-! DEFINITION. The assembler of 30_encoding.md R90 and its pseudo-instructions (R91): from one line of text to the
commands it stands for. A line the syntax does not admit gives `none` (log 14). -/

namespace Sys2Proof.Machine

/-! ### Characters and fields -/

/-- Spaces and tabs separate. -/
def isBlank (c : Char) : Bool := c == ' ' || c == '\t'

/-- A field without the blanks around it. -/
def trimChars (l : List Char) : List Char := ((l.dropWhile isBlank).reverse.dropWhile isBlank).reverse

/-- The fields of a list between the commas. -/
def splitCommas : List Char → List (List Char)
  | [] => [[]]
  | c :: l =>
    if c == ',' then [] :: splitCommas l
    else
      match splitCommas l with
      | [] => [[c]]
      | f :: fs => (c :: f) :: fs

/-- The value of a decimal digit. -/
def decDigit (c : Char) : Option Nat :=
  if '0'.toNat ≤ c.toNat ∧ c.toNat ≤ '9'.toNat then some (c.toNat - '0'.toNat) else none

/-- The value of a hexadecimal digit. -/
def hexDigit (c : Char) : Option Nat :=
  if 'a'.toNat ≤ c.toNat ∧ c.toNat ≤ 'f'.toNat then some (c.toNat - 'a'.toNat + 10)
  else if 'A'.toNat ≤ c.toNat ∧ c.toNat ≤ 'F'.toNat then some (c.toNat - 'A'.toNat + 10)
  else decDigit c

/-- Digits read onto an accumulator. -/
def readDigits (base : Nat) (digit : Char → Option Nat) : Nat → List Char → Option Nat
  | acc, [] => some acc
  | acc, c :: l => (digit c).bind (fun d => readDigits base digit (acc * base + d) l)

/-- A nonempty digit string. -/
def readNat (base : Nat) (digit : Char → Option Nat) (l : List Char) : Option Nat :=
  if l.isEmpty then none else readDigits base digit 0 l

/-- An unsigned literal, decimal or `0x` hexadecimal. -/
def readUnsigned (l : List Char) : Option Nat :=
  match l with
  | '0' :: 'x' :: h => readNat 16 hexDigit h
  | _ => readNat 10 decDigit l

/-- A sign, if there is one, and the rest. -/
def readSign (l : List Char) : Bool × List Char :=
  match l with
  | '-' :: r => (true, r)
  | '+' :: r => (false, r)
  | _ => (false, l)

/-- An integer literal, decimal or `0x` hexadecimal (R90). DESIGN CHOICE (log 14): a sign may stand before either. -/
def readInt (l : List Char) : Option Int :=
  let (neg, r) := readSign l
  (readUnsigned r).map (fun n => if neg then -(n : Int) else (n : Int))

/-- A decimal integer literal with optional sign. -/
def readDecimalInt (l : List Char) : Option Int :=
  let (neg, r) := readSign l
  (readNat 10 decDigit r).map (fun n => if neg then -(n : Int) else (n : Int))

/-- A decimal literal with optional sign, point and exponent, as sign, numerator and denominator. DESIGN CHOICE (log 14):
the exponent is `e` or `E` and a decimal integer with optional sign, and digits may be left out on one side of the point
but not on both. -/
def readDecimal (l : List Char) : Option (Bool × Nat × Nat) :=
  let (neg, r) := readSign l
  let isE := fun c => c == 'e' || c == 'E'
  let mant := r.takeWhile (fun c => !isE c)
  let expo := (r.dropWhile (fun c => !isE c)).drop 1
  let whole := mant.takeWhile (fun c => c != '.')
  let frac := (mant.dropWhile (fun c => c != '.')).drop 1
  let hasExp := r.any isE
  match readNat 10 decDigit (whole ++ frac), (if hasExp then readDecimalInt expo else some 0) with
  | some m, some x =>
    let scale : Int := x - frac.length
    some (neg, m * 10 ^ scale.toNat, 10 ^ (-scale).toNat)
  | _, _ => none

/-! ### Operands (R90) -/

/-- The raw word form `w:0x........`. -/
def readRawWord (l : List Char) : Option Word :=
  match l with
  | 'w' :: ':' :: '0' :: 'x' :: h => if h.length = 8 then (readNat 16 hexDigit h).map wordOfNat else none
  | _ => none

/-- The word of a decimal value in NUMFMT: F32 to the nearest binary32, ties to even; Q8_24 to the nearest multiple of
2^-24, ties away from zero, which must fit in 32 bits. -/
def decimalWord (fmt : NumFmt) (neg : Bool) (num den : Nat) : Option Word :=
  match fmt with
  | .f32 => some (f32Round neg (num * 2 ^ 149) den)
  | .q824 =>
    let mag : Nat := (2 * (num * 2 ^ 24) + den) / (2 * den)
    if mag < 2 ^ 31 ∨ (neg = true ∧ mag = 2 ^ 31) then some (wordOfInt (if neg then -(mag : Int) else (mag : Int)))
    else none

/-- A `sample` argument: a raw word, a decimal literal, or in F32 `nan`, `inf` or `-inf`. -/
def readSample (fmt : NumFmt) (l : List Char) : Option Word :=
  if fmt = .f32 ∧ l = "nan".toList then some 0x7FC00000
  else if fmt = .f32 ∧ l = "inf".toList then some 0x7F800000
  else if fmt = .f32 ∧ l = "-inf".toList then some 0xFF800000
  else
    match readRawWord l with
    | some w => some w
    | none => (readDecimal l).bind (fun (neg, num, den) => decimalWord fmt neg num den)

/-- An `int` argument: an integer literal giving `sint(ARGn)`. -/
def readIntWord (l : List Char) : Option Word :=
  (readInt l).bind (fun z => if -(2 ^ 31) ≤ z ∧ z < 2 ^ 31 then some (wordOfInt z) else none)

/-- A `lag` argument: as a sample in F32, an integer given as is (or a raw word) in Q8_24. DESIGN CHOICE (log 14): that
integer is a literal of the `int` form, decimal or `0x` with optional sign, and has no point or exponent. -/
def readLag (fmt : NumFmt) (l : List Char) : Option Word :=
  match fmt with
  | .f32 => readSample .f32 l
  | .q824 => match readRawWord l with | some w => some w | none => readIntWord l

/-- `cN`, c0 to c255. -/
def readChannel (l : List Char) : Option (BitVec 8) :=
  match l with
  | 'c' :: d => (readNat 10 decDigit d).bind (fun n => if n ≤ 255 then some (BitVec.ofNat 8 n) else none)
  | _ => none

/-- The selector names of 42_host_access.md R213. -/
def selectorNames : List (String × Nat) :=
  [("STATUS", 0), ("CAPACITY", 1), ("ALLOC", 2), ("CHANNELS", 3), ("FEEDBACK", 4), ("MIX", 5), ("DELAY_SAMPLES", 6),
    ("ERR_CMD", 7), ("HW_NUMFMT", 8), ("HW_NCH_MAX", 9), ("HW_CAP_MAX", 10), ("HW_BLK_MAX", 11), ("HW_ID", 12)]

/-- `#IDX`: a literal, or for a selector its name. -/
def readIndex (named : Bool) (l : List Char) : Option Nat :=
  match l with
  | '#' :: d =>
    match (if named then selectorNames.find? (fun e => e.1.toList == d) else none) with
    | some e => some e.2
    | none => readUnsigned d
  | _ => none

/-- An index that the IDX field can carry. -/
def indexField (n : Nat) : Option (BitVec 16) := if n < 2 ^ 16 then some (BitVec.ofNat 16 n) else none

/-! ### Lines -/

/-- The argument types of R84's ARG columns. -/
inductive ArgType where
  | int | sample | lag
  deriving DecidableEq, Repr

/-- The mnemonic of R84. -/
def opcodeMnemonic : Opcode → String
  | .nop => "NOP"
  | .init => "INIT"
  | .rbWrite => "RB.WRITE"
  | .rbRead => "RB.READ"
  | .rbSetrp => "RB.SETRP"
  | .rbReset => "RB.RESET"
  | .rbResize => "RB.RESIZE"
  | .rbGetcap => "RB.GETCAP"
  | .rbSetcapf => "RB.SETCAPF"
  | .rbStep => "RB.STEP"
  | .rbGetwc => "RB.GETWC"
  | .rbGetrc => "RB.GETRC"
  | .deReset => "DE.RESET"
  | .deSetdly => "DE.SETDLY"
  | .deSetfb => "DE.SETFB"
  | .deSetmix => "DE.SETMIX"
  | .deMixstep => "DE.MIXSTEP"
  | .deProcess => "DE.PROCESS"
  | .blkWr => "BLK.WR"
  | .blkRd => "BLK.RD"
  | .regRd => "REG.RD"
  | .statClr => "STAT.CLR"

/-- The arguments of R84's table, in order. -/
def opcodeArgs : Opcode → List ArgType
  | .nop | .rbRead | .rbReset | .rbGetcap | .rbGetwc | .rbGetrc | .blkRd | .regRd | .statClr => []
  | .init | .deReset | .deSetdly | .deProcess => [.int, .int]
  | .rbResize | .rbSetcapf => [.int]
  | .rbWrite | .deSetfb | .deSetmix | .deMixstep | .blkWr => [.sample]
  | .rbSetrp => [.lag]
  | .rbStep => [.sample, .sample]

/-- One argument of its type. -/
def readArg (fmt : NumFmt) (t : ArgType) (l : List Char) : Option Word :=
  match t with
  | .int => readIntWord l
  | .sample => readSample fmt l
  | .lag => readLag fmt l

/-- The arguments from the fields that remain; those omitted encode as zero, and no field may be left over. -/
def readArgs (fmt : NumFmt) : List ArgType → List (List Char) → Option (List Word)
  | _, [] => some []
  | [], _ :: _ => none
  | t :: ts, f :: fs => (readArg fmt t f).bind (fun w => (readArgs fmt ts fs).map (fun ws => w :: ws))

/-- The channel, if the row takes one and it is written; omitted it encodes as 0. -/
def takeChannel (takes : Bool) (fields : List (List Char)) : Option (BitVec 8 × List (List Char)) :=
  match takes, fields with
  | true, ('c' :: d) :: fs => (readChannel ('c' :: d)).map (fun ch => (ch, fs))
  | _, fs => some (0, fs)

/-- The index or selector, as for the channel. -/
def takeIndex (takes named : Bool) (fields : List (List Char)) : Option (Nat × List (List Char)) :=
  match takes, fields with
  | true, ('#' :: d) :: fs => (readIndex named ('#' :: d)).map (fun n => (n, fs))
  | _, fs => some (0, fs)

/-- A line of one command of R84. -/
def assembleCommand (fmt : NumFmt) (o : Opcode) (fields : List (List Char)) : Option (List Command) :=
  (takeChannel o.takesChannel fields).bind fun (ch, fs) =>
    (takeIndex o.takesIndex (o == .regRd) fs).bind fun (n, gs) =>
      (indexField n).bind fun idx =>
        (readArgs fmt (opcodeArgs o) gs).map fun ws =>
          [{ cmd := packCmd o.code ch idx, arg0 := ws.getD 0 0, arg1 := ws.getD 1 0 }]

/-- `RB.SETLAG cN, n`: `RB.SETRP cN` with the word of the integer lag `n` (R91). -/
def expandSetlag (fmt : NumFmt) (ch : BitVec 8) (n : Nat) : Option (List Instr) :=
  match fmt with
  | .f32 => if n ≤ 2 ^ 24 then some [.rbSetrp ch (f32Round false (n * 2 ^ 149) 1)] else none
  | .q824 => if n < 2 ^ 31 then some [.rbSetrp ch (wordOfNat n)] else none

/-- `BLK.FILL cN, #i, v0, ..., vk`: one BLK.WR per value, at rising indices (R91). -/
def expandFill (ch : BitVec 8) : Nat → List Word → Option (List Instr)
  | _, [] => some []
  | i, v :: vs => (indexField i).bind fun idx => (expandFill ch (i + 1) vs).map fun is => .blkWr ch idx v :: is

/-- `BLK.DUMP cN, #i, n`: `n` BLK.RD at rising indices (R91). -/
def expandDump (ch : BitVec 8) : Nat → Nat → Option (List Instr)
  | _, 0 => some []
  | i, n + 1 => (indexField i).bind fun idx => (expandDump ch (i + 1) n).map fun is => .blkRd ch idx :: is

/-- The value of every field as a sample. -/
def readSamples (fmt : NumFmt) : List (List Char) → Option (List Word)
  | [] => some []
  | f :: fs => (readSample fmt f).bind (fun w => (readSamples fmt fs).map (fun ws => w :: ws))

/-- A line of one pseudo-instruction of R91. -/
def assemblePseudo (fmt : NumFmt) (name : List Char) (fields : List (List Char)) : Option (List Command) :=
  let expanded : Option (List Instr) :=
    match fields with
    | chF :: fs =>
      (readChannel chF).bind fun ch =>
        if name = "RB.SETLAG".toList then
          match fs with
          | [nF] => (readUnsigned nF).bind (expandSetlag fmt ch)
          | _ => none
        else
          match fs with
          | iF :: v :: vs =>
            (readIndex false iF).bind fun i =>
              if name = "BLK.FILL".toList then (readSamples fmt (v :: vs)).bind (expandFill ch i)
              else if name = "BLK.DUMP".toList ∧ vs = [] then (readUnsigned v).bind (expandDump ch i)
              else none
          | _ => none
    | [] => none
  expanded.map (fun is => is.map encode)

/-- One line of assembly to the commands it stands for: `MNEMONIC [cN] [, #IDX] [, ARG0 [, ARG1]] ; comment` (R90), or a
pseudo-instruction (R91). A line with nothing but blanks and a comment stands for none. -/
def assembleLine (fmt : NumFmt) (line : String) : Option (List Command) :=
  let code := trimChars (line.toList.takeWhile (fun c => c != ';'))
  let name := code.takeWhile (fun c => !isBlank c)
  let rest := trimChars (code.dropWhile (fun c => !isBlank c))
  let fields := if rest.isEmpty then [] else (splitCommas rest).map trimChars
  if code.isEmpty then some []
  else
    match Opcode.rows.find? (fun o => (opcodeMnemonic o).toList == name) with
    | some o => assembleCommand fmt o fields
    | none => assemblePseudo fmt name fields

end Sys2Proof.Machine
end

