-- ==== Sys2Proof/Machine/Port.lean ====
section
/-! DEFINITION. The clocked ports of 30_encoding.md R80 around the untimed machine: one call of `portEdge` is one rising
edge of `clk`. The handshake state is state of this timed machine only (10_state.md R47); how long a command or a reset
takes is an input, down to a response that is offered right after the edge of the command's transfer
(70_reset_and_hazards.md R283; log 11). -/

namespace Sys2Proof.Machine

/-- What the inputs are at a rising edge (R80). -/
structure PortInputs where
  /-- `rst_n`. -/
  rstN : Bool
  /-- `cmd_valid`. -/
  cmdValid : Bool
  /-- `cmd_word`, `cmd_arg0`, `cmd_arg1`. -/
  cmd : Command
  /-- `rsp_ready`. -/
  rspReady : Bool
  /-- Whether the engine's work in hand (a command, one that transfers at this very edge included, or the zeroing of a
  reset) is over by this edge: the time is implementation-defined and finite (R270, R283), so it is left to the caller. -/
  workDone : Bool
  deriving DecidableEq, Repr

/-- The handshake state. -/
inductive Phase where
  /-- Reset is held, or is being carried out: neither port moves (R270). -/
  | resetting
  /-- A command can be accepted. -/
  | ready
  /-- A command is being executed. -/
  | busy (c : Command)
  /-- The command `c` has left the state `after`, and its response waits to be taken. -/
  | responding (c : Command) (after : State) (rsp : Response)
  deriving DecidableEq, Repr

/-- The timed machine: the untimed state as every earlier command has left it (20_memory.md R69), the handshake, and what
the host is bound to hold. -/
structure PortState where
  /-- The untimed machine's state. -/
  core : State
  /-- The handshake. -/
  phase : Phase
  /-- The command that was offered at the last edge and did not transfer: the host holds it (R80). -/
  waiting : Option Command
  deriving DecidableEq, Repr

/-- `cmd_ready` (R80): 0 from the transfer of a command until the transfer of its response, and during reset. -/
def cmdReady (p : PortState) : Bool :=
  match p.phase with
  | .ready => true
  | .resetting | .busy _ | .responding .. => false

/-- The response port: `rsp_valid` with `rsp_data` and `rsp_err` (R80), or `none` while `rsp_valid` is 0. -/
def rspOffered (p : PortState) : Option Response :=
  match p.phase with
  | .responding _ _ r => some r
  | .resetting | .ready | .busy _ => none

/-- A command transfers at this edge (R80). -/
def cmdTransfers (p : PortState) (x : PortInputs) : Bool := x.rstN && x.cmdValid && cmdReady p

/-- A response transfers at this edge (R80). -/
def rspTransfers (p : PortState) (x : PortInputs) : Bool := x.rstN && x.rspReady && (rspOffered p).isSome

/-- The command in SDRB: transferred, its response not (R80: at most one). -/
def inHand (p : PortState) : Option Command :=
  match p.phase with
  | .busy c | .responding c .. => some c
  | .resetting | .ready => none

/-- The host's duty (R80, 60_exceptions.md R251): a command that waits to be accepted stays offered and unchanged. -/
def hostHolds (p : PortState) (x : PortInputs) : Bool :=
  match p.waiting with
  | some c => x.cmdValid && x.cmd == c
  | none => true

/-- The command that waits after this edge. -/
def waitingAfter (p : PortState) (x : PortInputs) : Option Command :=
  if x.cmdValid && !cmdTransfers p x then some x.cmd else none

/-- The command is over: its effects and its one response. -/
def portFinish (core : State) (c : Command) : Host.Outcome (State × Phase) Fault Refusal :=
  match runCommand c core with
  | .next after =>
    match after.output.getLast? with
    | some r => .next (core, .responding c after r)
    | none => .next (after, .ready)
  | .fault f => .fault f
  | .refused r => .refused r

/-- A command in hand at an edge: over, or still being executed. -/
def portWork (done : Bool) (core : State) (c : Command) : Host.Outcome (State × Phase) Fault Refusal :=
  if done then portFinish core c else .next (core, .busy c)

/-- What SDRB does at an edge. Reset is sampled first and abandons whatever is in hand (R272); a command's effects count
as complete at the transfer of its response (20_memory.md R69). DESIGN CHOICE (log 11): `cmd_ready` is 1 right after that
transfer. -/
def portMove (x : PortInputs) (p : PortState) : Host.Outcome (State × Phase) Fault Refusal :=
  if !x.rstN then .next (p.core, .resetting)
  else
    match p.phase with
    | .resetting => .next (if x.workDone then (p.core.hardwareReset, .ready) else (p.core, .resetting))
    | .ready => if x.cmdValid then portWork x.workDone p.core x.cmd else .next (p.core, .ready)
    | .busy c => portWork x.workDone p.core c
    | .responding c after r => .next (if x.rspReady then (after, .ready) else (p.core, .responding c after r))

/-- One rising edge of `clk`. A host that withdraws or changes a waiting command has no move (R251). -/
def portEdge (x : PortInputs) (p : PortState) : Host.Outcome PortState Fault Refusal :=
  if hostHolds p x then
    match portMove x p with
    | .next (core, phase) => .next { core := core, phase := phase, waiting := waitingAfter p x }
    | .fault f => .fault f
    | .refused r => .refused r
  else .refused .hostMove

/-- The timed machine right after reset. -/
def PortState.reset : PortState := { core := State.reset, phase := .ready, waiting := none }

end Sys2Proof.Machine
end

