-- ==== Sys2Proof/Safety.lean ====
section
/-! DEFINITION. What counts as a good state and a good run: the invariants of 10_state.md R39, R41, R45 and R46, in the
terms the statements use. -/

namespace Sys2Proof.Machine

/-- A gain or ratio register holds a value in [0, 1]; in F32 it is no NaN and not -0.0 (R39). -/
def unitWord (fmt : NumFmt) (v : Word) : Bool :=
  match fmt with
  | .f32 => !f32IsNaN v && v != 0x80000000 && !f32Below0 v && !f32Above1 v
  | .q824 => decide (0 ≤ sint v ∧ sint v ≤ 2 ^ 24)

/-- The STATUS bits of R41; every other bit reads 0. -/
def statusMask : Word := 0x0000070F

/-- What holds in every reachable state (R45), with the parameters legal (R5), HW_ID its constant (R44), the unlisted
STATUS bits 0 (R41), the cursor files as long as the instance has channels (R36) and both memories in canonical form. -/
structure State.Inv (s : State) : Prop where
  legal : s.hw.Legal
  hwId : s.hwId = hwIdWord
  channels : 1 ≤ uint s.channels ∧ uint s.channels ≤ s.hw.nchMax
  capacity : 1 ≤ uint s.capacity ∧ uint s.capacity ≤ 2 ^ 24
  alloc : 1 ≤ uint s.alloc ∧ uint s.alloc ≤ s.hw.capMax
  wcurLength : s.wcur.length = s.hw.nchMax
  rcurLength : s.rcur.length = s.hw.nchMax
  wcurRange : ∀ w ∈ s.wcur, uint w < 2 ^ 24
  rcurRange : ∀ w ∈ s.rcur, uint w < 2 ^ 24
  feedback : unitWord s.hw.numFmt s.feedback = true
  mix : unitWord s.hw.numFmt s.mix = true
  delaySamples : uint s.delaySamples ≤ 2 ^ 24
  status : s.status &&& ~~~statusMask = 0
  store : s.store.wf
  blk : s.blk.wf

/-- A regular state (R46): CAPACITY = ALLOC, and both cursors of every physical channel are below CAPACITY. -/
structure State.Regular (s : State) : Prop where
  capacityIsAlloc : s.capacity = s.alloc
  cursors : ∀ c, c < s.hw.nchMax → s.wcurAt c < uint s.capacity ∧ s.rcurAt c < uint s.capacity

/-- STATUS bit `n` is set. -/
def State.statusBit (s : State) (n : Nat) : Bool := s.status.getLsbD n

/-- The lag `L' = (WCUR[c] - RCUR[c]) mod CAPACITY` of a channel (40_ring_buffer.md R120). -/
def State.lagOf (s : State) (c : Nat) : Nat := lagPosition (uint s.capacity) (s.wcurAt c) (s.rcurAt c)

/-- The response a command has just given: the last one transferred. -/
def State.lastResponse (s : State) : Option Response := s.output.getLast?

/-- The handshake's own invariant: a response on offer is the one that the command in hand has added. -/
def PortState.Inv (p : PortState) : Prop :=
  match p.phase with
  | .responding c after r => runCommand c p.core = .next after ∧ after.output = p.core.output ++ [r]
  | .resetting | .ready | .busy _ => True

/-! ### What a command did, as the statements say it -/

/-- The command gave exactly one response, DATA `d` and ERR `e` (R83, R68). -/
def Answered (s t : State) (d : Word) (e : Bool) : Prop := t.output = s.output ++ [{ data := d, err := e }]

/-- The STATUS bits of `bits` are set and every other STATUS bit is as it was (R41). -/
def StatusSet (s t : State) (bits : List Nat) : Prop :=
  ∀ k, k < 32 → t.status.getLsbD k = (s.status.getLsbD k || bits.contains k)

/-- The command `cmd` raised the error with STATUS bit `bit` and did nothing else (R243): the bit is set, ERR_CMD takes
the command word if no error bit was set, the response is DATA 0, ERR 1, and all other state is as it was. -/
def Raised (s t : State) (cmd : Word) (bit : Nat) : Prop :=
  StatusSet s t [bit] ∧
    t.errCmd = (if s.status.getLsbD 8 || s.status.getLsbD 9 || s.status.getLsbD 10 then s.errCmd else cmd) ∧
    Answered s t 0 true ∧
    { t with status := s.status, errCmd := s.errCmd, output := s.output } = s

/-- The command found its channel invalid (40_ring_buffer.md R110): it set CH_INV, responded `d` with ERR 0, and did
nothing else. -/
def ChannelIgnored (s t : State) (d : Word) : Prop :=
  StatusSet s t [0] ∧ Answered s t d false ∧ { t with status := s.status, output := s.output } = s

/-- STORE is as it was but for the word `v` at channel `c`, slot `p`. -/
def StoreSetAt (s t : State) (c p : Nat) (v : Word) : Prop :=
  ∀ d q, q < 2 ^ 32 → t.storeRead d q = if d = c ∧ q = p then v else s.storeRead d q

/-- BLK is as it was but for the word `v` at channel `c`, index `i`. -/
def BlkSetAt (s t : State) (c i : Nat) (v : Word) : Prop :=
  ∀ d j, j < 2 ^ 32 → t.blkRead d j = if d = c ∧ j = i then v else s.blkRead d j

/-- WCUR is as it was but for the value `p` at channel `c`. -/
def WcurSetAt (s t : State) (c p : Nat) : Prop := ∀ d, t.wcurAt d = if d = c then p else s.wcurAt d

/-- RCUR is as it was but for the value `p` at channel `c`. -/
def RcurSetAt (s t : State) (c p : Nat) : Prop := ∀ d, t.rcurAt d = if d = c then p else s.rcurAt d

/-- Every STORE word reads ZERO and every cursor 0 (40_ring_buffer.md R115). -/
def BufferCleared (t : State) : Prop :=
  (∀ c p, t.storeRead c p = t.hw.numFmt.zero) ∧ ∀ c, t.wcurAt c = 0 ∧ t.rcurAt c = 0

/-- A command word is one of R84's rows: its OPC, with CH and IDX 0 where the row says so, and REG.RD's selector in its
table (R86, R87). -/
def MatchesRow (o : Opcode) (w : Word) : Prop :=
  opcField w = o.code ∧ (o.takesChannel = false → chField w = 0) ∧ (o.takesIndex = false → idxField w = 0) ∧
    (o = .regRd → (idxField w).toNat ≤ 0x000C)

/-- The command word `w`, with any argument words, decodes to the command `i` of those argument words: a row's encoding
(R84), in which an argument word the command does not use is ignored (R82). -/
def EncodedAs (w : Word) (i : Word → Word → Instr) : Prop :=
  ∀ a0 a1 : Word, decode { cmd := w, arg0 := a0, arg1 := a1 } = .ok (i a0 a1)

/-! ### Values of binary32 words -/

/-- A finite binary32 word (00_scope.md R10). -/
def f32Finite (w : Word) : Bool := f32Exp w != 255

/-- The value of a finite binary32 word, as R10 gives it. -/
def f32Value (w : Word) : ℚ :=
  (if f32Sign w then -1 else 1) *
    (if f32Exp w = 0 then (f32Frac w : ℚ) / 2 ^ 149 else (1 + (f32Frac w : ℚ) / 2 ^ 23) * 2 ^ ((f32Exp w : ℤ) - 127))

/-- The binary32 infinity with sign bit `s` (R10). -/
def infinity (s : Bool) : Word := if s then 0xFF800000 else 0x7F800000

/-- `r` is the exact value `v` rounded by roundTiesToEven (R11): the infinity of `v`'s sign when `v` is at or beyond the
midpoint between the largest finite magnitude and 2^128; otherwise a finite word nearest to `v`, and, of two nearest, one
with an even fraction. -/
def RoundsTo (v : ℚ) (r : Word) : Prop :=
  if (2 ^ 25 - 1 : ℚ) * 2 ^ 103 ≤ |v| then r = (if v < 0 then 0xFF800000 else 0x7F800000)
  else f32Finite r = true ∧
    ∀ w, f32Finite w = true →
      |v - f32Value r| ≤ |v - f32Value w| ∧
        (|v - f32Value r| = |v - f32Value w| → f32Value w ≠ f32Value r → f32Frac r % 2 = 0)

/-! ### Runs of commands -/

/-- The responses of RB.STEP on one channel with one feedback for a list of inputs, and the state after; `none` if a
response has ERR 1 or a step stops. -/
def stepAll (ch : BitVec 8) (f : Word) : List Word → State → Option (List Word × State)
  | [], s => some ([], s)
  | x :: xs, s =>
    match exec (.rbStep ch x f) s with
    | .next t =>
      match t.lastResponse with
      | some r => if r.err then none else (stepAll ch f xs t).map (fun (ys, u) => (r.data :: ys, u))
      | none => none
    | .fault _ => none
    | .refused _ => none

/-- The responses of `n` RB.READ on one channel, as for `stepAll`. -/
def readAll (ch : BitVec 8) : Nat → State → Option (List Word × State)
  | 0, s => some ([], s)
  | n + 1, s =>
    match exec (.rbRead ch) s with
    | .next t =>
      match t.lastResponse with
      | some r => if r.err then none else (readAll ch n t).map (fun (ys, u) => (r.data :: ys, u))
      | none => none
    | .fault _ => none
    | .refused _ => none

/-- DE.MIXSTEP on channel `c` with input BLK[c][i], then its DATA written to BLK[c][i] (41_delay_effect.md R168). -/
def mixThenWrite (c i : Nat) (s : State) : Option State :=
  match exec (.deMixstep (BitVec.ofNat 8 c) (s.blkRead c i)) s with
  | .next t =>
    match t.lastResponse with
    | some r => if r.err then none else some (t.blkWrite c i r.data)
    | none => none
  | .fault _ => none
  | .refused _ => none

/-- `mixThenWrite` over a list of (channel, index) pairs, in order. -/
def mixAll : List (Nat × Nat) → State → Option State
  | [], s => some s
  | (c, i) :: rest, s => (mixThenWrite c i s).bind (mixAll rest)

/-- The pairs DE.PROCESS visits, in its order: channel by channel, index by index (R167). -/
def blockPairs (nc ns : Nat) : List (Nat × Nat) :=
  (List.range nc).flatMap (fun c => (List.range ns).map (fun i => (c, i)))

end Sys2Proof.Machine
end

