-- ==== Sys2Proof/Certificates/Slice0/Obligations.lean ====
section
/-! DEFINITION. The statements for the provers, one `def Obligations.<Name> : Prop` each. Every statement about a command
has as its conclusion that `exec` answers a next state, and says the response, what changes and that nothing else does
(the equation that ends it puts back the fields named before it); where it formalises a command's rule, it says the
encoding first. -/

open Sys2Proof Sys2Proof.Machine

/-! ### Encoding and decoding -/

/-- Every well-formed command survives encoding and decoding, with every operand at every value (R81, R82, R84). -/
def Obligations.DecodeAfterEncode : Prop := ∀ i : Instr, i.wellFormed = true → decode (encode i) = .ok i

/-- A decoded command has the very command word it came from, its used argument words, and zeros for the unused ones. Log
6 (the model recomputes the word that ERR_CMD captures) rests on this. -/
def Obligations.EncodeAfterDecode : Prop :=
  ∀ (c : Command) (i : Instr), decode c = .ok i →
    i.wellFormed = true ∧ (encode i).cmd = c.cmd ∧
      ((encode i).arg0 = c.arg0 ∨ (opcodeArgs i.opcode).length = 0 ∧ (encode i).arg0 = 0) ∧
      ((encode i).arg1 = c.arg1 ∨ (opcodeArgs i.opcode).length ≤ 1 ∧ (encode i).arg1 = 0)

/-- R88: every 96-bit command either matches exactly one row of R84 and executes it, or raises ILLEGAL; which of the two
depends on CMD only. -/
def Obligations.DecodingIsTotal : Prop :=
  ∀ (c : Command) (s : State),
    (∃ o, MatchesRow o c.cmd ∧ (∀ o', MatchesRow o' c.cmd → o' = o) ∧
      runCommand c s = exec (o.instr (chField c.cmd) (idxField c.cmd) c.arg0 c.arg1) s) ∨
    ((∀ o, ¬ MatchesRow o c.cmd) ∧ ∃ t, runCommand c s = .next t ∧ Raised s t c.cmd 8)

/-- R85: the reserved OPC values, as the rule lists them, raise ILLEGAL and change nothing but STATUS and ERR_CMD. -/
def Obligations.ReservedOpcodesRaiseIllegal : Prop :=
  ∀ (c : Command) (s : State),
    let opc := c.cmd.toNat / 2 ^ 24
    (0x02 ≤ opc ∧ opc ≤ 0x0F) ∨ (0x1A ≤ opc ∧ opc ≤ 0x1F) ∨ (0x26 ≤ opc ∧ opc ≤ 0x2F) ∨ (0x32 ≤ opc ∧ opc ≤ 0x3F) ∨
      (0x42 ≤ opc ∧ opc ≤ 0xFF) →
    ∃ t, runCommand c s = .next t ∧ Raised s t c.cmd 8

/-- R86: a nonzero CH or IDX where the row of the opcode says 0 raises ILLEGAL. -/
def Obligations.NonzeroReservedFieldsRaiseIllegal : Prop :=
  ∀ (c : Command) (s : State) (o : Opcode), opcField c.cmd = o.code →
    (o.takesChannel = false ∧ chField c.cmd ≠ 0) ∨ (o.takesIndex = false ∧ idxField c.cmd ≠ 0) →
    ∃ t, runCommand c s = .next t ∧ Raised s t c.cmd 8

/-- R87: a REG.RD selector above 0x000C raises ILLEGAL, as a command word and as a command. -/
def Obligations.ReservedSelectorsRaiseIllegal : Prop :=
  ∀ (sel : BitVec 16) (a0 a1 : Word) (s : State), 0x000C < sel.toNat →
    (∃ t, runCommand { cmd := 0x4000#16 ++ sel, arg0 := a0, arg1 := a1 } s = .next t ∧
      Raised s t (0x4000#16 ++ sel) 8) ∧
    ∃ t, exec (.regRd sel) s = .next t ∧ Raised s t (0x4000#16 ++ sel) 8

/-- A few of the words of 95_test_vectors.md decode to the commands they stand for (one of each family). -/
def Obligations.VectorWordsDecode : Prop :=
  decode { cmd := 0x10FF0000, arg0 := 0x40000000, arg1 := 0 } = .ok (.rbWrite 255 0x40000000) ∧
  decode { cmd := 0x17020000, arg0 := 0x3F800000, arg1 := 0x3F000000 } = .ok (.rbStep 2 0x3F800000 0x3F000000) ∧
  decode { cmd := 0x21000000, arg0 := 0x0000000A, arg1 := 0x000003E8 } = .ok (.deSetdly 10 1000) ∧
  decode { cmd := 0x30010002, arg0 := 0x3F000000, arg1 := 0 } = .ok (.blkWr 1 2 0x3F000000) ∧
  decode { cmd := 0x4000000C, arg0 := 0, arg1 := 0 } = .ok (.regRd 12)

/-! ### The step -/

/-- A step runs the command at the head of the command port: exec of what its words decode to, in the state without it;
words that decode to nothing raise ILLEGAL. That the commands the host will offer stand in a list, whose head the step
takes off, is the model's choice (log 2). -/
def Obligations.StepRunsTheDecodedCommand : Prop :=
  ∀ (s : State) (c : Command) (rest : List PortEvent), s.input = .command c :: rest →
    (∀ i, decode c = .ok i → step s = exec i { s with input := rest }) ∧
    (∀ e, decode c = .error e →
      ∃ t, step s = .next t ∧ Raised { s with input := rest } t c.cmd 8)

/-- With nothing offered the state holds (R252); hardware reset, between commands or abandoning one, gives every piece of
state its reset value, adds no response and keeps the constants (R270 to R272). That an empty list means nothing is
offered, that the list of responses is kept over reset, and that reset is one event and one step are the model's choices
(logs 2, 3 and 7). -/
def Obligations.StepWithoutACommand : Prop :=
  (∀ s : State, s.input = [] → step s = .next s) ∧
  ∀ (s : State) (during : Option Command) (rest : List PortEvent), s.input = .reset during :: rest →
    ∃ t, step s = .next t ∧ t = State.afterReset s.hw rest s.output ∧
      uint t.channels = s.hw.rstNch % 2 ^ 32 ∧ uint t.capacity = s.hw.rstCap % 2 ^ 32 ∧ t.alloc = t.capacity ∧
      BufferCleared t ∧ t.feedback = s.hw.numFmt.half ∧ t.mix = s.hw.numFmt.one ∧ t.delaySamples = 0 ∧ t.status = 0 ∧
      t.errCmd = 0 ∧ (∀ c i, t.blkRead c i = s.hw.numFmt.zero) ∧ t.hw = s.hw

/-- The hardware-reset state of every legal instance satisfies the invariant (R45) and is regular (R46 (a)). -/
def Obligations.ResetSatisfiesInvariant : Prop :=
  (∀ (hw : Params) (inp : List PortEvent) (out : List Response), hw.Legal →
    (State.afterReset hw inp out).Inv ∧ (State.afterReset hw inp out).Regular) ∧
  State.reset.Inv ∧ State.reset.Regular

/-- Every step keeps the invariant (R39, R41, R45 and the canonical form of both memories). -/
def Obligations.StepKeepsInvariant : Prop := ∀ s t : State, s.Inv → step s = .next t → t.Inv

/-- R240: every 96-bit command, legal or not, completes with exactly one response; ERR is 1 only with DATA 0 (R83). -/
def Obligations.EveryCommandCompletesWithOneResponse : Prop :=
  ∀ (c : Command) (s : State), s.Inv →
    ∃ t d e, runCommand c s = .next t ∧ Answered s t d e ∧ (e = true → d = 0) ∧ t.input = s.input

/-- R44, R271: no step changes the configuration registers or the parameters. -/
def Obligations.ConfigurationNeverChanges : Prop :=
  ∀ s t : State, step s = .next t → t.hw = s.hw ∧ (s.hwId = hwIdWord → t.hwId = hwIdWord)

/-! ### Regular states (10_state.md R46) -/

/-- R46 (b): every command but RB.SETCAPF maps a regular state to a regular state. -/
def Obligations.CommandsKeepStatesRegular : Prop :=
  ∀ (s t : State) (i : Instr), s.Inv → s.Regular → (∀ k, i ≠ .rbSetcapf k) → exec i s = .next t → t.Regular

/-- R46 (c): INIT, RB.RESIZE and DE.RESET produce a regular state from any state when they do not raise. -/
def Obligations.ReallocationMakesStatesRegular : Prop :=
  ∀ (s t : State) (i : Instr), s.Inv → i.opcode = .init ∨ i.opcode = .rbResize ∨ i.opcode = .deReset →
    exec i s = .next t → Answered s t 0 false → t.Regular

/-- R46 (d): in a regular state RB.SETCAPF keeps regularity for an argument equal to CAPACITY and loses it for every other
accepted argument. -/
def Obligations.SetcapfKeepsRegularOnlyAtCapacity : Prop :=
  ∀ (s : State) (k : Word), s.Inv → s.Regular → 1 ≤ sint k → sint k ≤ 2 ^ 24 →
    ∃ t, exec (.rbSetcapf k) s = .next t ∧ Answered s t 0 false ∧ (t.Regular ↔ k = s.capacity)

/-- R46 (e): in a regular state no command raises ACCESS: none sets its STATUS bit, and, whatever STATUS holds, the
commands that reach STORE (R62) do not answer ERR 1, DE.PROCESS for counts in range. -/
def Obligations.RegularStatesNeverRaiseAccess : Prop :=
  ∀ (s t : State) (i : Instr), s.Inv → s.Regular → exec i s = .next t →
    t.statusBit 10 = s.statusBit 10 ∧
    (i.opcode ∈ [.rbWrite, .rbRead, .rbStep, .deMixstep] → ∃ d, Answered s t d false) ∧
    ∀ nc ns, i = .deProcess nc ns → 0 ≤ sint nc → sint nc ≤ s.hw.nchMax → 0 ≤ sint ns → sint ns ≤ s.hw.blkMax →
      Answered s t 0 false

/-! ### Errors and STATUS -/

/-- R243: a command whose response has ERR 1 raised one error: it set that STATUS bit, captured its command word if it was
the first, and changed nothing else; DE.PROCESS alone may keep STORE, cursor and BLK writes of completed iterations. -/
def Obligations.ErrorsArePrecise : Prop :=
  ∀ (s t : State) (i : Instr), s.Inv → exec i s = .next t → Answered s t 0 true →
    ∃ bit, (bit = 8 ∨ bit = 9 ∨ bit = 10) ∧ StatusSet s t [bit] ∧
      t.errCmd = (if s.status.getLsbD 8 || s.status.getLsbD 9 || s.status.getLsbD 10 then s.errCmd else (encode i).cmd) ∧
      { t with status := s.status, errCmd := s.errCmd, output := s.output, store := s.store, blk := s.blk,
               wcur := s.wcur, rcur := s.rcur } = s ∧
      (i.opcode ≠ .deProcess → t.store = s.store ∧ t.blk = s.blk ∧ t.wcur = s.wcur ∧ t.rcur = s.rcur)

/-- R42: only STAT.CLR clears a STATUS bit, and only bits 3:0; no command clears an error bit. -/
def Obligations.StatusBitsAreSticky : Prop :=
  ∀ (s t : State) (i : Instr) (k : Nat), exec i s = .next t → s.statusBit k = true →
    t.statusBit k = true ∨ i = .statClr ∧ k < 4

/-- R30's "written by" column: which commands may write each register and memory. -/
def Obligations.OnlyTheNamedCommandsWriteEachRegister : Prop :=
  ∀ (s t : State) (i : Instr), exec i s = .next t →
    let by' := fun (l : List Opcode) => i.opcode ∈ l
    (t.channels = s.channels ∨ by' [.init]) ∧
    (t.capacity = s.capacity ∨ by' [.init, .rbResize, .rbSetcapf, .deReset]) ∧
    (t.alloc = s.alloc ∨ by' [.init, .rbResize, .deReset]) ∧
    (t.wcur = s.wcur ∨
      by' [.rbWrite, .rbStep, .rbReset, .rbResize, .init, .deReset, .deMixstep, .deProcess]) ∧
    (t.rcur = s.rcur ∨
      by' [.rbRead, .rbSetrp, .rbStep, .rbReset, .rbResize, .init, .deReset, .deSetdly, .deMixstep, .deProcess]) ∧
    (t.feedback = s.feedback ∨ by' [.init, .deSetfb]) ∧
    (t.mix = s.mix ∨ by' [.init, .deSetmix]) ∧
    (t.delaySamples = s.delaySamples ∨ by' [.init, .deReset, .deSetdly]) ∧
    (t.errCmd = s.errCmd ∨ Answered s t 0 true) ∧
    (t.store = s.store ∨
      by' [.rbWrite, .rbStep, .deMixstep, .deProcess, .rbReset, .rbResize, .init, .deReset]) ∧
    (t.blk = s.blk ∨ by' [.blkWr, .deProcess]) ∧
    t.hw = s.hw ∧ t.hwId = s.hwId ∧ t.input = s.input

/-! ### Ring-buffer commands -/

/-- RB.WRITE (R112): the word is stored bit for bit at the write cursor, which advances; RCUR does not move. -/
def Obligations.RbWriteStoresAndAdvances : Prop :=
  ∀ (s : State) (ch : BitVec 8) (x : Word), s.Inv →
    let c := ch.toNat
    let w := s.wcurAt c
    EncodedAs (0x10#8 ++ ch ++ 0#16) (fun a _ => .rbWrite ch a) ∧
    ∃ t, exec (.rbWrite ch x) s = .next t ∧
      if uint s.channels ≤ c then ChannelIgnored s t 0
      else if uint s.alloc ≤ w then Raised s t (0x10#8 ++ ch ++ 0#16) 10
      else Answered s t 0 false ∧ StoreSetAt s t c w x ∧ WcurSetAt s t c ((w + 1) % uint s.capacity) ∧
        { t with store := s.store, wcur := s.wcur, output := s.output } = s

/-- RB.READ (R113): responds the word at the read cursor bit for bit, then the cursor advances; WCUR does not move. -/
def Obligations.RbReadAnswersAndAdvances : Prop :=
  ∀ (s : State) (ch : BitVec 8), s.Inv →
    let c := ch.toNat
    let r := s.rcurAt c
    EncodedAs (0x11#8 ++ ch ++ 0#16) (fun _ _ => .rbRead ch) ∧
    ∃ t, exec (.rbRead ch) s = .next t ∧
      if uint s.channels ≤ c then ChannelIgnored s t s.hw.numFmt.zero
      else if uint s.alloc ≤ r then Raised s t (0x11#8 ++ ch ++ 0#16) 10
      else Answered s t (s.storeRead c r) false ∧ RcurSetAt s t c ((r + 1) % uint s.capacity) ∧
        { t with rcur := s.rcur, output := s.output } = s

/-- RB.SETRP (R114): the channel is checked first, a BAD lag raises ARG, and otherwise the read cursor stands at the
Euclidean remainder of `WCUR - L` by CAPACITY. -/
def Obligations.RbSetrpDerivesTheReadCursor : Prop :=
  ∀ (s : State) (ch : BitVec 8) (v : Word), s.Inv →
    let c := ch.toNat
    EncodedAs (0x12#8 ++ ch ++ 0#16) (fun a _ => .rbSetrp ch a) ∧
    ∃ t, exec (.rbSetrp ch v) s = .next t ∧
      if uint s.channels ≤ c then ChannelIgnored s t 0
      else match lagInt s.hw.numFmt v with
        | none => Raised s t (0x12#8 ++ ch ++ 0#16) 9
        | some lag => Answered s t 0 false ∧
            (∃ r, RcurSetAt s t c r ∧ r < uint s.capacity ∧
              ∃ k : Int, (r : Int) + k * uint s.capacity = s.wcurAt c - lag) ∧
            { t with rcur := s.rcur, output := s.output } = s

/-- RB.RESET (R115): every STORE word and every cursor zero; CAPACITY, ALLOC, CHANNELS, FEEDBACK, MIX, DELAY_SAMPLES, BLK
and STATUS unchanged. -/
def Obligations.RbResetClearsTheBuffer : Prop :=
  ∀ s : State, EncodedAs 0x13000000 (fun _ _ => .rbReset) ∧
    ∃ t, exec .rbReset s = .next t ∧ Answered s t 0 false ∧ BufferCleared t ∧
    { t with store := s.store, wcur := s.wcur, rcur := s.rcur, output := s.output } = s

/-- RB.RESIZE (R116): ALLOC and CAPACITY take the argument and the buffer is cleared; outside [1, CAP_MAX] it raises ARG. -/
def Obligations.RbResizeReallocates : Prop :=
  ∀ (s : State) (n : Word), EncodedAs 0x14000000 (fun a _ => .rbResize a) ∧
    ∃ t, exec (.rbResize n) s = .next t ∧
    if sint n < 1 ∨ (s.hw.capMax : Int) < sint n then Raised s t 0x14000000 9
    else Answered s t 0 false ∧ t.alloc = n ∧ t.capacity = n ∧ BufferCleared t ∧
      { t with alloc := s.alloc, capacity := s.capacity, store := s.store, wcur := s.wcur, rcur := s.rcur,
               output := s.output } = s

/-- RB.GETCAP (R117) and RB.SETCAPF (R118): the capacity field is returned; it alone is written, and an argument outside
[1, 2^24] raises ARG. -/
def Obligations.CapacityFieldIsReadAndWrittenAlone : Prop :=
  EncodedAs 0x15000000 (fun _ _ => .rbGetcap) ∧ EncodedAs 0x16000000 (fun a _ => .rbSetcapf a) ∧
  (∀ s : State, ∃ t, exec .rbGetcap s = .next t ∧ Answered s t s.capacity false ∧ { t with output := s.output } = s) ∧
  ∀ (s : State) (k : Word), ∃ t, exec (.rbSetcapf k) s = .next t ∧
    if sint k < 1 ∨ 2 ^ 24 < sint k then Raised s t 0x16000000 9
    else Answered s t 0 false ∧ t.capacity = k ∧ { t with capacity := s.capacity, output := s.output } = s

/-- RB.STEP (R119): both slots are checked before either access; the read takes the old word, the stored word is the
output `MAC(x, f, d)`, and both cursors advance. -/
def Obligations.RbStepReadsMixesAndWrites : Prop :=
  ∀ (s : State) (ch : BitVec 8) (x f : Word), s.Inv →
    let c := ch.toNat
    let r := s.rcurAt c
    let w := s.wcurAt c
    let y := mac s.hw.numFmt x f (s.storeRead c r)
    EncodedAs (0x17#8 ++ ch ++ 0#16) (fun a b => .rbStep ch a b) ∧
    ∃ t, exec (.rbStep ch x f) s = .next t ∧
      if uint s.channels ≤ c then ChannelIgnored s t s.hw.numFmt.zero
      else if uint s.alloc ≤ r ∨ uint s.alloc ≤ w then Raised s t (0x17#8 ++ ch ++ 0#16) 10
      else Answered s t y false ∧ StoreSetAt s t c w y ∧ RcurSetAt s t c ((r + 1) % uint s.capacity) ∧
        WcurSetAt s t c ((w + 1) % uint s.capacity) ∧
        { t with store := s.store, rcur := s.rcur, wcur := s.wcur, output := s.output } = s

/-- RB.GETWC (R214) and RB.GETRC (R215): the cursor of a valid channel, and no side effect. -/
def Obligations.CursorsAreReadBack : Prop :=
  ∀ (s : State) (ch : BitVec 8), s.Inv →
    EncodedAs (0x18#8 ++ ch ++ 0#16) (fun _ _ => .rbGetwc ch) ∧
    EncodedAs (0x19#8 ++ ch ++ 0#16) (fun _ _ => .rbGetrc ch) ∧
    (∃ t, exec (.rbGetwc ch) s = .next t ∧
      if uint s.channels ≤ ch.toNat then ChannelIgnored s t 0
      else Answered s t (s.wcur.getD ch.toNat 0) false ∧ { t with output := s.output } = s) ∧
    ∃ t, exec (.rbGetrc ch) s = .next t ∧
      if uint s.channels ≤ ch.toNat then ChannelIgnored s t 0
      else Answered s t (s.rcur.getD ch.toNat 0) false ∧ { t with output := s.output } = s

/-! ### Delay-effect commands -/

/-- INIT (R160): a constructed state, or ARG when a count is out of range; BLK, STATUS and ERR_CMD stay. -/
def Obligations.InitConstructs : Prop :=
  ∀ (s : State) (n k : Word), EncodedAs 0x01000000 (fun a b => .init a b) ∧
    ∃ t, exec (.init n k) s = .next t ∧
    if sint n < 1 ∨ (s.hw.capMax : Int) < sint n ∨ sint k < 1 ∨ (s.hw.nchMax : Int) < sint k then
      Raised s t 0x01000000 9
    else Answered s t 0 false ∧ t.channels = k ∧ t.alloc = n ∧ t.capacity = n ∧ BufferCleared t ∧
      t.feedback = s.hw.numFmt.half ∧ t.mix = s.hw.numFmt.one ∧ t.delaySamples = 0 ∧
      { t with channels := s.channels, alloc := s.alloc, capacity := s.capacity, store := s.store, wcur := s.wcur,
               rcur := s.rcur, feedback := s.feedback, mix := s.mix, delaySamples := s.delaySamples,
               output := s.output } = s

/-- DE.RESET (R162): the derived delay `floor((sr * ms) / 1000)` becomes DELAY_SAMPLES, ALLOC and CAPACITY and the buffer
is cleared; a negative argument, or a derived delay outside [1, CAP_MAX], raises ARG and changes nothing. -/
def Obligations.DeResetSizesToTheDelay : Prop :=
  ∀ (s : State) (sr ms : Word), s.Inv → EncodedAs 0x20000000 (fun a b => .deReset a b) ∧
    ∃ t, exec (.deReset sr ms) s = .next t ∧
    let ds := (sint sr * sint ms) / 1000
    if sint sr < 0 ∨ sint ms < 0 ∨ ds < 1 ∨ (s.hw.capMax : Int) < ds then Raised s t 0x20000000 9
    else Answered s t 0 false ∧ (uint t.delaySamples : Int) = ds ∧ (uint t.alloc : Int) = ds ∧
      (uint t.capacity : Int) = ds ∧ BufferCleared t ∧
      { t with delaySamples := s.delaySamples, alloc := s.alloc, capacity := s.capacity, store := s.store,
               wcur := s.wcur, rcur := s.rcur, output := s.output } = s

/-- DE.SETDLY (R163): the derived delay, clamped to CAPACITY - 1 with DLY_CLAMP, repositions the read cursors of channels
0 and 1 exactly, each only if valid; a negative argument raises ARG. -/
def Obligations.DeSetdlyRepositionsChannelsZeroAndOne : Prop :=
  ∀ (s : State) (ms sr : Word), s.Inv → EncodedAs 0x21000000 (fun a b => .deSetdly a b) ∧
    ∃ t, exec (.deSetdly ms sr) s = .next t ∧
    let ds := (sint sr * sint ms) / 1000
    let lag := min ds (uint s.capacity - 1)
    if sint sr < 0 ∨ sint ms < 0 then Raised s t 0x21000000 9
    else Answered s t 0 false ∧ StatusSet s t (if ds > uint s.capacity - 1 then [3] else []) ∧
      (uint t.delaySamples : Int) = lag ∧
      (∀ c, (t.rcurAt c : Int) =
        if c < 2 ∧ c < uint s.channels then ((s.wcurAt c : Int) - lag) % uint s.capacity else s.rcurAt c) ∧
      { t with status := s.status, delaySamples := s.delaySamples, rcur := s.rcur, output := s.output } = s

/-- DE.SETFB (R164) and DE.SETMIX (R165): the clamped word is stored; FB_RANGE or MIX_RANGE is set exactly when CLAMP01
says the argument was outside [0, 1]. -/
def Obligations.ParametersAreClamped : Prop :=
  ∀ (s : State) (v : Word),
    let r := clamp01 s.hw.numFmt v
    EncodedAs 0x22000000 (fun a _ => .deSetfb a) ∧ EncodedAs 0x23000000 (fun a _ => .deSetmix a) ∧
    (∃ t, exec (.deSetfb v) s = .next t ∧ Answered s t 0 false ∧ t.feedback = r.1 ∧
      StatusSet s t (if r.2 then [1] else []) ∧
      { t with feedback := s.feedback, status := s.status, output := s.output } = s) ∧
    ∃ t, exec (.deSetmix v) s = .next t ∧ Answered s t 0 false ∧ t.mix = r.1 ∧
      StatusSet s t (if r.2 then [2] else []) ∧
      { t with mix := s.mix, status := s.status, output := s.output } = s

/-- DE.MIXSTEP (R166): on a valid channel the step by FEEDBACK, whose word is stored, and the blend of it with the input;
on an invalid channel the dry part only, with CH_INV. -/
def Obligations.DeMixstepBlendsOneSample : Prop :=
  ∀ (s : State) (ch : BitVec 8) (x : Word), s.Inv →
    let c := ch.toNat
    let r := s.rcurAt c
    let w := s.wcurAt c
    let wet := mac s.hw.numFmt x s.feedback (s.storeRead c r)
    EncodedAs (0x24#8 ++ ch ++ 0#16) (fun a _ => .deMixstep ch a) ∧
    ∃ t, exec (.deMixstep ch x) s = .next t ∧
      if uint s.channels ≤ c then ChannelIgnored s t (blend s.hw.numFmt s.mix s.hw.numFmt.zero x)
      else if uint s.alloc ≤ r ∨ uint s.alloc ≤ w then Raised s t (0x24#8 ++ ch ++ 0#16) 10
      else Answered s t (blend s.hw.numFmt s.mix wet x) false ∧ StoreSetAt s t c w wet ∧
        RcurSetAt s t c ((r + 1) % uint s.capacity) ∧ WcurSetAt s t c ((w + 1) % uint s.capacity) ∧
        { t with store := s.store, rcur := s.rcur, wcur := s.wcur, output := s.output } = s

/-- DE.PROCESS (R167) with a count out of range raises ARG and does no work; with counts in range in a regular state it
completes without error. -/
def Obligations.DeProcessChecksItsCounts : Prop :=
  ∀ (s : State) (nc ns : Word), s.Inv → EncodedAs 0x25000000 (fun a b => .deProcess a b) ∧
    (sint nc < 0 ∨ (s.hw.nchMax : Int) < sint nc ∨ sint ns < 0 ∨ (s.hw.blkMax : Int) < sint ns →
      ∃ t, exec (.deProcess nc ns) s = .next t ∧ Raised s t 0x25000000 9) ∧
    (0 ≤ sint nc → sint nc ≤ s.hw.nchMax → 0 ≤ sint ns → sint ns ≤ s.hw.blkMax → s.Regular →
      ∃ t, exec (.deProcess nc ns) s = .next t ∧ Answered s t 0 false)

/-- R168: when no ACCESS is raised, DE.PROCESS has the same effect on STORE, the cursors, STATUS and BLK as DE.MIXSTEP on
BLK[c][i] followed by writing its DATA to BLK[c][i], over the pairs (c, i) in order. -/
def Obligations.DeProcessIsASequenceOfMixsteps : Prop :=
  ∀ (s u : State) (nc ns : Word), s.Inv → 0 ≤ sint nc → sint nc ≤ s.hw.nchMax → 0 ≤ sint ns → sint ns ≤ s.hw.blkMax →
    mixAll (blockPairs (uint nc) (uint ns)) s = some u →
    ∃ t, exec (.deProcess nc ns) s = .next t ∧ Answered s t 0 false ∧ { t with output := u.output } = u

/-- R167: an ACCESS ends DE.PROCESS at that sample: every earlier iteration stays, that sample's BLK word and all later
ones are unchanged, and the error is recorded with DE.PROCESS's command word. -/
def Obligations.DeProcessStopsAtTheFailingSample : Prop :=
  ∀ (s u e : State) (nc ns : Word) (before after : List (Nat × Nat)) (c i : Nat), s.Inv →
    0 ≤ sint nc → sint nc ≤ s.hw.nchMax → 0 ≤ sint ns → sint ns ≤ s.hw.blkMax →
    blockPairs (uint nc) (uint ns) = before ++ (c, i) :: after → mixAll before s = some u →
    exec (.deMixstep (BitVec.ofNat 8 c) (u.blkRead c i)) u = .next e → Answered u e 0 true →
    ∃ t, exec (.deProcess nc ns) s = .next t ∧ Answered s t 0 true ∧ StatusSet u t [10] ∧
      t.errCmd = (if u.status.getLsbD 8 || u.status.getLsbD 9 || u.status.getLsbD 10 then u.errCmd else 0x25000000) ∧
      { t with status := u.status, errCmd := u.errCmd, output := u.output } = u

/-- What DE.PROCESS leaves: registers but STATUS, ERR_CMD and the cursors, BLK words outside the block, and STORE and
cursors of channels it does not visit (R48, R167). -/
def Obligations.DeProcessLeavesTheRest : Prop :=
  ∀ (s t : State) (nc ns : Word), s.Inv → exec (.deProcess nc ns) s = .next t →
    { t with store := s.store, blk := s.blk, wcur := s.wcur, rcur := s.rcur, status := s.status, errCmd := s.errCmd,
             output := s.output } = s ∧
    (∀ c i, i < 2 ^ 32 → uint nc ≤ c ∨ uint ns ≤ i → t.blkRead c i = s.blkRead c i) ∧
    ∀ c, uint nc ≤ c ∨ uint s.channels ≤ c →
      (∀ p, p < 2 ^ 32 → t.storeRead c p = s.storeRead c p) ∧ t.wcurAt c = s.wcurAt c ∧ t.rcurAt c = s.rcurAt c

/-! ### Host-access commands -/

/-- NOP (R210) responds and changes nothing; STAT.CLR (R216) clears STATUS bits 3:0 and nothing else. -/
def Obligations.NopAndStatClr : Prop :=
  ∀ s : State, EncodedAs 0 (fun _ _ => .nop) ∧ EncodedAs 0x41000000 (fun _ _ => .statClr) ∧
    (∃ t, exec .nop s = .next t ∧ Answered s t 0 false ∧ { t with output := s.output } = s) ∧
    ∃ t, exec .statClr s = .next t ∧ Answered s t 0 false ∧
      (∀ k, t.status.getLsbD k = (s.status.getLsbD k && decide (4 ≤ k))) ∧
      { t with status := s.status, output := s.output } = s

/-- BLK.WR (R211) and BLK.RD (R212): the word is stored and read bit for bit; an index outside the block buffer raises
ARG. -/
def Obligations.BlockBufferIsWrittenAndReadBack : Prop :=
  ∀ (s : State) (ch : BitVec 8) (idx : BitVec 16) (v : Word), s.Inv →
    let c := ch.toNat
    let i := idx.toNat
    EncodedAs (0x30#8 ++ ch ++ idx) (fun a _ => .blkWr ch idx a) ∧
    EncodedAs (0x31#8 ++ ch ++ idx) (fun _ _ => .blkRd ch idx) ∧
    (∃ t, exec (.blkWr ch idx v) s = .next t ∧
      if s.hw.nchMax ≤ c ∨ s.hw.blkMax ≤ i then Raised s t (0x30#8 ++ ch ++ idx) 9
      else Answered s t 0 false ∧ BlkSetAt s t c i v ∧ { t with blk := s.blk, output := s.output } = s) ∧
    ∃ t, exec (.blkRd ch idx) s = .next t ∧
      if s.hw.nchMax ≤ c ∨ s.hw.blkMax ≤ i then Raised s t (0x31#8 ++ ch ++ idx) 9
      else Answered s t (s.blkRead c i) false ∧ { t with output := s.output } = s

/-- REG.RD (R213): the register the table gives, and no side effect. -/
def Obligations.RegRdReadsTheTable : Prop :=
  ∀ (s : State) (sel : BitVec 16), s.Inv → sel.toNat ≤ 0x000C →
    EncodedAs (0x40#8 ++ 0#8 ++ sel) (fun _ _ => .regRd sel) ∧
    ∃ t, exec (.regRd sel) s = .next t ∧ { t with output := s.output } = s ∧
      Answered s t
        ([s.status, s.capacity, s.alloc, s.channels, s.feedback, s.mix, s.delaySamples, s.errCmd,
          (match s.hw.numFmt with | .f32 => 0 | .q824 => 1), BitVec.ofNat 32 s.hw.nchMax, BitVec.ofNat 32 s.hw.capMax,
          BitVec.ofNat 32 s.hw.blkMax, 0x53440100].getD sel.toNat 0) false

/-! ### Channels -/

/-- R48, writing: a command that names a channel leaves STORE, the cursors and BLK of every other channel. -/
def Obligations.ChannelsAreIndependentForWrites : Prop :=
  ∀ (s t : State) (i : Instr) (d : Nat), s.Inv → i.opcode.takesChannel = true → exec i s = .next t →
    d ≠ i.chOperand.toNat →
    (∀ p, p < 2 ^ 32 → t.storeRead d p = s.storeRead d p) ∧ (∀ p, p < 2 ^ 32 → t.blkRead d p = s.blkRead d p) ∧
      t.wcurAt d = s.wcurAt d ∧ t.rcurAt d = s.rcurAt d

/-- R48, reading: two states that agree on the shared registers and on the named channel answer a command on that channel
alike and agree on that channel and the shared registers afterwards. -/
def Obligations.ChannelsAreIndependentForReads : Prop :=
  ∀ (s s' t t' : State) (i : Instr), s.Inv → s'.Inv → i.opcode.takesChannel = true →
    let c := i.chOperand.toNat
    let agree := fun (a b : State) =>
      { a with store := b.store, blk := b.blk, wcur := b.wcur, rcur := b.rcur } = b ∧ a.wcurAt c = b.wcurAt c ∧
        a.rcurAt c = b.rcurAt c ∧ (∀ p, p < 2 ^ 32 → a.storeRead c p = b.storeRead c p) ∧
        ∀ p, p < 2 ^ 32 → a.blkRead c p = b.blkRead c p
    agree s s' → exec i s = .next t → exec i s' = .next t' → agree t t'

/-- R168, interleaving: samples of different channels may be processed in either order. -/
def Obligations.ChannelsMayBeInterleaved : Prop :=
  ∀ (s : State) (c i d j : Nat), s.Inv → c < s.hw.nchMax → d < s.hw.nchMax → i < s.hw.blkMax → j < s.hw.blkMax → c ≠ d →
    ((mixThenWrite c i s).bind (mixThenWrite d j)).map (fun t => { t with output := [] }) =
      ((mixThenWrite d j s).bind (mixThenWrite c i)).map (fun t => { t with output := [] })

/-! ### Delay, lag, comb filter -/

/-- R124: on a valid channel of a regular state RB.WRITE increases the lag by one modulo CAPACITY, RB.READ decreases it by
one, RB.STEP leaves it. -/
def Obligations.ReadsAndWritesMoveTheLag : Prop :=
  ∀ (s : State) (ch : BitVec 8) (x f : Word), s.Inv → s.Regular → ch.toNat < uint s.channels →
    let c := ch.toNat
    let d := uint s.capacity
    (∃ t, exec (.rbWrite ch x) s = .next t ∧ t.lagOf c = (s.lagOf c + 1) % d) ∧
    (∃ t, exec (.rbRead ch) s = .next t ∧ (t.lagOf c + 1) % d = s.lagOf c) ∧
    ∃ t, exec (.rbStep ch x f) s = .next t ∧ t.lagOf c = s.lagOf c

/-- R120: after RB.SETRP with lag L the lag is L mod CAPACITY, and with only steps on the channel each step reads the word
written D steps earlier, D = lag, or CAPACITY for lag 0; here on a freshly cleared buffer, so that a word not yet written
is ZERO. -/
def Obligations.EffectiveDelayAfterSetrp : Prop :=
  ∀ (s t : State) (ch : BitVec 8) (v f : Word) (lag : Nat) (xs : List Word), s.Inv → s.Regular →
    ch.toNat < uint s.channels → lagInt s.hw.numFmt v = some lag → exec .rbReset s = .next t →
    ∃ u, exec (.rbSetrp ch v) t = .next u ∧ u.lagOf ch.toNat = lag % uint s.capacity ∧
      let d := if lag % uint s.capacity = 0 then uint s.capacity else lag % uint s.capacity
      ∃ ys e, stepAll ch f xs u = some (ys, e) ∧ ys.length = xs.length ∧
        ∀ n, n < xs.length →
          ys.getD n 0 = mac s.hw.numFmt (xs.getD n 0) f (if n < d then s.hw.numFmt.zero else ys.getD (n - d) 0)

/-- R121, the comb-filter recurrence: on a freshly reset buffer of capacity D, `y[n] = MAC(x[n], f, y[n-D])` for n >= D and
`y[n] = MAC(x[n], f, ZERO)` for n < D. -/
def Obligations.CombFilterRecurrence : Prop :=
  ∀ (s t : State) (ch : BitVec 8) (f : Word) (xs : List Word), s.Inv → s.Regular → ch.toNat < uint s.channels →
    exec .rbReset s = .next t →
    ∃ ys u, stepAll ch f xs t = some (ys, u) ∧ ys.length = xs.length ∧
      ∀ n, n < xs.length →
        ys.getD n 0 = mac s.hw.numFmt (xs.getD n 0) f
          (if n < uint s.capacity then s.hw.numFmt.zero else ys.getD (n - uint s.capacity) 0)

/-- R122: after RB.RESET in a regular state the next CAPACITY RB.READ on any valid channel respond ZERO. -/
def Obligations.ResetBufferReadsZero : Prop :=
  ∀ (s t : State) (ch : BitVec 8), s.Inv → s.Regular → ch.toNat < uint s.channels → exec .rbReset s = .next t →
    ∃ u, readAll ch (uint s.capacity) t = some (List.replicate (uint s.capacity) s.hw.numFmt.zero, u)

/-- R171: after DE.SETDLY, DELAY_SAMPLES <= CAPACITY - 1, and a time with `dsamp >= CAPACITY` gives CAPACITY - 1. -/
def Obligations.DelayTimeClamp : Prop :=
  ∀ (s : State) (ms sr : Word), s.Inv → 0 ≤ sint ms → 0 ≤ sint sr →
    ∃ t, exec (.deSetdly ms sr) s = .next t ∧ uint t.delaySamples + 1 ≤ uint t.capacity ∧
      (uint s.capacity ≤ (sint sr * sint ms) / 1000 → uint t.delaySamples + 1 = uint t.capacity)

/-- R172: after an accepted DE.RESET, DE.SETDLY with the same time and rate clamps to CAPACITY - 1 with DLY_CLAMP, and the
lag of valid channels 0 and 1 is CAPACITY - 1. -/
def Obligations.SetdlyAfterResetClamps : Prop :=
  ∀ (s t : State) (ms sr : Word), s.Inv → exec (.deReset sr ms) s = .next t → Answered s t 0 false →
    t.delaySamples = t.capacity ∧ (∀ c, t.lagOf c = 0) ∧
      ∃ u, exec (.deSetdly ms sr) t = .next u ∧ u.statusBit 3 = true ∧ uint u.delaySamples = uint t.capacity - 1 ∧
        ∀ c, c < 2 → c < uint s.channels → u.lagOf c = uint t.capacity - 1

/-- R170: after DE.SETFB x FEEDBACK is the clamped word, and a second DE.SETFB with it, with STAT.CLR between, leaves
FEEDBACK and sets no flag; the same for DE.SETMIX and MIX. The clamped word has the value max(0, min(1, x)) (a zero of
either sign gives +0, and no other word changes when its value is in range), and the flag says exactly that x was outside
[0, 1]; an infinity is clamped by its sign and a NaN to ONE, both flagged (R15, R22). -/
def Obligations.ClampingIsIdempotent : Prop :=
  (∀ (s : State) (x : Word),
    (∃ t u v, exec (.deSetfb x) s = .next t ∧ t.feedback = (clamp01 s.hw.numFmt x).1 ∧
      exec .statClr t = .next u ∧ exec (.deSetfb t.feedback) u = .next v ∧ v.feedback = t.feedback ∧
      v.status = u.status ∧ v.statusBit 1 = false) ∧
    ∃ t u v, exec (.deSetmix x) s = .next t ∧ t.mix = (clamp01 s.hw.numFmt x).1 ∧
      exec .statClr t = .next u ∧ exec (.deSetmix t.mix) u = .next v ∧ v.mix = t.mix ∧
      v.status = u.status ∧ v.statusBit 2 = false) ∧
  (∀ fmt x, clamp01 fmt (clamp01 fmt x).1 = ((clamp01 fmt x).1, false)) ∧
  (∀ x, f32Finite x = true →
    f32Value (clamp01 .f32 x).1 = max 0 (min 1 (f32Value x)) ∧
    ((clamp01 .f32 x).2 = true ↔ f32Value x < 0 ∨ 1 < f32Value x) ∧
    (0 ≤ f32Value x → f32Value x ≤ 1 → (clamp01 .f32 x).1 = if f32Value x = 0 then 0 else x)) ∧
  (∀ x, (sint (clamp01 .q824 x).1 : Int) = max 0 (min (2 ^ 24) (sint x)) ∧
    ((clamp01 .q824 x).2 = true ↔ sint x < 0 ∨ 2 ^ 24 < sint x)) ∧
  clamp01 .f32 0x7F800000 = (NumFmt.f32.one, true) ∧ clamp01 .f32 0xFF800000 = (NumFmt.f32.zero, true) ∧
  ∀ x, f32Finite x = false → f32Frac x ≠ 0 → clamp01 .f32 x = (NumFmt.f32.one, true)

/-! ### Numbers -/

/-- R11: on finite operands fadd, fsub and fmul round the exact result by roundTiesToEven, and the sign of a product, a
zero one included, is the exclusive or of the operands' signs (log 8 says how the model reads IEEE 754 here). R13, R14:
the F32 multiply-accumulate and mix are these operations in the stated order, each rounded, for every gain and mix. -/
def Obligations.BinaryOperationsRoundToNearestEven : Prop :=
  (∀ a b : Word, f32Finite a = true → f32Finite b = true →
    RoundsTo (f32Value a + f32Value b) (fadd a b) ∧ RoundsTo (f32Value a - f32Value b) (fsub a b) ∧
      RoundsTo (f32Value a * f32Value b) (fmul a b) ∧ f32Sign (fmul a b) = (f32Sign a ^^ f32Sign b)) ∧
  (∀ x f d : Word, mac .f32 x f d = fadd x (fmul f d)) ∧
  ∀ m w x : Word, blend .f32 m w x = fadd (fmul m w) (fmul (fsub 0x3F800000 m) x)

/-- R11, the signs of zero sums and differences: `(-0) + (-0) = -0`, every other exact zero sum is `+0`; so
`(-0) - (+0) = -0`, every other exact zero difference is `+0`, and `x - x = +0` for every finite `x`. -/
def Obligations.ExactZeroSumsAreSigned : Prop :=
  (∀ a b : Word, f32Finite a = true → f32Finite b = true → f32Value a + f32Value b = 0 →
    fadd a b = if a = 0x80000000 ∧ b = 0x80000000 then 0x80000000 else 0) ∧
  (∀ a b : Word, f32Finite a = true → f32Finite b = true → f32Value a - f32Value b = 0 →
    fsub a b = if a = 0x80000000 ∧ b = 0 then 0x80000000 else 0) ∧
  ∀ x : Word, f32Finite x = true → fsub x x = 0

/-- R11, R12, operands that are not finite: a NaN produced by fadd, fsub or fmul is 0x7FC00000, and one is produced for a
NaN operand, for a sum of opposite and a difference of like infinities, and for zero times an infinity, whatever the signs
and the order; in every other case with an infinity the result is the infinity of the result's sign. -/
def Obligations.ProducedNaNsAreCanonical : Prop :=
  (∀ a b : Word, (f32IsNaN (fadd a b) = true → fadd a b = 0x7FC00000) ∧
    (f32IsNaN (fsub a b) = true → fsub a b = 0x7FC00000) ∧ (f32IsNaN (fmul a b) = true → fmul a b = 0x7FC00000)) ∧
  (∀ a b : Word, f32IsNaN a = true ∨ f32IsNaN b = true →
    fadd a b = 0x7FC00000 ∧ fsub a b = 0x7FC00000 ∧ fmul a b = 0x7FC00000) ∧
  (∀ s u : Bool, fadd (infinity s) (infinity u) = (if s = u then infinity s else 0x7FC00000) ∧
    fsub (infinity s) (infinity u) = (if s = u then 0x7FC00000 else infinity s) ∧
    fmul (infinity s) (infinity u) = infinity (s ^^ u)) ∧
  ∀ (s : Bool) (a : Word), f32Finite a = true →
    fadd a (infinity s) = infinity s ∧ fadd (infinity s) a = infinity s ∧
    fsub a (infinity s) = infinity (!s) ∧ fsub (infinity s) a = infinity s ∧
    fmul a (infinity s) = (if f32Value a = 0 then 0x7FC00000 else infinity (f32Sign a ^^ s)) ∧
    fmul (infinity s) a = (if f32Value a = 0 then 0x7FC00000 else infinity (s ^^ f32Sign a))

/-- R16, R24: LAGINT is the floor of the value clamped at 0; NaN and -inf give 0, +inf is BAD; in Q8_24 it is the integer
clamped at 0. -/
def Obligations.LagConversion : Prop :=
  (∀ v, f32Finite v = true → lagInt .f32 v = some (⌊f32Value v⌋).toNat) ∧
  (∀ v, f32IsNaN v = true → lagInt .f32 v = some 0) ∧ lagInt .f32 0xFF800000 = some 0 ∧ lagInt .f32 0x7F800000 = none ∧
  ∀ v, lagInt .q824 v = some (max 0 (sint v)).toNat

/-- R25, the laws of a zero gain and of a mix of one or zero, with their F32 exceptions; its `x >= +0.0` is read by the
sign bit of `x` (the model's reading, log 15). -/
def Obligations.ZeroGainAndBoundaryMixLaws : Prop :=
  (∀ x d, mac .q824 x NumFmt.q824.zero d = x) ∧ (∀ w x, blend .q824 NumFmt.q824.one w x = w) ∧
  (∀ w x, blend .q824 NumFmt.q824.zero w x = x) ∧
  (∀ x d, mac .f32 x NumFmt.f32.zero d =
    if f32IsNaN x ∨ f32Finite d = false then 0x7FC00000
    else if x = 0x80000000 ∧ fmul NumFmt.f32.zero d = 0 then 0 else x) ∧
  (∀ w x, f32Finite w = true → f32Finite x = true →
    blend .f32 NumFmt.f32.one w x = (if w = 0x80000000 ∧ f32Sign x = false then 0 else w) ∧
    blend .f32 NumFmt.f32.zero w x = (if x = 0x80000000 ∧ f32Sign w = false then 0 else x)) ∧
  ∀ w x, (f32Finite x = false → blend .f32 NumFmt.f32.one w x = 0x7FC00000) ∧
    (f32Finite w = false → blend .f32 NumFmt.f32.zero w x = 0x7FC00000)

/-- R20: the two forms of the Q8_24 multiply-accumulate agree, and the word is their value. R21: the Q8_24 mix is both
exact products and their sum, one rounding and one saturation, for every mix. -/
def Obligations.FixedPointMac : Prop :=
  let rnd := fun a : Int => (a + 2 ^ 23) / 2 ^ 24
  let sat := fun a : Int => min (max a (-2 ^ 31)) (2 ^ 31 - 1)
  (∀ x f d : Word, sint (mac .q824 x f d) = sat (rnd (sint x * 2 ^ 24 + sint f * sint d)) ∧
    sint (mac .q824 x f d) = sat (sint x + rnd (sint f * sint d))) ∧
  ∀ m w x : Word, sint (blend .q824 m w x) = sat (rnd (sint m * sint w + (2 ^ 24 - sint m) * sint x))

/-! ### Ports, reset, assembler -/

/-- R270: the reset state is what `INIT RST_CAP, RST_NCH` produces from any state, with in addition BLK all ZERO, STATUS
and ERR_CMD 0. -/
def Obligations.ResetIsInitWithTheResetParameters : Prop :=
  ∀ s : State, s.Inv →
    ∃ t, exec (.init (BitVec.ofNat 32 s.hw.rstCap) (BitVec.ofNat 32 s.hw.rstNch)) s = .next t ∧
      { t with blk := [], status := 0, errCmd := 0, output := s.output } = State.afterReset s.hw s.input s.output

/-- R80, R251, R270: an edge has an outcome exactly for a host that holds a waiting command. Then the command in hand is
the one whose words transferred, from that transfer to the transfer of its response; so long `cmd_ready` is 0, and a
response that is not taken is held unchanged; after an edge with `rst_n` 0 nothing is ready, offered or in hand. When the
work in hand is over at an edge, the edge leaves a command's response on offer, at the earliest right after its transfer,
and ends a reset with `cmd_ready` 1 (R283). That `cmd_ready` is 1 right after a response transfers, and that a host which
does not hold is refused by name, are the port machine's choices (logs 11 and 12). -/
def Obligations.PortHandshake : Prop :=
  ∀ (x : PortInputs) (p : PortState), p.core.Inv →
    let holds := ∀ c, p.waiting = some c → x.cmdValid = true ∧ x.cmd = c
    (¬ holds → portEdge x p = .refused .hostMove) ∧
    (holds → ∃ q, portEdge x p = .next q ∧
      q.waiting = (if x.cmdValid = true ∧ ¬ (x.rstN = true ∧ cmdReady p = true) then some x.cmd else none) ∧
      (x.rstN = false → cmdReady q = false ∧ rspOffered q = none ∧ inHand q = none) ∧
      (x.rstN = true →
        (x.cmdValid = true → cmdReady p = true → inHand q = some x.cmd ∧ cmdReady q = false) ∧
        (∀ c, inHand p = some c → rspTransfers p x = false → inHand q = some c ∧ cmdReady q = false) ∧
        (∀ r, rspOffered p = some r → x.rspReady = false → rspOffered q = some r) ∧
        (∀ r, rspOffered p = some r → x.rspReady = true → inHand q = none ∧ rspOffered q = none ∧ cmdReady q = true) ∧
        (x.workDone = true →
          (∀ c, inHand p = some c → rspOffered p = none → ∃ r, rspOffered q = some r) ∧
          (x.cmdValid = true → cmdReady p = true → ∃ r, rspOffered q = some r) ∧
          (p.phase = .resetting → cmdReady q = true))))

/-- The clocked port machine, a choice of the model (log 11), refines the untimed machine: an edge keeps the handshake's
invariant, and either leaves the untimed state alone or makes exactly the step of one port event, which is a reset (when
its work is over) or the command in hand, which PortHandshake says is the one whose words transferred (when its response
transfers, and the response is the one offered); and an edge that takes a reset to `cmd_ready` 1 makes the reset's step
(R270: "only then raises"). When the effects become the untimed state is that machine's choice too;
the rules behind it are R68, R69 and R270 to R272. -/
def Obligations.PortEdgeRefinesStep : Prop :=
  ∀ (x : PortInputs) (p q : PortState), p.core.Inv → p.Inv → portEdge x p = .next q →
    q.Inv ∧ q.core.Inv ∧
      (rspTransfers p x = false → q.core = p.core ∨
        (p.phase = .resetting ∧ step { p.core with input := .reset none :: p.core.input } = .next q.core)) ∧
      (p.phase = .resetting → cmdReady q = true →
        step { p.core with input := .reset none :: p.core.input } = .next q.core) ∧
      (rspTransfers p x = true →
        ∃ c r, inHand p = some c ∧ rspOffered p = some r ∧
          step { p.core with input := .command c :: p.core.input } = .next q.core ∧
          q.core.output = p.core.output ++ [r])

/-- R91: the expansions of RB.SETLAG (whose lag word is exact), BLK.FILL and BLK.DUMP. That an empty list of values and a
count of 0 stand for no command is the model's choice (log 14). -/
def Obligations.PseudoInstructionsExpand : Prop :=
  (∀ (ch : BitVec 8) (n : Nat), n ≤ 2 ^ 24 →
    ∃ w, expandSetlag .f32 ch n = some [.rbSetrp ch w] ∧ f32Finite w = true ∧ f32Value w = n ∧
      lagInt .f32 w = some n) ∧
  (∀ (ch : BitVec 8) (n : Nat), 2 ^ 24 < n → expandSetlag .f32 ch n = none) ∧
  (∀ (ch : BitVec 8) (n : Nat), n < 2 ^ 31 →
    ∃ w, expandSetlag .q824 ch n = some [.rbSetrp ch w] ∧ lagInt .q824 w = some n) ∧
  (∀ (ch : BitVec 8) (i : Nat) (vs : List Word), i + vs.length ≤ 2 ^ 16 →
    expandFill ch i vs = some ((List.range vs.length).map (fun k => .blkWr ch (BitVec.ofNat 16 (i + k)) (vs.getD k 0)))) ∧
  ∀ (ch : BitVec 8) (i n : Nat), i + n ≤ 2 ^ 16 →
    expandDump ch i n = some ((List.range n).map (fun k => .blkRd ch (BitVec.ofNat 16 (i + k))))
end

