-- ==== Sys2Proof/Laws/State.lean ====
section
/-! SUPPORT. For each update of State, what it does to each field and to each accessor: true by `rfl`, for `simp`, so that
no later proof unfolds an update. -/

namespace Sys2Proof.Machine

variable (s : State)

/-! ### `State.respond` -/

@[simp] theorem State.respond_hw (v : Word) : (s.respond v).hw = s.hw := rfl
@[simp] theorem State.respond_hwId (v : Word) : (s.respond v).hwId = s.hwId := rfl
@[simp] theorem State.respond_channels (v : Word) : (s.respond v).channels = s.channels := rfl
@[simp] theorem State.respond_capacity (v : Word) : (s.respond v).capacity = s.capacity := rfl
@[simp] theorem State.respond_alloc (v : Word) : (s.respond v).alloc = s.alloc := rfl
@[simp] theorem State.respond_wcur (v : Word) : (s.respond v).wcur = s.wcur := rfl
@[simp] theorem State.respond_rcur (v : Word) : (s.respond v).rcur = s.rcur := rfl
@[simp] theorem State.respond_feedback (v : Word) : (s.respond v).feedback = s.feedback := rfl
@[simp] theorem State.respond_mix (v : Word) : (s.respond v).mix = s.mix := rfl
@[simp] theorem State.respond_delaySamples (v : Word) : (s.respond v).delaySamples = s.delaySamples := rfl
@[simp] theorem State.respond_status (v : Word) : (s.respond v).status = s.status := rfl
@[simp] theorem State.respond_errCmd (v : Word) : (s.respond v).errCmd = s.errCmd := rfl
@[simp] theorem State.respond_store (v : Word) : (s.respond v).store = s.store := rfl
@[simp] theorem State.respond_blk (v : Word) : (s.respond v).blk = s.blk := rfl
@[simp] theorem State.respond_input (v : Word) : (s.respond v).input = s.input := rfl
@[simp] theorem State.respond_output (v : Word) :
    (s.respond v).output = s.output ++ [{ data := v, err := false }] := rfl

/-! ### `State.warn` -/

@[simp] theorem State.warn_hw (w : Warning) : (s.warn w).hw = s.hw := rfl
@[simp] theorem State.warn_hwId (w : Warning) : (s.warn w).hwId = s.hwId := rfl
@[simp] theorem State.warn_channels (w : Warning) : (s.warn w).channels = s.channels := rfl
@[simp] theorem State.warn_capacity (w : Warning) : (s.warn w).capacity = s.capacity := rfl
@[simp] theorem State.warn_alloc (w : Warning) : (s.warn w).alloc = s.alloc := rfl
@[simp] theorem State.warn_wcur (w : Warning) : (s.warn w).wcur = s.wcur := rfl
@[simp] theorem State.warn_rcur (w : Warning) : (s.warn w).rcur = s.rcur := rfl
@[simp] theorem State.warn_feedback (w : Warning) : (s.warn w).feedback = s.feedback := rfl
@[simp] theorem State.warn_mix (w : Warning) : (s.warn w).mix = s.mix := rfl
@[simp] theorem State.warn_delaySamples (w : Warning) : (s.warn w).delaySamples = s.delaySamples := rfl
@[simp] theorem State.warn_status (w : Warning) : (s.warn w).status = setBit s.status (warningBit w) := rfl
@[simp] theorem State.warn_errCmd (w : Warning) : (s.warn w).errCmd = s.errCmd := rfl
@[simp] theorem State.warn_store (w : Warning) : (s.warn w).store = s.store := rfl
@[simp] theorem State.warn_blk (w : Warning) : (s.warn w).blk = s.blk := rfl
@[simp] theorem State.warn_input (w : Warning) : (s.warn w).input = s.input := rfl
@[simp] theorem State.warn_output (w : Warning) : (s.warn w).output = s.output := rfl

/-! ### `State.raiseWord` -/

@[simp] theorem State.raiseWord_hw (cmd : Word) (e : ErrorKind) : (s.raiseWord cmd e).hw = s.hw := rfl
@[simp] theorem State.raiseWord_hwId (cmd : Word) (e : ErrorKind) : (s.raiseWord cmd e).hwId = s.hwId := rfl
@[simp] theorem State.raiseWord_channels (cmd : Word) (e : ErrorKind) : (s.raiseWord cmd e).channels = s.channels := rfl
@[simp] theorem State.raiseWord_capacity (cmd : Word) (e : ErrorKind) : (s.raiseWord cmd e).capacity = s.capacity := rfl
@[simp] theorem State.raiseWord_alloc (cmd : Word) (e : ErrorKind) : (s.raiseWord cmd e).alloc = s.alloc := rfl
@[simp] theorem State.raiseWord_wcur (cmd : Word) (e : ErrorKind) : (s.raiseWord cmd e).wcur = s.wcur := rfl
@[simp] theorem State.raiseWord_rcur (cmd : Word) (e : ErrorKind) : (s.raiseWord cmd e).rcur = s.rcur := rfl
@[simp] theorem State.raiseWord_feedback (cmd : Word) (e : ErrorKind) : (s.raiseWord cmd e).feedback = s.feedback := rfl
@[simp] theorem State.raiseWord_mix (cmd : Word) (e : ErrorKind) : (s.raiseWord cmd e).mix = s.mix := rfl
@[simp] theorem State.raiseWord_delaySamples (cmd : Word) (e : ErrorKind) :
    (s.raiseWord cmd e).delaySamples = s.delaySamples := rfl
@[simp] theorem State.raiseWord_status (cmd : Word) (e : ErrorKind) :
    (s.raiseWord cmd e).status = setBit s.status (errorBit e) := rfl
@[simp] theorem State.raiseWord_errCmd (cmd : Word) (e : ErrorKind) :
    (s.raiseWord cmd e).errCmd = (if noErrorYet s.status then cmd else s.errCmd) := rfl
@[simp] theorem State.raiseWord_store (cmd : Word) (e : ErrorKind) : (s.raiseWord cmd e).store = s.store := rfl
@[simp] theorem State.raiseWord_blk (cmd : Word) (e : ErrorKind) : (s.raiseWord cmd e).blk = s.blk := rfl
@[simp] theorem State.raiseWord_input (cmd : Word) (e : ErrorKind) : (s.raiseWord cmd e).input = s.input := rfl
@[simp] theorem State.raiseWord_output (cmd : Word) (e : ErrorKind) :
    (s.raiseWord cmd e).output = s.output ++ [{ data := 0, err := true }] := rfl

/-! ### `State.raise` -/

@[simp] theorem State.raise_hw (i : Instr) (e : ErrorKind) : (s.raise i e).hw = s.hw := rfl
@[simp] theorem State.raise_hwId (i : Instr) (e : ErrorKind) : (s.raise i e).hwId = s.hwId := rfl
@[simp] theorem State.raise_channels (i : Instr) (e : ErrorKind) : (s.raise i e).channels = s.channels := rfl
@[simp] theorem State.raise_capacity (i : Instr) (e : ErrorKind) : (s.raise i e).capacity = s.capacity := rfl
@[simp] theorem State.raise_alloc (i : Instr) (e : ErrorKind) : (s.raise i e).alloc = s.alloc := rfl
@[simp] theorem State.raise_wcur (i : Instr) (e : ErrorKind) : (s.raise i e).wcur = s.wcur := rfl
@[simp] theorem State.raise_rcur (i : Instr) (e : ErrorKind) : (s.raise i e).rcur = s.rcur := rfl
@[simp] theorem State.raise_feedback (i : Instr) (e : ErrorKind) : (s.raise i e).feedback = s.feedback := rfl
@[simp] theorem State.raise_mix (i : Instr) (e : ErrorKind) : (s.raise i e).mix = s.mix := rfl
@[simp] theorem State.raise_delaySamples (i : Instr) (e : ErrorKind) :
    (s.raise i e).delaySamples = s.delaySamples := rfl
@[simp] theorem State.raise_status (i : Instr) (e : ErrorKind) :
    (s.raise i e).status = setBit s.status (errorBit e) := rfl
@[simp] theorem State.raise_errCmd (i : Instr) (e : ErrorKind) :
    (s.raise i e).errCmd = (if noErrorYet s.status then cmdWord i else s.errCmd) := rfl
@[simp] theorem State.raise_store (i : Instr) (e : ErrorKind) : (s.raise i e).store = s.store := rfl
@[simp] theorem State.raise_blk (i : Instr) (e : ErrorKind) : (s.raise i e).blk = s.blk := rfl
@[simp] theorem State.raise_input (i : Instr) (e : ErrorKind) : (s.raise i e).input = s.input := rfl
@[simp] theorem State.raise_output (i : Instr) (e : ErrorKind) :
    (s.raise i e).output = s.output ++ [{ data := 0, err := true }] := rfl

/-! ### `State.storeWrite` -/

@[simp] theorem State.storeWrite_hw (c p : Nat) (v : Word) : (s.storeWrite c p v).hw = s.hw := rfl
@[simp] theorem State.storeWrite_hwId (c p : Nat) (v : Word) : (s.storeWrite c p v).hwId = s.hwId := rfl
@[simp] theorem State.storeWrite_channels (c p : Nat) (v : Word) : (s.storeWrite c p v).channels = s.channels := rfl
@[simp] theorem State.storeWrite_capacity (c p : Nat) (v : Word) : (s.storeWrite c p v).capacity = s.capacity := rfl
@[simp] theorem State.storeWrite_alloc (c p : Nat) (v : Word) : (s.storeWrite c p v).alloc = s.alloc := rfl
@[simp] theorem State.storeWrite_wcur (c p : Nat) (v : Word) : (s.storeWrite c p v).wcur = s.wcur := rfl
@[simp] theorem State.storeWrite_rcur (c p : Nat) (v : Word) : (s.storeWrite c p v).rcur = s.rcur := rfl
@[simp] theorem State.storeWrite_feedback (c p : Nat) (v : Word) : (s.storeWrite c p v).feedback = s.feedback := rfl
@[simp] theorem State.storeWrite_mix (c p : Nat) (v : Word) : (s.storeWrite c p v).mix = s.mix := rfl
@[simp] theorem State.storeWrite_delaySamples (c p : Nat) (v : Word) :
    (s.storeWrite c p v).delaySamples = s.delaySamples := rfl
@[simp] theorem State.storeWrite_status (c p : Nat) (v : Word) : (s.storeWrite c p v).status = s.status := rfl
@[simp] theorem State.storeWrite_errCmd (c p : Nat) (v : Word) : (s.storeWrite c p v).errCmd = s.errCmd := rfl
@[simp] theorem State.storeWrite_store (c p : Nat) (v : Word) :
    (s.storeWrite c p v).store = s.store.write (cellKey c p) v := rfl
@[simp] theorem State.storeWrite_blk (c p : Nat) (v : Word) : (s.storeWrite c p v).blk = s.blk := rfl
@[simp] theorem State.storeWrite_input (c p : Nat) (v : Word) : (s.storeWrite c p v).input = s.input := rfl
@[simp] theorem State.storeWrite_output (c p : Nat) (v : Word) : (s.storeWrite c p v).output = s.output := rfl

/-! ### `State.blkWrite` -/

@[simp] theorem State.blkWrite_hw (c i : Nat) (v : Word) : (s.blkWrite c i v).hw = s.hw := rfl
@[simp] theorem State.blkWrite_hwId (c i : Nat) (v : Word) : (s.blkWrite c i v).hwId = s.hwId := rfl
@[simp] theorem State.blkWrite_channels (c i : Nat) (v : Word) : (s.blkWrite c i v).channels = s.channels := rfl
@[simp] theorem State.blkWrite_capacity (c i : Nat) (v : Word) : (s.blkWrite c i v).capacity = s.capacity := rfl
@[simp] theorem State.blkWrite_alloc (c i : Nat) (v : Word) : (s.blkWrite c i v).alloc = s.alloc := rfl
@[simp] theorem State.blkWrite_wcur (c i : Nat) (v : Word) : (s.blkWrite c i v).wcur = s.wcur := rfl
@[simp] theorem State.blkWrite_rcur (c i : Nat) (v : Word) : (s.blkWrite c i v).rcur = s.rcur := rfl
@[simp] theorem State.blkWrite_feedback (c i : Nat) (v : Word) : (s.blkWrite c i v).feedback = s.feedback := rfl
@[simp] theorem State.blkWrite_mix (c i : Nat) (v : Word) : (s.blkWrite c i v).mix = s.mix := rfl
@[simp] theorem State.blkWrite_delaySamples (c i : Nat) (v : Word) :
    (s.blkWrite c i v).delaySamples = s.delaySamples := rfl
@[simp] theorem State.blkWrite_status (c i : Nat) (v : Word) : (s.blkWrite c i v).status = s.status := rfl
@[simp] theorem State.blkWrite_errCmd (c i : Nat) (v : Word) : (s.blkWrite c i v).errCmd = s.errCmd := rfl
@[simp] theorem State.blkWrite_store (c i : Nat) (v : Word) : (s.blkWrite c i v).store = s.store := rfl
@[simp] theorem State.blkWrite_blk (c i : Nat) (v : Word) : (s.blkWrite c i v).blk = s.blk.write (cellKey c i) v := rfl
@[simp] theorem State.blkWrite_input (c i : Nat) (v : Word) : (s.blkWrite c i v).input = s.input := rfl
@[simp] theorem State.blkWrite_output (c i : Nat) (v : Word) : (s.blkWrite c i v).output = s.output := rfl

/-! ### `State.setWcur` -/

@[simp] theorem State.setWcur_hw (c p : Nat) : (s.setWcur c p).hw = s.hw := rfl
@[simp] theorem State.setWcur_hwId (c p : Nat) : (s.setWcur c p).hwId = s.hwId := rfl
@[simp] theorem State.setWcur_channels (c p : Nat) : (s.setWcur c p).channels = s.channels := rfl
@[simp] theorem State.setWcur_capacity (c p : Nat) : (s.setWcur c p).capacity = s.capacity := rfl
@[simp] theorem State.setWcur_alloc (c p : Nat) : (s.setWcur c p).alloc = s.alloc := rfl
@[simp] theorem State.setWcur_wcur (c p : Nat) : (s.setWcur c p).wcur = s.wcur.set c (wordOfNat p) := rfl
@[simp] theorem State.setWcur_rcur (c p : Nat) : (s.setWcur c p).rcur = s.rcur := rfl
@[simp] theorem State.setWcur_feedback (c p : Nat) : (s.setWcur c p).feedback = s.feedback := rfl
@[simp] theorem State.setWcur_mix (c p : Nat) : (s.setWcur c p).mix = s.mix := rfl
@[simp] theorem State.setWcur_delaySamples (c p : Nat) : (s.setWcur c p).delaySamples = s.delaySamples := rfl
@[simp] theorem State.setWcur_status (c p : Nat) : (s.setWcur c p).status = s.status := rfl
@[simp] theorem State.setWcur_errCmd (c p : Nat) : (s.setWcur c p).errCmd = s.errCmd := rfl
@[simp] theorem State.setWcur_store (c p : Nat) : (s.setWcur c p).store = s.store := rfl
@[simp] theorem State.setWcur_blk (c p : Nat) : (s.setWcur c p).blk = s.blk := rfl
@[simp] theorem State.setWcur_input (c p : Nat) : (s.setWcur c p).input = s.input := rfl
@[simp] theorem State.setWcur_output (c p : Nat) : (s.setWcur c p).output = s.output := rfl

/-! ### `State.setRcur` -/

@[simp] theorem State.setRcur_hw (c p : Nat) : (s.setRcur c p).hw = s.hw := rfl
@[simp] theorem State.setRcur_hwId (c p : Nat) : (s.setRcur c p).hwId = s.hwId := rfl
@[simp] theorem State.setRcur_channels (c p : Nat) : (s.setRcur c p).channels = s.channels := rfl
@[simp] theorem State.setRcur_capacity (c p : Nat) : (s.setRcur c p).capacity = s.capacity := rfl
@[simp] theorem State.setRcur_alloc (c p : Nat) : (s.setRcur c p).alloc = s.alloc := rfl
@[simp] theorem State.setRcur_wcur (c p : Nat) : (s.setRcur c p).wcur = s.wcur := rfl
@[simp] theorem State.setRcur_rcur (c p : Nat) : (s.setRcur c p).rcur = s.rcur.set c (wordOfNat p) := rfl
@[simp] theorem State.setRcur_feedback (c p : Nat) : (s.setRcur c p).feedback = s.feedback := rfl
@[simp] theorem State.setRcur_mix (c p : Nat) : (s.setRcur c p).mix = s.mix := rfl
@[simp] theorem State.setRcur_delaySamples (c p : Nat) : (s.setRcur c p).delaySamples = s.delaySamples := rfl
@[simp] theorem State.setRcur_status (c p : Nat) : (s.setRcur c p).status = s.status := rfl
@[simp] theorem State.setRcur_errCmd (c p : Nat) : (s.setRcur c p).errCmd = s.errCmd := rfl
@[simp] theorem State.setRcur_store (c p : Nat) : (s.setRcur c p).store = s.store := rfl
@[simp] theorem State.setRcur_blk (c p : Nat) : (s.setRcur c p).blk = s.blk := rfl
@[simp] theorem State.setRcur_input (c p : Nat) : (s.setRcur c p).input = s.input := rfl
@[simp] theorem State.setRcur_output (c p : Nat) : (s.setRcur c p).output = s.output := rfl

/-! ### `State.clearBuffer` -/

@[simp] theorem State.clearBuffer_hw : s.clearBuffer.hw = s.hw := rfl
@[simp] theorem State.clearBuffer_hwId : s.clearBuffer.hwId = s.hwId := rfl
@[simp] theorem State.clearBuffer_channels : s.clearBuffer.channels = s.channels := rfl
@[simp] theorem State.clearBuffer_capacity : s.clearBuffer.capacity = s.capacity := rfl
@[simp] theorem State.clearBuffer_alloc : s.clearBuffer.alloc = s.alloc := rfl
@[simp] theorem State.clearBuffer_wcur : s.clearBuffer.wcur = List.replicate s.hw.nchMax 0 := rfl
@[simp] theorem State.clearBuffer_rcur : s.clearBuffer.rcur = List.replicate s.hw.nchMax 0 := rfl
@[simp] theorem State.clearBuffer_feedback : s.clearBuffer.feedback = s.feedback := rfl
@[simp] theorem State.clearBuffer_mix : s.clearBuffer.mix = s.mix := rfl
@[simp] theorem State.clearBuffer_delaySamples : s.clearBuffer.delaySamples = s.delaySamples := rfl
@[simp] theorem State.clearBuffer_status : s.clearBuffer.status = s.status := rfl
@[simp] theorem State.clearBuffer_errCmd : s.clearBuffer.errCmd = s.errCmd := rfl
@[simp] theorem State.clearBuffer_store : s.clearBuffer.store = [] := rfl
@[simp] theorem State.clearBuffer_blk : s.clearBuffer.blk = s.blk := rfl
@[simp] theorem State.clearBuffer_input : s.clearBuffer.input = s.input := rfl
@[simp] theorem State.clearBuffer_output : s.clearBuffer.output = s.output := rfl

/-! ### `State.allocate` -/

@[simp] theorem State.allocate_hw (n : Nat) : (s.allocate n).hw = s.hw := rfl
@[simp] theorem State.allocate_hwId (n : Nat) : (s.allocate n).hwId = s.hwId := rfl
@[simp] theorem State.allocate_channels (n : Nat) : (s.allocate n).channels = s.channels := rfl
@[simp] theorem State.allocate_capacity (n : Nat) : (s.allocate n).capacity = wordOfNat n := rfl
@[simp] theorem State.allocate_alloc (n : Nat) : (s.allocate n).alloc = wordOfNat n := rfl
@[simp] theorem State.allocate_wcur (n : Nat) : (s.allocate n).wcur = List.replicate s.hw.nchMax 0 := rfl
@[simp] theorem State.allocate_rcur (n : Nat) : (s.allocate n).rcur = List.replicate s.hw.nchMax 0 := rfl
@[simp] theorem State.allocate_feedback (n : Nat) : (s.allocate n).feedback = s.feedback := rfl
@[simp] theorem State.allocate_mix (n : Nat) : (s.allocate n).mix = s.mix := rfl
@[simp] theorem State.allocate_delaySamples (n : Nat) : (s.allocate n).delaySamples = s.delaySamples := rfl
@[simp] theorem State.allocate_status (n : Nat) : (s.allocate n).status = s.status := rfl
@[simp] theorem State.allocate_errCmd (n : Nat) : (s.allocate n).errCmd = s.errCmd := rfl
@[simp] theorem State.allocate_store (n : Nat) : (s.allocate n).store = [] := rfl
@[simp] theorem State.allocate_blk (n : Nat) : (s.allocate n).blk = s.blk := rfl
@[simp] theorem State.allocate_input (n : Nat) : (s.allocate n).input = s.input := rfl
@[simp] theorem State.allocate_output (n : Nat) : (s.allocate n).output = s.output := rfl

/-! ### `State.hardwareReset` -/

@[simp] theorem State.hardwareReset_hw : s.hardwareReset.hw = s.hw := rfl
@[simp] theorem State.hardwareReset_hwId : s.hardwareReset.hwId = hwIdWord := rfl
@[simp] theorem State.hardwareReset_channels : s.hardwareReset.channels = wordOfNat s.hw.rstNch := rfl
@[simp] theorem State.hardwareReset_capacity : s.hardwareReset.capacity = wordOfNat s.hw.rstCap := rfl
@[simp] theorem State.hardwareReset_alloc : s.hardwareReset.alloc = wordOfNat s.hw.rstCap := rfl
@[simp] theorem State.hardwareReset_wcur : s.hardwareReset.wcur = List.replicate s.hw.nchMax 0 := rfl
@[simp] theorem State.hardwareReset_rcur : s.hardwareReset.rcur = List.replicate s.hw.nchMax 0 := rfl
@[simp] theorem State.hardwareReset_feedback : s.hardwareReset.feedback = s.hw.numFmt.half := rfl
@[simp] theorem State.hardwareReset_mix : s.hardwareReset.mix = s.hw.numFmt.one := rfl
@[simp] theorem State.hardwareReset_delaySamples : s.hardwareReset.delaySamples = 0 := rfl
@[simp] theorem State.hardwareReset_status : s.hardwareReset.status = 0 := rfl
@[simp] theorem State.hardwareReset_errCmd : s.hardwareReset.errCmd = 0 := rfl
@[simp] theorem State.hardwareReset_store : s.hardwareReset.store = [] := rfl
@[simp] theorem State.hardwareReset_blk : s.hardwareReset.blk = [] := rfl
@[simp] theorem State.hardwareReset_input : s.hardwareReset.input = s.input := rfl
@[simp] theorem State.hardwareReset_output : s.hardwareReset.output = s.output := rfl

/-! ### Accessors under the updates that do not touch what they read -/

@[simp] theorem State.respond_valid (v : Word) (d : Nat) : (s.respond v).valid d = s.valid d := rfl
@[simp] theorem State.respond_wcurAt (v : Word) (d : Nat) : (s.respond v).wcurAt d = s.wcurAt d := rfl
@[simp] theorem State.respond_rcurAt (v : Word) (d : Nat) : (s.respond v).rcurAt d = s.rcurAt d := rfl
@[simp] theorem State.respond_storeRead (v : Word) (d q : Nat) : (s.respond v).storeRead d q = s.storeRead d q := rfl
@[simp] theorem State.respond_blkRead (v : Word) (d j : Nat) : (s.respond v).blkRead d j = s.blkRead d j := rfl
@[simp] theorem State.respond_adv (v : Word) (q : Nat) : (s.respond v).adv q = s.adv q := rfl
@[simp] theorem State.respond_storeHas (v : Word) (d q : Nat) : (s.respond v).storeHas d q = s.storeHas d q := rfl
@[simp] theorem State.respond_blkHas (v : Word) (d j : Nat) : (s.respond v).blkHas d j = s.blkHas d j := rfl

@[simp] theorem State.warn_valid (w : Warning) (d : Nat) : (s.warn w).valid d = s.valid d := rfl
@[simp] theorem State.warn_wcurAt (w : Warning) (d : Nat) : (s.warn w).wcurAt d = s.wcurAt d := rfl
@[simp] theorem State.warn_rcurAt (w : Warning) (d : Nat) : (s.warn w).rcurAt d = s.rcurAt d := rfl
@[simp] theorem State.warn_storeRead (w : Warning) (d q : Nat) : (s.warn w).storeRead d q = s.storeRead d q := rfl
@[simp] theorem State.warn_blkRead (w : Warning) (d j : Nat) : (s.warn w).blkRead d j = s.blkRead d j := rfl
@[simp] theorem State.warn_adv (w : Warning) (q : Nat) : (s.warn w).adv q = s.adv q := rfl
@[simp] theorem State.warn_storeHas (w : Warning) (d q : Nat) : (s.warn w).storeHas d q = s.storeHas d q := rfl
@[simp] theorem State.warn_blkHas (w : Warning) (d j : Nat) : (s.warn w).blkHas d j = s.blkHas d j := rfl

@[simp] theorem State.raiseWord_valid (cmd : Word) (e : ErrorKind) (d : Nat) :
    (s.raiseWord cmd e).valid d = s.valid d := rfl
@[simp] theorem State.raiseWord_wcurAt (cmd : Word) (e : ErrorKind) (d : Nat) :
    (s.raiseWord cmd e).wcurAt d = s.wcurAt d := rfl
@[simp] theorem State.raiseWord_rcurAt (cmd : Word) (e : ErrorKind) (d : Nat) :
    (s.raiseWord cmd e).rcurAt d = s.rcurAt d := rfl
@[simp] theorem State.raiseWord_storeRead (cmd : Word) (e : ErrorKind) (d q : Nat) :
    (s.raiseWord cmd e).storeRead d q = s.storeRead d q := rfl
@[simp] theorem State.raiseWord_blkRead (cmd : Word) (e : ErrorKind) (d j : Nat) :
    (s.raiseWord cmd e).blkRead d j = s.blkRead d j := rfl
@[simp] theorem State.raiseWord_adv (cmd : Word) (e : ErrorKind) (q : Nat) : (s.raiseWord cmd e).adv q = s.adv q := rfl
@[simp] theorem State.raiseWord_storeHas (cmd : Word) (e : ErrorKind) (d q : Nat) :
    (s.raiseWord cmd e).storeHas d q = s.storeHas d q := rfl
@[simp] theorem State.raiseWord_blkHas (cmd : Word) (e : ErrorKind) (d j : Nat) :
    (s.raiseWord cmd e).blkHas d j = s.blkHas d j := rfl

@[simp] theorem State.raise_valid (i : Instr) (e : ErrorKind) (d : Nat) : (s.raise i e).valid d = s.valid d := rfl
@[simp] theorem State.raise_wcurAt (i : Instr) (e : ErrorKind) (d : Nat) : (s.raise i e).wcurAt d = s.wcurAt d := rfl
@[simp] theorem State.raise_rcurAt (i : Instr) (e : ErrorKind) (d : Nat) : (s.raise i e).rcurAt d = s.rcurAt d := rfl
@[simp] theorem State.raise_storeRead (i : Instr) (e : ErrorKind) (d q : Nat) :
    (s.raise i e).storeRead d q = s.storeRead d q := rfl
@[simp] theorem State.raise_blkRead (i : Instr) (e : ErrorKind) (d j : Nat) :
    (s.raise i e).blkRead d j = s.blkRead d j := rfl
@[simp] theorem State.raise_adv (i : Instr) (e : ErrorKind) (q : Nat) : (s.raise i e).adv q = s.adv q := rfl
@[simp] theorem State.raise_storeHas (i : Instr) (e : ErrorKind) (d q : Nat) :
    (s.raise i e).storeHas d q = s.storeHas d q := rfl
@[simp] theorem State.raise_blkHas (i : Instr) (e : ErrorKind) (d j : Nat) :
    (s.raise i e).blkHas d j = s.blkHas d j := rfl

@[simp] theorem State.storeWrite_valid (c p : Nat) (v : Word) (d : Nat) :
    (s.storeWrite c p v).valid d = s.valid d := rfl
@[simp] theorem State.storeWrite_wcurAt (c p : Nat) (v : Word) (d : Nat) :
    (s.storeWrite c p v).wcurAt d = s.wcurAt d := rfl
@[simp] theorem State.storeWrite_rcurAt (c p : Nat) (v : Word) (d : Nat) :
    (s.storeWrite c p v).rcurAt d = s.rcurAt d := rfl
@[simp] theorem State.storeWrite_blkRead (c p : Nat) (v : Word) (d j : Nat) :
    (s.storeWrite c p v).blkRead d j = s.blkRead d j := rfl
@[simp] theorem State.storeWrite_adv (c p : Nat) (v : Word) (q : Nat) : (s.storeWrite c p v).adv q = s.adv q := rfl
@[simp] theorem State.storeWrite_storeHas (c p : Nat) (v : Word) (d q : Nat) :
    (s.storeWrite c p v).storeHas d q = s.storeHas d q := rfl
@[simp] theorem State.storeWrite_blkHas (c p : Nat) (v : Word) (d j : Nat) :
    (s.storeWrite c p v).blkHas d j = s.blkHas d j := rfl

@[simp] theorem State.blkWrite_valid (c i : Nat) (v : Word) (d : Nat) : (s.blkWrite c i v).valid d = s.valid d := rfl
@[simp] theorem State.blkWrite_wcurAt (c i : Nat) (v : Word) (d : Nat) : (s.blkWrite c i v).wcurAt d = s.wcurAt d := rfl
@[simp] theorem State.blkWrite_rcurAt (c i : Nat) (v : Word) (d : Nat) : (s.blkWrite c i v).rcurAt d = s.rcurAt d := rfl
@[simp] theorem State.blkWrite_storeRead (c i : Nat) (v : Word) (d q : Nat) :
    (s.blkWrite c i v).storeRead d q = s.storeRead d q := rfl
@[simp] theorem State.blkWrite_adv (c i : Nat) (v : Word) (q : Nat) : (s.blkWrite c i v).adv q = s.adv q := rfl
@[simp] theorem State.blkWrite_storeHas (c i : Nat) (v : Word) (d q : Nat) :
    (s.blkWrite c i v).storeHas d q = s.storeHas d q := rfl
@[simp] theorem State.blkWrite_blkHas (c i : Nat) (v : Word) (d j : Nat) :
    (s.blkWrite c i v).blkHas d j = s.blkHas d j := rfl

@[simp] theorem State.setWcur_valid (c p : Nat) (d : Nat) : (s.setWcur c p).valid d = s.valid d := rfl
@[simp] theorem State.setWcur_rcurAt (c p : Nat) (d : Nat) : (s.setWcur c p).rcurAt d = s.rcurAt d := rfl
@[simp] theorem State.setWcur_storeRead (c p : Nat) (d q : Nat) : (s.setWcur c p).storeRead d q = s.storeRead d q := rfl
@[simp] theorem State.setWcur_blkRead (c p : Nat) (d j : Nat) : (s.setWcur c p).blkRead d j = s.blkRead d j := rfl
@[simp] theorem State.setWcur_adv (c p : Nat) (q : Nat) : (s.setWcur c p).adv q = s.adv q := rfl
@[simp] theorem State.setWcur_storeHas (c p : Nat) (d q : Nat) : (s.setWcur c p).storeHas d q = s.storeHas d q := rfl
@[simp] theorem State.setWcur_blkHas (c p : Nat) (d j : Nat) : (s.setWcur c p).blkHas d j = s.blkHas d j := rfl

@[simp] theorem State.setRcur_valid (c p : Nat) (d : Nat) : (s.setRcur c p).valid d = s.valid d := rfl
@[simp] theorem State.setRcur_wcurAt (c p : Nat) (d : Nat) : (s.setRcur c p).wcurAt d = s.wcurAt d := rfl
@[simp] theorem State.setRcur_storeRead (c p : Nat) (d q : Nat) : (s.setRcur c p).storeRead d q = s.storeRead d q := rfl
@[simp] theorem State.setRcur_blkRead (c p : Nat) (d j : Nat) : (s.setRcur c p).blkRead d j = s.blkRead d j := rfl
@[simp] theorem State.setRcur_adv (c p : Nat) (q : Nat) : (s.setRcur c p).adv q = s.adv q := rfl
@[simp] theorem State.setRcur_storeHas (c p : Nat) (d q : Nat) : (s.setRcur c p).storeHas d q = s.storeHas d q := rfl
@[simp] theorem State.setRcur_blkHas (c p : Nat) (d j : Nat) : (s.setRcur c p).blkHas d j = s.blkHas d j := rfl

@[simp] theorem State.clearBuffer_valid (d : Nat) : s.clearBuffer.valid d = s.valid d := rfl
@[simp] theorem State.clearBuffer_blkRead (d j : Nat) : s.clearBuffer.blkRead d j = s.blkRead d j := rfl
@[simp] theorem State.clearBuffer_adv (q : Nat) : s.clearBuffer.adv q = s.adv q := rfl
@[simp] theorem State.clearBuffer_storeHas (d q : Nat) : s.clearBuffer.storeHas d q = s.storeHas d q := rfl
@[simp] theorem State.clearBuffer_blkHas (d j : Nat) : s.clearBuffer.blkHas d j = s.blkHas d j := rfl

@[simp] theorem State.allocate_valid (n : Nat) (d : Nat) : (s.allocate n).valid d = s.valid d := rfl
@[simp] theorem State.allocate_blkRead (n : Nat) (d j : Nat) : (s.allocate n).blkRead d j = s.blkRead d j := rfl
@[simp] theorem State.allocate_storeHas (n : Nat) (d q : Nat) : (s.allocate n).storeHas d q = s.storeHas d q := rfl
@[simp] theorem State.allocate_blkHas (n : Nat) (d j : Nat) : (s.allocate n).blkHas d j = s.blkHas d j := rfl

/-! ### `State.warnIf` -/

@[simp] theorem State.warnIf_hw (b : Bool) (w : Warning) : (s.warnIf b w).hw = s.hw := rfl
@[simp] theorem State.warnIf_hwId (b : Bool) (w : Warning) : (s.warnIf b w).hwId = s.hwId := rfl
@[simp] theorem State.warnIf_channels (b : Bool) (w : Warning) : (s.warnIf b w).channels = s.channels := rfl
@[simp] theorem State.warnIf_capacity (b : Bool) (w : Warning) : (s.warnIf b w).capacity = s.capacity := rfl
@[simp] theorem State.warnIf_alloc (b : Bool) (w : Warning) : (s.warnIf b w).alloc = s.alloc := rfl
@[simp] theorem State.warnIf_wcur (b : Bool) (w : Warning) : (s.warnIf b w).wcur = s.wcur := rfl
@[simp] theorem State.warnIf_rcur (b : Bool) (w : Warning) : (s.warnIf b w).rcur = s.rcur := rfl
@[simp] theorem State.warnIf_feedback (b : Bool) (w : Warning) : (s.warnIf b w).feedback = s.feedback := rfl
@[simp] theorem State.warnIf_mix (b : Bool) (w : Warning) : (s.warnIf b w).mix = s.mix := rfl
@[simp] theorem State.warnIf_delaySamples (b : Bool) (w : Warning) : (s.warnIf b w).delaySamples = s.delaySamples := rfl
@[simp] theorem State.warnIf_status (b : Bool) (w : Warning) : (s.warnIf b w).status = (if b then setBit s.status (warningBit w) else s.status) := rfl
@[simp] theorem State.warnIf_errCmd (b : Bool) (w : Warning) : (s.warnIf b w).errCmd = s.errCmd := rfl
@[simp] theorem State.warnIf_store (b : Bool) (w : Warning) : (s.warnIf b w).store = s.store := rfl
@[simp] theorem State.warnIf_blk (b : Bool) (w : Warning) : (s.warnIf b w).blk = s.blk := rfl
@[simp] theorem State.warnIf_input (b : Bool) (w : Warning) : (s.warnIf b w).input = s.input := rfl
@[simp] theorem State.warnIf_output (b : Bool) (w : Warning) : (s.warnIf b w).output = s.output := rfl
@[simp] theorem State.warnIf_valid (b : Bool) (w : Warning) (d : Nat) : (s.warnIf b w).valid d = s.valid d := rfl
@[simp] theorem State.warnIf_wcurAt (b : Bool) (w : Warning) (d : Nat) : (s.warnIf b w).wcurAt d = s.wcurAt d := rfl
@[simp] theorem State.warnIf_rcurAt (b : Bool) (w : Warning) (d : Nat) : (s.warnIf b w).rcurAt d = s.rcurAt d := rfl
@[simp] theorem State.warnIf_storeRead (b : Bool) (w : Warning) (d q : Nat) : (s.warnIf b w).storeRead d q = s.storeRead d q := rfl
@[simp] theorem State.warnIf_blkRead (b : Bool) (w : Warning) (d j : Nat) : (s.warnIf b w).blkRead d j = s.blkRead d j := rfl
@[simp] theorem State.warnIf_adv (b : Bool) (w : Warning) (q : Nat) : (s.warnIf b w).adv q = s.adv q := rfl
@[simp] theorem State.warnIf_storeHas (b : Bool) (w : Warning) (d q : Nat) : (s.warnIf b w).storeHas d q = s.storeHas d q := rfl
@[simp] theorem State.warnIf_blkHas (b : Bool) (w : Warning) (d j : Nat) : (s.warnIf b w).blkHas d j = s.blkHas d j := rfl

/-! ### `State.reposition` -/

@[simp] theorem State.reposition_hw (n c : Nat) : (s.reposition n c).hw = s.hw := rfl
@[simp] theorem State.reposition_hwId (n c : Nat) : (s.reposition n c).hwId = s.hwId := rfl
@[simp] theorem State.reposition_channels (n c : Nat) : (s.reposition n c).channels = s.channels := rfl
@[simp] theorem State.reposition_capacity (n c : Nat) : (s.reposition n c).capacity = s.capacity := rfl
@[simp] theorem State.reposition_alloc (n c : Nat) : (s.reposition n c).alloc = s.alloc := rfl
@[simp] theorem State.reposition_wcur (n c : Nat) : (s.reposition n c).wcur = s.wcur := rfl
@[simp] theorem State.reposition_rcur (n c : Nat) : (s.reposition n c).rcur = (if s.valid c then s.rcur.set c (wordOfNat (s.lagSlot c n)) else s.rcur) := rfl
@[simp] theorem State.reposition_feedback (n c : Nat) : (s.reposition n c).feedback = s.feedback := rfl
@[simp] theorem State.reposition_mix (n c : Nat) : (s.reposition n c).mix = s.mix := rfl
@[simp] theorem State.reposition_delaySamples (n c : Nat) : (s.reposition n c).delaySamples = s.delaySamples := rfl
@[simp] theorem State.reposition_status (n c : Nat) : (s.reposition n c).status = s.status := rfl
@[simp] theorem State.reposition_errCmd (n c : Nat) : (s.reposition n c).errCmd = s.errCmd := rfl
@[simp] theorem State.reposition_store (n c : Nat) : (s.reposition n c).store = s.store := rfl
@[simp] theorem State.reposition_blk (n c : Nat) : (s.reposition n c).blk = s.blk := rfl
@[simp] theorem State.reposition_input (n c : Nat) : (s.reposition n c).input = s.input := rfl
@[simp] theorem State.reposition_output (n c : Nat) : (s.reposition n c).output = s.output := rfl
@[simp] theorem State.reposition_valid (n c : Nat) (d : Nat) : (s.reposition n c).valid d = s.valid d := rfl
@[simp] theorem State.reposition_wcurAt (n c : Nat) (d : Nat) : (s.reposition n c).wcurAt d = s.wcurAt d := rfl
@[simp] theorem State.reposition_storeRead (n c : Nat) (d q : Nat) : (s.reposition n c).storeRead d q = s.storeRead d q := rfl
@[simp] theorem State.reposition_blkRead (n c : Nat) (d j : Nat) : (s.reposition n c).blkRead d j = s.blkRead d j := rfl
@[simp] theorem State.reposition_adv (n c : Nat) (q : Nat) : (s.reposition n c).adv q = s.adv q := rfl
@[simp] theorem State.reposition_storeHas (n c : Nat) (d q : Nat) : (s.reposition n c).storeHas d q = s.storeHas d q := rfl
@[simp] theorem State.reposition_blkHas (n c : Nat) (d j : Nat) : (s.reposition n c).blkHas d j = s.blkHas d j := rfl

/-! ### `State.setCapacity` -/

@[simp] theorem State.setCapacity_hw (k : Word) : (s.setCapacity k).hw = s.hw := rfl
@[simp] theorem State.setCapacity_hwId (k : Word) : (s.setCapacity k).hwId = s.hwId := rfl
@[simp] theorem State.setCapacity_channels (k : Word) : (s.setCapacity k).channels = s.channels := rfl
@[simp] theorem State.setCapacity_capacity (k : Word) : (s.setCapacity k).capacity = k := rfl
@[simp] theorem State.setCapacity_alloc (k : Word) : (s.setCapacity k).alloc = s.alloc := rfl
@[simp] theorem State.setCapacity_wcur (k : Word) : (s.setCapacity k).wcur = s.wcur := rfl
@[simp] theorem State.setCapacity_rcur (k : Word) : (s.setCapacity k).rcur = s.rcur := rfl
@[simp] theorem State.setCapacity_feedback (k : Word) : (s.setCapacity k).feedback = s.feedback := rfl
@[simp] theorem State.setCapacity_mix (k : Word) : (s.setCapacity k).mix = s.mix := rfl
@[simp] theorem State.setCapacity_delaySamples (k : Word) : (s.setCapacity k).delaySamples = s.delaySamples := rfl
@[simp] theorem State.setCapacity_status (k : Word) : (s.setCapacity k).status = s.status := rfl
@[simp] theorem State.setCapacity_errCmd (k : Word) : (s.setCapacity k).errCmd = s.errCmd := rfl
@[simp] theorem State.setCapacity_store (k : Word) : (s.setCapacity k).store = s.store := rfl
@[simp] theorem State.setCapacity_blk (k : Word) : (s.setCapacity k).blk = s.blk := rfl
@[simp] theorem State.setCapacity_input (k : Word) : (s.setCapacity k).input = s.input := rfl
@[simp] theorem State.setCapacity_output (k : Word) : (s.setCapacity k).output = s.output := rfl
@[simp] theorem State.setCapacity_valid (k : Word) (d : Nat) : (s.setCapacity k).valid d = s.valid d := rfl
@[simp] theorem State.setCapacity_wcurAt (k : Word) (d : Nat) : (s.setCapacity k).wcurAt d = s.wcurAt d := rfl
@[simp] theorem State.setCapacity_rcurAt (k : Word) (d : Nat) : (s.setCapacity k).rcurAt d = s.rcurAt d := rfl
@[simp] theorem State.setCapacity_storeRead (k : Word) (d q : Nat) : (s.setCapacity k).storeRead d q = s.storeRead d q := rfl
@[simp] theorem State.setCapacity_blkRead (k : Word) (d j : Nat) : (s.setCapacity k).blkRead d j = s.blkRead d j := rfl
@[simp] theorem State.setCapacity_storeHas (k : Word) (d q : Nat) : (s.setCapacity k).storeHas d q = s.storeHas d q := rfl
@[simp] theorem State.setCapacity_blkHas (k : Word) (d j : Nat) : (s.setCapacity k).blkHas d j = s.blkHas d j := rfl

/-! ### `State.setDelaySamples` -/

@[simp] theorem State.setDelaySamples_hw (n : Nat) : (s.setDelaySamples n).hw = s.hw := rfl
@[simp] theorem State.setDelaySamples_hwId (n : Nat) : (s.setDelaySamples n).hwId = s.hwId := rfl
@[simp] theorem State.setDelaySamples_channels (n : Nat) : (s.setDelaySamples n).channels = s.channels := rfl
@[simp] theorem State.setDelaySamples_capacity (n : Nat) : (s.setDelaySamples n).capacity = s.capacity := rfl
@[simp] theorem State.setDelaySamples_alloc (n : Nat) : (s.setDelaySamples n).alloc = s.alloc := rfl
@[simp] theorem State.setDelaySamples_wcur (n : Nat) : (s.setDelaySamples n).wcur = s.wcur := rfl
@[simp] theorem State.setDelaySamples_rcur (n : Nat) : (s.setDelaySamples n).rcur = s.rcur := rfl
@[simp] theorem State.setDelaySamples_feedback (n : Nat) : (s.setDelaySamples n).feedback = s.feedback := rfl
@[simp] theorem State.setDelaySamples_mix (n : Nat) : (s.setDelaySamples n).mix = s.mix := rfl
@[simp] theorem State.setDelaySamples_delaySamples (n : Nat) : (s.setDelaySamples n).delaySamples = wordOfNat n := rfl
@[simp] theorem State.setDelaySamples_status (n : Nat) : (s.setDelaySamples n).status = s.status := rfl
@[simp] theorem State.setDelaySamples_errCmd (n : Nat) : (s.setDelaySamples n).errCmd = s.errCmd := rfl
@[simp] theorem State.setDelaySamples_store (n : Nat) : (s.setDelaySamples n).store = s.store := rfl
@[simp] theorem State.setDelaySamples_blk (n : Nat) : (s.setDelaySamples n).blk = s.blk := rfl
@[simp] theorem State.setDelaySamples_input (n : Nat) : (s.setDelaySamples n).input = s.input := rfl
@[simp] theorem State.setDelaySamples_output (n : Nat) : (s.setDelaySamples n).output = s.output := rfl
@[simp] theorem State.setDelaySamples_valid (n : Nat) (d : Nat) : (s.setDelaySamples n).valid d = s.valid d := rfl
@[simp] theorem State.setDelaySamples_wcurAt (n : Nat) (d : Nat) : (s.setDelaySamples n).wcurAt d = s.wcurAt d := rfl
@[simp] theorem State.setDelaySamples_rcurAt (n : Nat) (d : Nat) : (s.setDelaySamples n).rcurAt d = s.rcurAt d := rfl
@[simp] theorem State.setDelaySamples_storeRead (n : Nat) (d q : Nat) : (s.setDelaySamples n).storeRead d q = s.storeRead d q := rfl
@[simp] theorem State.setDelaySamples_blkRead (n : Nat) (d j : Nat) : (s.setDelaySamples n).blkRead d j = s.blkRead d j := rfl
@[simp] theorem State.setDelaySamples_adv (n : Nat) (q : Nat) : (s.setDelaySamples n).adv q = s.adv q := rfl
@[simp] theorem State.setDelaySamples_storeHas (n : Nat) (d q : Nat) : (s.setDelaySamples n).storeHas d q = s.storeHas d q := rfl
@[simp] theorem State.setDelaySamples_blkHas (n : Nat) (d j : Nat) : (s.setDelaySamples n).blkHas d j = s.blkHas d j := rfl

/-! ### `State.setFeedback` -/

@[simp] theorem State.setFeedback_hw (v : Word) : (s.setFeedback v).hw = s.hw := rfl
@[simp] theorem State.setFeedback_hwId (v : Word) : (s.setFeedback v).hwId = s.hwId := rfl
@[simp] theorem State.setFeedback_channels (v : Word) : (s.setFeedback v).channels = s.channels := rfl
@[simp] theorem State.setFeedback_capacity (v : Word) : (s.setFeedback v).capacity = s.capacity := rfl
@[simp] theorem State.setFeedback_alloc (v : Word) : (s.setFeedback v).alloc = s.alloc := rfl
@[simp] theorem State.setFeedback_wcur (v : Word) : (s.setFeedback v).wcur = s.wcur := rfl
@[simp] theorem State.setFeedback_rcur (v : Word) : (s.setFeedback v).rcur = s.rcur := rfl
@[simp] theorem State.setFeedback_feedback (v : Word) : (s.setFeedback v).feedback = v := rfl
@[simp] theorem State.setFeedback_mix (v : Word) : (s.setFeedback v).mix = s.mix := rfl
@[simp] theorem State.setFeedback_delaySamples (v : Word) : (s.setFeedback v).delaySamples = s.delaySamples := rfl
@[simp] theorem State.setFeedback_status (v : Word) : (s.setFeedback v).status = s.status := rfl
@[simp] theorem State.setFeedback_errCmd (v : Word) : (s.setFeedback v).errCmd = s.errCmd := rfl
@[simp] theorem State.setFeedback_store (v : Word) : (s.setFeedback v).store = s.store := rfl
@[simp] theorem State.setFeedback_blk (v : Word) : (s.setFeedback v).blk = s.blk := rfl
@[simp] theorem State.setFeedback_input (v : Word) : (s.setFeedback v).input = s.input := rfl
@[simp] theorem State.setFeedback_output (v : Word) : (s.setFeedback v).output = s.output := rfl
@[simp] theorem State.setFeedback_valid (v : Word) (d : Nat) : (s.setFeedback v).valid d = s.valid d := rfl
@[simp] theorem State.setFeedback_wcurAt (v : Word) (d : Nat) : (s.setFeedback v).wcurAt d = s.wcurAt d := rfl
@[simp] theorem State.setFeedback_rcurAt (v : Word) (d : Nat) : (s.setFeedback v).rcurAt d = s.rcurAt d := rfl
@[simp] theorem State.setFeedback_storeRead (v : Word) (d q : Nat) : (s.setFeedback v).storeRead d q = s.storeRead d q := rfl
@[simp] theorem State.setFeedback_blkRead (v : Word) (d j : Nat) : (s.setFeedback v).blkRead d j = s.blkRead d j := rfl
@[simp] theorem State.setFeedback_adv (v : Word) (q : Nat) : (s.setFeedback v).adv q = s.adv q := rfl
@[simp] theorem State.setFeedback_storeHas (v : Word) (d q : Nat) : (s.setFeedback v).storeHas d q = s.storeHas d q := rfl
@[simp] theorem State.setFeedback_blkHas (v : Word) (d j : Nat) : (s.setFeedback v).blkHas d j = s.blkHas d j := rfl

/-! ### `State.setMix` -/

@[simp] theorem State.setMix_hw (v : Word) : (s.setMix v).hw = s.hw := rfl
@[simp] theorem State.setMix_hwId (v : Word) : (s.setMix v).hwId = s.hwId := rfl
@[simp] theorem State.setMix_channels (v : Word) : (s.setMix v).channels = s.channels := rfl
@[simp] theorem State.setMix_capacity (v : Word) : (s.setMix v).capacity = s.capacity := rfl
@[simp] theorem State.setMix_alloc (v : Word) : (s.setMix v).alloc = s.alloc := rfl
@[simp] theorem State.setMix_wcur (v : Word) : (s.setMix v).wcur = s.wcur := rfl
@[simp] theorem State.setMix_rcur (v : Word) : (s.setMix v).rcur = s.rcur := rfl
@[simp] theorem State.setMix_feedback (v : Word) : (s.setMix v).feedback = s.feedback := rfl
@[simp] theorem State.setMix_mix (v : Word) : (s.setMix v).mix = v := rfl
@[simp] theorem State.setMix_delaySamples (v : Word) : (s.setMix v).delaySamples = s.delaySamples := rfl
@[simp] theorem State.setMix_status (v : Word) : (s.setMix v).status = s.status := rfl
@[simp] theorem State.setMix_errCmd (v : Word) : (s.setMix v).errCmd = s.errCmd := rfl
@[simp] theorem State.setMix_store (v : Word) : (s.setMix v).store = s.store := rfl
@[simp] theorem State.setMix_blk (v : Word) : (s.setMix v).blk = s.blk := rfl
@[simp] theorem State.setMix_input (v : Word) : (s.setMix v).input = s.input := rfl
@[simp] theorem State.setMix_output (v : Word) : (s.setMix v).output = s.output := rfl
@[simp] theorem State.setMix_valid (v : Word) (d : Nat) : (s.setMix v).valid d = s.valid d := rfl
@[simp] theorem State.setMix_wcurAt (v : Word) (d : Nat) : (s.setMix v).wcurAt d = s.wcurAt d := rfl
@[simp] theorem State.setMix_rcurAt (v : Word) (d : Nat) : (s.setMix v).rcurAt d = s.rcurAt d := rfl
@[simp] theorem State.setMix_storeRead (v : Word) (d q : Nat) : (s.setMix v).storeRead d q = s.storeRead d q := rfl
@[simp] theorem State.setMix_blkRead (v : Word) (d j : Nat) : (s.setMix v).blkRead d j = s.blkRead d j := rfl
@[simp] theorem State.setMix_adv (v : Word) (q : Nat) : (s.setMix v).adv q = s.adv q := rfl
@[simp] theorem State.setMix_storeHas (v : Word) (d q : Nat) : (s.setMix v).storeHas d q = s.storeHas d q := rfl
@[simp] theorem State.setMix_blkHas (v : Word) (d j : Nat) : (s.setMix v).blkHas d j = s.blkHas d j := rfl

/-! ### `State.construct` -/

@[simp] theorem State.construct_hw (k : Word) : (s.construct k).hw = s.hw := rfl
@[simp] theorem State.construct_hwId (k : Word) : (s.construct k).hwId = s.hwId := rfl
@[simp] theorem State.construct_channels (k : Word) : (s.construct k).channels = k := rfl
@[simp] theorem State.construct_capacity (k : Word) : (s.construct k).capacity = s.capacity := rfl
@[simp] theorem State.construct_alloc (k : Word) : (s.construct k).alloc = s.alloc := rfl
@[simp] theorem State.construct_wcur (k : Word) : (s.construct k).wcur = s.wcur := rfl
@[simp] theorem State.construct_rcur (k : Word) : (s.construct k).rcur = s.rcur := rfl
@[simp] theorem State.construct_feedback (k : Word) : (s.construct k).feedback = s.hw.numFmt.half := rfl
@[simp] theorem State.construct_mix (k : Word) : (s.construct k).mix = s.hw.numFmt.one := rfl
@[simp] theorem State.construct_delaySamples (k : Word) : (s.construct k).delaySamples = 0 := rfl
@[simp] theorem State.construct_status (k : Word) : (s.construct k).status = s.status := rfl
@[simp] theorem State.construct_errCmd (k : Word) : (s.construct k).errCmd = s.errCmd := rfl
@[simp] theorem State.construct_store (k : Word) : (s.construct k).store = s.store := rfl
@[simp] theorem State.construct_blk (k : Word) : (s.construct k).blk = s.blk := rfl
@[simp] theorem State.construct_input (k : Word) : (s.construct k).input = s.input := rfl
@[simp] theorem State.construct_output (k : Word) : (s.construct k).output = s.output := rfl
@[simp] theorem State.construct_wcurAt (k : Word) (d : Nat) : (s.construct k).wcurAt d = s.wcurAt d := rfl
@[simp] theorem State.construct_rcurAt (k : Word) (d : Nat) : (s.construct k).rcurAt d = s.rcurAt d := rfl
@[simp] theorem State.construct_storeRead (k : Word) (d q : Nat) : (s.construct k).storeRead d q = s.storeRead d q := rfl
@[simp] theorem State.construct_blkRead (k : Word) (d j : Nat) : (s.construct k).blkRead d j = s.blkRead d j := rfl
@[simp] theorem State.construct_adv (k : Word) (q : Nat) : (s.construct k).adv q = s.adv q := rfl
@[simp] theorem State.construct_storeHas (k : Word) (d q : Nat) : (s.construct k).storeHas d q = s.storeHas d q := rfl
@[simp] theorem State.construct_blkHas (k : Word) (d j : Nat) : (s.construct k).blkHas d j = s.blkHas d j := rfl

/-! ### `State.clearWarningBits` -/

@[simp] theorem State.clearWarningBits_hw : s.clearWarningBits.hw = s.hw := rfl
@[simp] theorem State.clearWarningBits_hwId : s.clearWarningBits.hwId = s.hwId := rfl
@[simp] theorem State.clearWarningBits_channels : s.clearWarningBits.channels = s.channels := rfl
@[simp] theorem State.clearWarningBits_capacity : s.clearWarningBits.capacity = s.capacity := rfl
@[simp] theorem State.clearWarningBits_alloc : s.clearWarningBits.alloc = s.alloc := rfl
@[simp] theorem State.clearWarningBits_wcur : s.clearWarningBits.wcur = s.wcur := rfl
@[simp] theorem State.clearWarningBits_rcur : s.clearWarningBits.rcur = s.rcur := rfl
@[simp] theorem State.clearWarningBits_feedback : s.clearWarningBits.feedback = s.feedback := rfl
@[simp] theorem State.clearWarningBits_mix : s.clearWarningBits.mix = s.mix := rfl
@[simp] theorem State.clearWarningBits_delaySamples : s.clearWarningBits.delaySamples = s.delaySamples := rfl
@[simp] theorem State.clearWarningBits_status : s.clearWarningBits.status = clearWarnings s.status := rfl
@[simp] theorem State.clearWarningBits_errCmd : s.clearWarningBits.errCmd = s.errCmd := rfl
@[simp] theorem State.clearWarningBits_store : s.clearWarningBits.store = s.store := rfl
@[simp] theorem State.clearWarningBits_blk : s.clearWarningBits.blk = s.blk := rfl
@[simp] theorem State.clearWarningBits_input : s.clearWarningBits.input = s.input := rfl
@[simp] theorem State.clearWarningBits_output : s.clearWarningBits.output = s.output := rfl
@[simp] theorem State.clearWarningBits_valid (d : Nat) : s.clearWarningBits.valid d = s.valid d := rfl
@[simp] theorem State.clearWarningBits_wcurAt (d : Nat) : s.clearWarningBits.wcurAt d = s.wcurAt d := rfl
@[simp] theorem State.clearWarningBits_rcurAt (d : Nat) : s.clearWarningBits.rcurAt d = s.rcurAt d := rfl
@[simp] theorem State.clearWarningBits_storeRead (d q : Nat) : s.clearWarningBits.storeRead d q = s.storeRead d q := rfl
@[simp] theorem State.clearWarningBits_blkRead (d j : Nat) : s.clearWarningBits.blkRead d j = s.blkRead d j := rfl
@[simp] theorem State.clearWarningBits_adv (q : Nat) : s.clearWarningBits.adv q = s.adv q := rfl
@[simp] theorem State.clearWarningBits_storeHas (d q : Nat) : s.clearWarningBits.storeHas d q = s.storeHas d q := rfl
@[simp] theorem State.clearWarningBits_blkHas (d j : Nat) : s.clearWarningBits.blkHas d j = s.blkHas d j := rfl

end Sys2Proof.Machine
end

