-- ==== Sys2Proof/Laws/Memory.lean ====
section
/-! SUPPORT. The word memories: every operation keeps the canonical form, a read after a write gives the written word at
its index and the old word elsewhere, and equal reads make equal memories. -/

namespace Sys2Proof.Machine

theorem Memory.wf_nil : Memory.wf [] := by simp [Memory.wf]

theorem Memory.wf_cons {k : Nat} {w : Word} {m : Memory} :
    Memory.wf ((k, w) :: m) ↔ (∀ e ∈ m, k < e.1) ∧ w ≠ unlistedWord ∧ Memory.wf m := by
  simp [Memory.wf, and_assoc, and_left_comm, and_comm]

/-- An index below every listed one reads as unlisted. -/
theorem Memory.read_of_lt {m : Memory} {a : Nat} (h : ∀ e ∈ m, a < e.1) : m.read a = unlistedWord := by
  induction m with
  | nil => rfl
  | cons e m ih =>
    have hk : a < e.1 := h e (by simp)
    have hne : ¬ e.1 = a := by omega
    simp only [Memory.read, hne, if_false]
    exact ih fun e' he' => h e' (by simp [he'])

/-- Every index of a written memory is the written one or an old one. -/
theorem Memory.mem_write {m : Memory} {a : Nat} {v : Word} {e : Nat × Word} (h : e ∈ m.write a v) :
    e = (a, v) ∧ v ≠ unlistedWord ∨ e ∈ m := by
  induction m with
  | nil => by_cases hv : v = unlistedWord <;> simp_all [Memory.write]
  | cons kw m ih =>
    simp only [Memory.write] at h
    split at h
    · split at h <;> simp_all
    · split at h
      · split at h <;> simp_all
        tauto
      · rcases List.mem_cons.1 h with rfl | h
        · simp
        · rcases ih h with h | h <;> simp [h]

/-- A write keeps the canonical form. -/
theorem Memory.write_wf {m : Memory} (h : m.wf) (a : Nat) (v : Word) : (m.write a v).wf := by
  induction m with
  | nil =>
    by_cases hv : v = unlistedWord
    · simpa [Memory.write, hv] using h
    · simp [Memory.write, hv, Memory.wf]
  | cons kw m ih =>
    obtain ⟨k, w⟩ := kw
    obtain ⟨hlt, hw, hm⟩ := Memory.wf_cons.1 h
    simp only [Memory.write]
    split
    · split
      · exact h
      · refine Memory.wf_cons.2 ⟨fun e he => ?_, ‹_›, h⟩
        rcases List.mem_cons.1 he with rfl | he
        · assumption
        · have := hlt e he; omega
    · split
      · split
        · exact hm
        · exact Memory.wf_cons.2 ⟨fun e he => by have := hlt e he; omega, ‹_›, hm⟩
      · refine Memory.wf_cons.2 ⟨fun e he => ?_, hw, ih hm⟩
        rcases Memory.mem_write he with ⟨rfl, -⟩ | he
        · simp only; omega
        · exact hlt e he

/-- A read after a write: the written word at its index, the old word at every other. -/
theorem Memory.read_write {m : Memory} (h : m.wf) (a b : Nat) (v : Word) :
    (m.write a v).read b = if b = a then v else m.read b := by
  induction m with
  | nil =>
    by_cases hv : v = unlistedWord
    · simp [Memory.write, Memory.read, hv]
    · by_cases hb : b = a <;> simp [Memory.write, Memory.read, hv, hb, Ne.symm]
  | cons kw m ih =>
    obtain ⟨k, w⟩ := kw
    obtain ⟨hlt, hw, hm⟩ := Memory.wf_cons.1 h
    simp only [Memory.write]
    split
    · next hak =>
      split
      · next hv =>
        split
        · next hb =>
          subst hb; subst hv
          exact Memory.read_of_lt fun e he => by
            rcases List.mem_cons.1 he with rfl | he
            · exact hak
            · have := hlt e he; omega
        · rfl
      · by_cases hb : b = a
        · simp [Memory.read, hb]
        · simp [Memory.read, hb, Ne.symm]
    · split
      · next hak =>
        subst hak
        split
        · next hv =>
          split
          · next hb => subst hb; subst hv; exact Memory.read_of_lt hlt
          · next hb =>
            have : ¬ a = b := fun e => hb e.symm
            simp [Memory.read, this]
        · by_cases hb : b = a
          · simp [Memory.read, hb]
          · have : ¬ a = b := fun e => hb e.symm
            simp [Memory.read, hb, this]
      · next h1 h2 =>
        simp only [Memory.read, ih hm]
        by_cases hk : k = b
        · have : ¬ b = a := by omega
          simp [hk, this]
        · simp [hk]

/-- Memories in canonical form that read alike are equal. -/
theorem Memory.ext_of_wf {m n : Memory} (hm : m.wf) (hn : n.wf) (h : ∀ a, m.read a = n.read a) : m = n := by
  induction m generalizing n with
  | nil =>
    cases n with
    | nil => rfl
    | cons e n =>
      have hw := (Memory.wf_cons.1 hn).2.1
      have := h e.1
      simp [Memory.read] at this
      exact absurd this.symm hw
  | cons e m ih =>
    obtain ⟨k, w⟩ := e
    obtain ⟨hlt, hw, hm'⟩ := Memory.wf_cons.1 hm
    cases n with
    | nil =>
      have := h k
      simp [Memory.read] at this
      exact absurd this hw
    | cons e n =>
      obtain ⟨l, x⟩ := e
      obtain ⟨hlt', hx, hn'⟩ := Memory.wf_cons.1 hn
      have hkl : k = l := by
        by_contra hne
        rcases Nat.lt_or_gt_of_ne hne with hlt1 | hlt1
        · have := h k
          have h2 : Memory.read ((l, x) :: n) k = unlistedWord := Memory.read_of_lt fun e he => by
            rcases List.mem_cons.1 he with rfl | he
            · exact hlt1
            · have := hlt' e he; omega
          rw [h2] at this
          simp [Memory.read] at this
          exact hw this
        · have := h l
          have h2 : Memory.read ((k, w) :: m) l = unlistedWord := Memory.read_of_lt fun e he => by
            rcases List.mem_cons.1 he with rfl | he
            · exact hlt1
            · have := hlt e he; omega
          rw [h2] at this
          simp [Memory.read] at this
          exact hx this.symm
      subst hkl
      have hwx : w = x := by simpa [Memory.read] using h k
      subst hwx
      congr 1
      refine ih hm' hn' fun a => ?_
      by_cases hka : k = a
      · subst hka
        rw [Memory.read_of_lt hlt, Memory.read_of_lt hlt']
      · simpa [Memory.read, hka] using h a

/-- Two words of one memory share a listing index only if they are the same word. -/
theorem cellKey_inj {c d p q : Nat} (hp : p < 2 ^ 32) (hq : q < 2 ^ 32) :
    cellKey c p = cellKey d q ↔ c = d ∧ p = q := by
  unfold cellKey
  constructor
  · intro h
    have h1 := congrArg (· / 2 ^ 32) h
    have h2 := congrArg (· % 2 ^ 32) h
    have e1 : (c * 2 ^ 32 + p) / 2 ^ 32 = (d * 2 ^ 32 + q) / 2 ^ 32 := h1
    have e2 : (c * 2 ^ 32 + p) % 2 ^ 32 = (d * 2 ^ 32 + q) % 2 ^ 32 := h2
    omega
  · rintro ⟨rfl, rfl⟩; rfl

/-- MemRead after MemWrite on STORE. -/
theorem State.storeRead_storeWrite {s : State} (h : s.store.wf) {c d p q : Nat} (hp : p < 2 ^ 32) (hq : q < 2 ^ 32)
    (v : Word) : (s.storeWrite c p v).storeRead d q = if d = c ∧ q = p then v else s.storeRead d q := by
  simp only [State.storeRead, State.storeWrite_store, Memory.read_write h, cellKey_inj hq hp]

/-- MemRead after MemWrite on BLK. -/
theorem State.blkRead_blkWrite {s : State} (h : s.blk.wf) {c d i j : Nat} (hi : i < 2 ^ 32) (hj : j < 2 ^ 32) (v : Word) :
    (s.blkWrite c i v).blkRead d j = if d = c ∧ j = i then v else s.blkRead d j := by
  simp only [State.blkRead, State.blkWrite_blk, Memory.read_write h, cellKey_inj hj hi]

/-- Every word of an empty memory reads as unlisted. -/
@[simp] theorem Memory.read_nil (a : Nat) : Memory.read [] a = unlistedWord := rfl

end Sys2Proof.Machine
end

