-- ==== Sys2Proof/Laws/Ops.lean ====
section
/-! SUPPORT. One lemma per shared operation that says once what it can do: words and ranges, STATUS bits, the raised error
and the ignored channel, cursors, the slot check, the step and the blender. -/

namespace Sys2Proof.Machine

/-! ### Words -/

theorem uint_lt (w : Word) : uint w < 2 ^ 32 := w.isLt

theorem uint_wordOfNat {n : Nat} (h : n < 2 ^ 32) : uint (wordOfNat n) = n := by
  simp only [uint, wordOfNat, BitVec.toNat_ofNat]; omega

@[simp] theorem wordOfNat_uint (w : Word) : wordOfNat (uint w) = w := by simp [uint, wordOfNat]

/-- A word whose two readings agree: its two's complement value is not negative. -/
theorem sint_eq_uint {w : Word} (h : 0 ≤ sint w) : sint w = uint w := by
  have := w.isLt
  unfold sint uint at *
  rw [BitVec.toInt_eq_toNat_cond] at *
  split at h <;> split <;> omega

theorem uint_eq_sint_toNat {w : Word} (h : 0 ≤ sint w) : uint w = (sint w).toNat := by
  have := sint_eq_uint h; omega

/-- The range check of an `int` argument, on its unsigned value. -/
theorem intInRange_iff {lo hi : Nat} {w : Word} :
    intInRange lo hi w = true ↔ (lo : Int) ≤ sint w ∧ sint w ≤ (hi : Int) := by
  simp [intInRange]

theorem intInRange_uint {lo hi : Nat} {w : Word} (h : intInRange lo hi w = true) : lo ≤ uint w ∧ uint w ≤ hi := by
  obtain ⟨h1, h2⟩ := intInRange_iff.1 h
  have := sint_eq_uint (w := w) (by omega)
  omega

theorem intInRange_eq_false {lo hi : Nat} {w : Word} :
    intInRange lo hi w = false ↔ sint w < lo ∨ (hi : Int) < sint w := by
  simp only [intInRange, decide_eq_false_iff_not]; omega

theorem advance_lt {capacity : Nat} (h : 0 < capacity) (p : Nat) : advance capacity p < capacity := Nat.mod_lt _ h

theorem lagPosition_lt {capacity : Nat} (h : 0 < capacity) (w lag : Nat) : lagPosition capacity w lag < capacity := by
  unfold lagPosition
  have h1 := Int.emod_nonneg ((w : Int) - lag) (b := (capacity : Int)) (by omega)
  have h2 := Int.emod_lt_of_pos ((w : Int) - lag) (b := (capacity : Int)) (by omega)
  omega

/-- The lag position is the Euclidean remainder (00_scope.md R8). -/
theorem lagPosition_cast {capacity : Nat} (h : 0 < capacity) (w lag : Nat) :
    (lagPosition capacity w lag : Int) = ((w : Int) - lag) % capacity := by
  unfold lagPosition
  have h1 := Int.emod_nonneg ((w : Int) - lag) (b := (capacity : Int)) (by omega)
  omega

/-! ### STATUS -/

theorem setBit_getLsbD (st : Word) {n : Nat} (hn : n < 32) (k : Nat) :
    (setBit st n).getLsbD k = (st.getLsbD k || k == n) := by
  simp only [setBit, BitVec.getLsbD_or, BitVec.getLsbD_twoPow]
  congr 1
  by_cases h : n = k
  · subst h; simp [hn]
  · have : ¬ k = n := fun e => h e.symm
    simp [h, this]

theorem noErrorYet_eq (st : Word) : noErrorYet st = !(st.getLsbD 8 || st.getLsbD 9 || st.getLsbD 10) := by
  have h : noErrorYet st = decide (st.extractLsb' 8 3 = 0) := rfl
  rw [h, Bool.eq_iff_iff]
  simp only [decide_eq_true_eq, Bool.not_eq_true', Bool.or_eq_false_iff]
  constructor
  · intro e
    have e0 := congrArg (fun v => v.getLsbD 0) e
    have e1 := congrArg (fun v => v.getLsbD 1) e
    have e2 := congrArg (fun v => v.getLsbD 2) e
    simp at e0 e1 e2
    exact ⟨⟨e0, e1⟩, e2⟩
  · rintro ⟨⟨h8, h9⟩, h10⟩
    apply BitVec.eq_of_getLsbD_eq
    intro i hi
    have : i = 0 ∨ i = 1 ∨ i = 2 := by omega
    rw [BitVec.getLsbD_extractLsb']
    rcases this with rfl | rfl | rfl
    · rw [h8]; rfl
    · rw [h9]; rfl
    · rw [h10]; rfl

theorem errorBit_lt (e : ErrorKind) : errorBit e < 32 := by cases e <;> decide

theorem warningBit_lt (w : Warning) : warningBit w < 32 := by cases w <;> decide

theorem State.statusSet_setBit {s t : State} {n : Nat} (hn : n < 32) (h : t.status = setBit s.status n) :
    StatusSet s t [n] := by
  intro k _
  rw [h, setBit_getLsbD _ hn]
  by_cases hk : k = n
  · simp [hk]
  · have : ¬ n = k := fun e => hk e.symm
    simp [hk]

theorem State.statusSet_nil {s t : State} (h : t.status = s.status) : StatusSet s t [] := by
  intro k _; simp [h]

theorem clearWarnings_getLsbD (st : Word) (k : Nat) :
    (clearWarnings st).getLsbD k = (st.getLsbD k && decide (4 ≤ k)) := by
  have h : ∀ k < 32, (0xFFFFFFF0 : Word).getLsbD k = decide (4 ≤ k) := by decide
  simp only [clearWarnings, BitVec.getLsbD_and]
  by_cases hk : k < 32
  · rw [h k hk]
  · have : st.getLsbD k = false := BitVec.getLsbD_of_ge _ _ (by omega)
    simp [this]

/-- What raising an error does, whole (R243). -/
theorem State.raiseWord_raised (s : State) (cmd : Word) (e : ErrorKind) :
    Raised s (s.raiseWord cmd e) cmd (errorBit e) := by
  refine ⟨State.statusSet_setBit (errorBit_lt e) rfl, ?_, rfl, rfl⟩
  rw [State.raiseWord_errCmd, noErrorYet_eq]
  cases s.status.getLsbD 8 || s.status.getLsbD 9 || s.status.getLsbD 10 <;> rfl

theorem State.raise_raised (s : State) (i : Instr) (e : ErrorKind) : Raised s (s.raise i e) (cmdWord i) (errorBit e) :=
  s.raiseWord_raised _ _

/-- What an invalid channel does, whole (R110). -/
theorem State.chInv_ignored (s : State) (d : Word) : ChannelIgnored s ((s.warn .chInv).respond d) d :=
  ⟨State.statusSet_setBit (warningBit_lt .chInv) rfl, rfl, rfl⟩

/-! ### Cursors -/

theorem State.wcurAt_lt (s : State) (c : Nat) : s.wcurAt c < 2 ^ 32 := uint_lt _

theorem State.rcurAt_lt (s : State) (c : Nat) : s.rcurAt c < 2 ^ 32 := uint_lt _

/-- Reading a cursor file after one of its cursors was written. -/
theorem uint_getD_set {l : List Word} {c : Nat} (hc : c < l.length) {p : Nat} (hp : p < 2 ^ 32) (d : Nat) :
    uint ((l.set c (wordOfNat p)).getD d 0) = if d = c then p else uint (l.getD d 0) := by
  simp only [List.getD_eq_getElem?_getD, List.getElem?_set]
  by_cases h : c = d
  · subst h; simp [hc, uint_wordOfNat hp]
  · have : ¬ d = c := fun e => h e.symm
    simp [h, this]

theorem State.wcurSetAt_setWcur {s : State} {c p : Nat} (hc : c < s.wcur.length) (hp : p < 2 ^ 32) :
    WcurSetAt s (s.setWcur c p) c p := fun d => uint_getD_set hc hp d

theorem State.rcurSetAt_setRcur {s : State} {c p : Nat} (hc : c < s.rcur.length) (hp : p < 2 ^ 32) :
    RcurSetAt s (s.setRcur c p) c p := fun d => uint_getD_set hc hp d

theorem getD_replicate_zero (n d : Nat) : (List.replicate n (0 : Word)).getD d 0 = 0 := by
  simp only [List.getD_eq_getElem?_getD, List.getElem?_replicate]
  split <;> rfl

theorem NumFmt.zero_eq (f : NumFmt) : f.zero = 0 := by cases f <;> rfl

/-- What the body of RB.RESET leaves (R115). -/
theorem State.clearBuffer_cleared (s : State) : BufferCleared s.clearBuffer := by
  refine ⟨fun c p => ?_, fun c => ⟨?_, ?_⟩⟩
  · rw [NumFmt.zero_eq]; rfl
  · simp [State.wcurAt, uint]
  · simp [State.rcurAt, uint]

theorem State.allocate_cleared (s : State) (n : Nat) : BufferCleared (s.allocate n) := State.clearBuffer_cleared _

/-- One iteration of DE.SETDLY's loop writes the cursor of a valid channel and nothing else. -/
theorem State.reposition_eq (s : State) (n c : Nat) :
    s.reposition n c = if s.valid c = true then s.setRcur c (s.lagSlot c n) else s := by
  unfold State.reposition State.setRcur
  split <;> rfl

theorem State.warnIf_statusSet (s : State) (b : Bool) (w : Warning) :
    StatusSet s (s.warnIf b w) (if b then [warningBit w] else []) := by
  cases b
  · exact State.statusSet_nil rfl
  · exact State.statusSet_setBit (warningBit_lt w) rfl

/-! ### The slot check -/

/-- Whether a slot check finds a slot at or above ALLOC. -/
theorem State.checkSlots_beyondAlloc {s : State} {c : Nat} {l : List Nat} :
    s.checkSlots c l = .beyondAlloc ↔ ∃ p ∈ l, uint s.alloc ≤ p := by
  simp only [State.checkSlots]
  split
  · next h => simpa using h
  · next h =>
    have : ¬ ∃ p ∈ l, uint s.alloc ≤ p := by simpa using h
    split <;> simp [this]

/-- When every slot may be accessed. -/
theorem State.checkSlots_inside {s : State} {c : Nat} {l : List Nat} :
    s.checkSlots c l = .inside ↔ (∀ p ∈ l, p < uint s.alloc) ∧ ∀ p ∈ l, s.storeHas c p = true := by
  simp only [State.checkSlots]
  split
  · next h =>
    obtain ⟨p, hp, hle⟩ : ∃ p ∈ l, uint s.alloc ≤ p := by simpa using h
    simp only [reduceCtorEq, false_iff, not_and]
    intro hall; have := hall p hp; omega
  · next h =>
    have hlt : ∀ p ∈ l, p < uint s.alloc := by
      intro p hp
      by_contra hge
      exact h (by simpa using ⟨p, hp, by omega⟩)
    split
    · next h2 => exact ⟨fun _ => ⟨hlt, by simpa using h2⟩, fun _ => rfl⟩
    · next h2 =>
      simp only [reduceCtorEq, false_iff, not_and]
      intro _ h3
      exact h2 (by simpa using h3)

/-- In a state that keeps R45 a slot check on a valid channel never finds a word that does not exist. -/
theorem State.checkSlots_of_inv {s : State} (h : s.Inv) {c : Nat} (hc : s.valid c = true) (l : List Nat) :
    s.checkSlots c l = if ∃ p ∈ l, uint s.alloc ≤ p then .beyondAlloc else .inside := by
  split
  · exact State.checkSlots_beyondAlloc.2 ‹_›
  · next hn =>
    have hlt : ∀ p ∈ l, p < uint s.alloc := fun p hp => by
      by_contra hge; exact hn ⟨p, hp, by omega⟩
    refine State.checkSlots_inside.2 ⟨hlt, fun p hp => ?_⟩
    have h1 := h.channels.2
    have h2 := h.alloc.2
    have h3 : c < uint s.channels := by simpa [State.valid] using hc
    have h4 := hlt p hp
    simp only [State.storeHas, decide_eq_true_eq]
    omega

/-! ### The step and the blender -/

/-- The state a completed step leaves (R119). -/
def stepState (c : Nat) (x f : Word) (s : State) : State :=
  ((s.setRcur c (s.adv (s.rcurAt c))).storeWrite c (s.wcurAt c) (mac s.hw.numFmt x f (s.storeRead c (s.rcurAt c)))).setWcur c
    (s.adv (s.wcurAt c))

/-- Everything a step can do: both slots inside and the step made, or ACCESS, or a word that does not exist. -/
theorem combStep_cases (c : Nat) (x f : Word) (s : State) :
    (s.checkSlots c [s.rcurAt c, s.wcurAt c] = .inside ∧
      combStep c x f s = .stepped (mac s.hw.numFmt x f (s.storeRead c (s.rcurAt c))) (stepState c x f s)) ∨
    (s.checkSlots c [s.rcurAt c, s.wcurAt c] = .beyondAlloc ∧ combStep c x f s = .access) ∨
    (s.checkSlots c [s.rcurAt c, s.wcurAt c] = .absent ∧ combStep c x f s = .absent) := by
  unfold combStep
  split <;> simp_all [stepState]

/-- A step in a state that keeps R45, on a valid channel. -/
theorem combStep_of_inv {s : State} (h : s.Inv) {c : Nat} (hc : s.valid c = true) (x f : Word) :
    combStep c x f s =
      if uint s.alloc ≤ s.rcurAt c ∨ uint s.alloc ≤ s.wcurAt c then .access
      else .stepped (mac s.hw.numFmt x f (s.storeRead c (s.rcurAt c))) (stepState c x f s) := by
  have hs := State.checkSlots_of_inv h hc [s.rcurAt c, s.wcurAt c]
  simp only [List.mem_cons, List.not_mem_nil, or_false, exists_eq_or_imp, exists_eq_left] at hs
  rcases combStep_cases c x f s with ⟨h1, h2⟩ | ⟨h1, h2⟩ | ⟨h1, h2⟩ <;> rw [h1] at hs <;> rw [h2] <;>
    split at hs <;> simp_all

/-- One sample in a state that keeps R45 (R166). -/
theorem mixSample_of_inv {s : State} (h : s.Inv) (c : Nat) (x : Word) :
    mixSample c x s =
      if s.valid c = true then
        if uint s.alloc ≤ s.rcurAt c ∨ uint s.alloc ≤ s.wcurAt c then .access
        else .stepped (blend s.hw.numFmt s.mix (mac s.hw.numFmt x s.feedback (s.storeRead c (s.rcurAt c))) x)
          (stepState c x s.feedback s)
      else .stepped (blend s.hw.numFmt s.mix s.hw.numFmt.zero x) (s.warn .chInv) := by
  unfold mixSample
  by_cases hc : s.valid c = true
  · simp only [hc, if_true, combStep_of_inv h hc]
    split
    · next h' => split at h' <;> simp_all
    · next h' => split at h' <;> simp_all
    · next h' => split at h' <;> simp_all
  · simp [hc]

theorem State.valid_iff {s : State} {c : Nat} : s.valid c = true ↔ c < uint s.channels := by simp [State.valid]

end Sys2Proof.Machine
end

