-- ==== Sys2Proof/Laws/Encoding.lean ====
section
/-! SUPPORT. The fields of a command word (30_encoding.md R81), the rows of R84 as `decode` sees them, and what a word
that decodes to nothing does. -/

namespace Sys2Proof

open Sys2Proof.Machine

/-! ### Fields -/

theorem packCmd_toNat (opc ch : BitVec 8) (idx : BitVec 16) :
    (packCmd opc ch idx).toNat = opc.toNat * 2 ^ 24 + ch.toNat * 2 ^ 16 + idx.toNat := by
  have h1 := ch.isLt
  have h2 := idx.isLt
  show ((opc ++ ch) ++ idx).toNat = _
  rw [BitVec.toNat_append, BitVec.toNat_append, ← Nat.shiftLeft_add_eq_or_of_lt h2, ← Nat.shiftLeft_add_eq_or_of_lt h1,
    Nat.shiftLeft_eq, Nat.shiftLeft_eq]
  omega

theorem opcField_toNat (w : Word) : (opcField w).toNat = w.toNat / 2 ^ 24 := by
  have := w.isLt
  simp only [opcField, BitVec.extractLsb'_toNat, Nat.shiftRight_eq_div_pow]
  omega

theorem chField_toNat (w : Word) : (chField w).toNat = w.toNat / 2 ^ 16 % 2 ^ 8 := by
  simp only [chField, BitVec.extractLsb'_toNat, Nat.shiftRight_eq_div_pow]

theorem idxField_toNat (w : Word) : (idxField w).toNat = w.toNat % 2 ^ 16 := by
  simp only [idxField, BitVec.extractLsb'_toNat, Nat.shiftRight_eq_div_pow, Nat.pow_zero, Nat.div_one]

theorem opcField_packCmd (opc ch : BitVec 8) (idx : BitVec 16) : opcField (packCmd opc ch idx) = opc := by
  have h0 := opc.isLt
  have h1 := ch.isLt
  have h2 := idx.isLt
  apply BitVec.eq_of_toNat_eq
  rw [opcField_toNat, packCmd_toNat]
  omega

theorem chField_packCmd (opc ch : BitVec 8) (idx : BitVec 16) : chField (packCmd opc ch idx) = ch := by
  have h0 := opc.isLt
  have h1 := ch.isLt
  have h2 := idx.isLt
  apply BitVec.eq_of_toNat_eq
  rw [chField_toNat, packCmd_toNat]
  omega

theorem idxField_packCmd (opc ch : BitVec 8) (idx : BitVec 16) : idxField (packCmd opc ch idx) = idx := by
  have h2 := idx.isLt
  apply BitVec.eq_of_toNat_eq
  rw [idxField_toNat, packCmd_toNat]
  omega

/-- A command word is its three fields. -/
theorem packCmd_fields (w : Word) : packCmd (opcField w) (chField w) (idxField w) = w := by
  have := w.isLt
  apply BitVec.eq_of_toNat_eq
  rw [packCmd_toNat, opcField_toNat, chField_toNat, idxField_toNat]
  omega

/-! ### Rows -/

theorem Opcode.ofCode_code (o : Opcode) : Opcode.ofCode o.code = some o := by cases o <;> decide

theorem Opcode.ofCode_some {b : BitVec 8} {o : Opcode} (h : Opcode.ofCode b = some o) : o.code = b := by
  have := List.find?_some h
  simpa using this

theorem Opcode.code_injective {o o' : Opcode} (h : o.code = o'.code) : o = o' := by
  have := Opcode.ofCode_code o
  rw [h, Opcode.ofCode_code] at this
  exact (Option.some.inj this).symm

theorem Opcode.instr_wellFormed (o : Opcode) (ch : BitVec 8) (idx : BitVec 16) (a b : Word) :
    (o.instr ch idx a b).wellFormed = true ↔ (o = .regRd → idx.toNat ≤ 0x000C) := by
  cases o <;> simp [Opcode.instr, Instr.wellFormed, selectorInTable]

/-- Everything a successful decode says. -/
theorem decode_ok {c : Command} {i : Instr} (h : decode c = .ok i) :
    ∃ o, MatchesRow o c.cmd ∧ i = o.instr (chField c.cmd) (idxField c.cmd) c.arg0 c.arg1 ∧ i.wellFormed = true := by
  unfold decode at h
  split at h
  · cases h
  · next o ho =>
    split at h
    · cases h
    · next h1 =>
      split at h
      · cases h
      · next h2 =>
        simp only at h
        split at h
        · next h3 =>
          cases h
          exact ⟨o, ⟨(Opcode.ofCode_some ho).symm, fun hf => by simpa [hf] using h1, fun hf => by simpa [hf] using h2,
            (Opcode.instr_wellFormed ..).1 h3⟩, rfl, h3⟩
        · cases h

/-- A word of a row decodes to that row's command. -/
theorem decode_of_matches {c : Command} {o : Opcode} (h : MatchesRow o c.cmd) :
    decode c = .ok (o.instr (chField c.cmd) (idxField c.cmd) c.arg0 c.arg1) := by
  obtain ⟨h1, h2, h3, h4⟩ := h
  have hw := (Opcode.instr_wellFormed o (chField c.cmd) (idxField c.cmd) c.arg0 c.arg1).2 h4
  unfold decode
  rw [h1, Opcode.ofCode_code]
  simp only [hw, if_true]
  cases e1 : o.takesChannel <;> cases e2 : o.takesIndex <;> simp_all

/-- A row's fields, zero where R84 says 0, encode its command. -/
theorem encodedAs_row (o : Opcode) (ch : BitVec 8) (idx : BitVec 16) (h1 : o.takesChannel = false → ch = 0)
    (h2 : o.takesIndex = false → idx = 0) (h3 : o = .regRd → idx.toNat ≤ 0x000C) :
    EncodedAs (packCmd o.code ch idx) (o.instr ch idx) := by
  intro a b
  have hm : MatchesRow o (packCmd o.code ch idx) := by
    refine ⟨opcField_packCmd _ _ _, fun h => ?_, fun h => ?_, fun h => ?_⟩
    · rw [chField_packCmd, h1 h]
    · rw [idxField_packCmd, h2 h]
    · rw [idxField_packCmd]; exact h3 h
  have := decode_of_matches (c := { cmd := packCmd o.code ch idx, arg0 := a, arg1 := b }) hm
  simpa only [chField_packCmd, idxField_packCmd] using this

/-- A word of no row decodes to an error. -/
theorem decode_error_of_not_matches {c : Command} (h : ∀ o, ¬ MatchesRow o c.cmd) : ∃ e, decode c = .error e := by
  cases hd : decode c with
  | error e => exact ⟨e, rfl⟩
  | ok i =>
    obtain ⟨o, ho, -⟩ := decode_ok hd
    exact absurd ho (h o)

theorem runCommand_ok {c : Command} {i : Instr} (h : decode c = .ok i) (s : State) : runCommand c s = exec i s := by
  simp [runCommand, h]

theorem runCommand_error {c : Command} {e : DecodeError} (h : decode c = .error e) (s : State) :
    runCommand c s = .next (s.raiseWord c.cmd .illegal) := by
  simp [runCommand, h]

end Sys2Proof
end

