-- ==== Sys2Proof/Laws/Float32.lean ====
section
/-! SUPPORT. Binary32 words as numbers (00_scope.md R10): bits 30:0 as a strictly rising scale of magnitudes, the value of
a finite word from its units, and what rounding a magnitude answers (R11). -/

namespace Sys2Proof.Machine

/-! ### The scale of magnitudes -/

/-- The magnitude, in units of 2^-149, that bits 30:0 stand for; beyond the finite words the scale simply goes on. -/
def magOf (b : Nat) : Nat := if b / 2 ^ 23 = 0 then b % 2 ^ 23 else (2 ^ 23 + b % 2 ^ 23) * 2 ^ (b / 2 ^ 23 - 1)

theorem magOf_succ (b : Nat) : magOf (b + 1) = magOf b + 2 ^ (b / 2 ^ 23 - 1) := by
  unfold magOf
  by_cases hb : b % 2 ^ 23 = 2 ^ 23 - 1
  · have h1 : (b + 1) / 2 ^ 23 = b / 2 ^ 23 + 1 := by omega
    have h2 : (b + 1) % 2 ^ 23 = 0 := by omega
    rw [h1, h2, hb]
    by_cases hz : b / 2 ^ 23 = 0
    · rw [hz]; rfl
    · obtain ⟨e, he⟩ : ∃ e, b / 2 ^ 23 = e + 1 := ⟨b / 2 ^ 23 - 1, by omega⟩
      rw [he, if_neg (by omega), if_neg (by omega)]
      simp only [Nat.add_sub_cancel, Nat.pow_succ]
      omega
  · have h1 : (b + 1) / 2 ^ 23 = b / 2 ^ 23 := by omega
    have h2 : (b + 1) % 2 ^ 23 = b % 2 ^ 23 + 1 := by omega
    rw [h1, h2]
    by_cases hz : b / 2 ^ 23 = 0
    · rw [hz]; simp
    · rw [if_neg hz, if_neg hz]; ring

theorem magOf_strictMono : StrictMono magOf :=
  strictMono_nat_of_lt_succ fun b => by rw [magOf_succ]; have := Nat.two_pow_pos (b / 2 ^ 23 - 1); omega

/-- The scale at `shift` binades: a significand `q` of at most 24 bits, normal or in the lowest binade. -/
theorem magOf_shift {shift q : Nat} (h1 : q ≤ 2 ^ 24) (h2 : shift = 0 ∨ 2 ^ 23 ≤ q) :
    magOf (shift * 2 ^ 23 + q) = q * 2 ^ shift := by
  unfold magOf
  by_cases hq : q = 2 ^ 24
  · have e1 : (shift * 2 ^ 23 + q) / 2 ^ 23 = shift + 2 := by omega
    have e2 : (shift * 2 ^ 23 + q) % 2 ^ 23 = 0 := by omega
    rw [e1, e2, if_neg (by omega), hq, show shift + 2 - 1 = shift + 1 by omega, Nat.pow_succ]
    ring
  · by_cases hs : 2 ^ 23 ≤ q
    · have e1 : (shift * 2 ^ 23 + q) / 2 ^ 23 = shift + 1 := by omega
      have e2 : (shift * 2 ^ 23 + q) % 2 ^ 23 = q - 2 ^ 23 := by omega
      rw [e1, e2, if_neg (by omega), show 2 ^ 23 + (q - 2 ^ 23) = q by omega, Nat.add_sub_cancel]
    · have hz : shift = 0 := by omega
      subst hz
      have e1 : (0 * 2 ^ 23 + q) / 2 ^ 23 = 0 := by omega
      have e2 : (0 * 2 ^ 23 + q) % 2 ^ 23 = q := by omega
      rw [e1, e2, if_pos rfl]; simp

/-! ### Words -/

theorem f32Exp_eq (w : Word) : f32Exp w = w.toNat % 2 ^ 31 / 2 ^ 23 := by
  unfold f32Exp
  rw [BitVec.extractLsb'_toNat, Nat.shiftRight_eq_div_pow]
  have := w.isLt
  omega

theorem f32Frac_eq (w : Word) : f32Frac w = w.toNat % 2 ^ 31 % 2 ^ 23 := by
  unfold f32Frac
  rw [BitVec.extractLsb'_toNat, Nat.shiftRight_eq_div_pow]
  have := w.isLt
  omega

theorem f32Sign_eq (w : Word) : f32Sign w = decide (2 ^ 31 ≤ w.toNat) := by
  unfold f32Sign
  rw [BitVec.getLsbD, Nat.testBit_eq_decide_div_mod_eq]
  have := w.isLt
  congr 1
  rw [eq_iff_iff]
  omega

theorem f32Mag_eq (w : Word) : f32Mag w = magOf (w.toNat % 2 ^ 31) := by
  unfold f32Mag magOf
  rw [f32Exp_eq, f32Frac_eq]

theorem f32Finite_iff (w : Word) : f32Finite w = true ↔ w.toNat % 2 ^ 31 < f32InfMag := by
  unfold f32Finite f32InfMag
  rw [f32Exp_eq]
  simp only [bne_iff_ne, ne_eq]
  omega

theorem not_nan_of_finite {w : Word} (h : f32Finite w = true) : f32IsNaN w = false := by
  unfold f32Finite at h
  unfold f32IsNaN
  simp only [bne_iff_ne, ne_eq] at h
  simp [h]

theorem not_inf_of_finite {w : Word} (h : f32Finite w = true) : f32IsInf w = false := by
  unfold f32Finite at h
  unfold f32IsInf
  simp only [bne_iff_ne, ne_eq] at h
  simp [h]

/-- A word that is not finite is a NaN or an infinity (R10). -/
theorem nan_or_inf {w : Word} (h : f32Finite w = false) : f32IsNaN w = true ∨ f32IsInf w = true := by
  have h1 : f32Exp w = 255 := by
    unfold f32Finite at h
    by_contra hne
    have : (f32Exp w != 255) = true := by simpa using hne
    rw [this] at h
    cases h
  unfold f32IsNaN f32IsInf
  rw [h1]
  by_cases hf : f32Frac w = 0
  · right; simp [hf]
  · left; simp [hf]

/-- The value of a word is its units times 2^-149 (R10). -/
theorem f32Value_eq (w : Word) : f32Value w = (f32Units w : ℚ) / 2 ^ 149 := by
  unfold f32Value f32Units f32Mag
  have key : (if f32Exp w = 0 then (f32Frac w : ℚ) / 2 ^ 149 else (1 + (f32Frac w : ℚ) / 2 ^ 23) * 2 ^ ((f32Exp w : ℤ) - 127)) =
      ((if f32Exp w = 0 then f32Frac w else (2 ^ 23 + f32Frac w) * 2 ^ (f32Exp w - 1) : Nat) : ℚ) / 2 ^ 149 := by
    by_cases h : f32Exp w = 0
    · simp [h]
    · rw [if_neg h, if_neg h]
      obtain ⟨e, he⟩ : ∃ e, f32Exp w = e + 1 := ⟨f32Exp w - 1, by omega⟩
      rw [he]
      push_cast
      rw [show ((e : ℤ) + 1 - 127) = (e : ℤ) + (-126) by ring, zpow_add₀ (by norm_num), zpow_natCast]
      norm_num
      ring
  cases f32Sign w
  · simpa using key
  · simp only [if_true, neg_mul, one_mul, Int.cast_neg, neg_div]
    rw [key]
    push_cast
    rfl

theorem f32Pack_toNat {neg : Bool} {b : Nat} (h : b < 2 ^ 31) :
    (f32Pack neg b).toNat = (if neg then 2 ^ 31 + b else b) := by
  unfold f32Pack wordOfNat
  cases neg <;> simp only [if_true, Bool.false_eq_true, if_false, BitVec.toNat_ofNat] <;> omega

theorem f32Pack_low {neg : Bool} {b : Nat} (h : b < 2 ^ 31) : (f32Pack neg b).toNat % 2 ^ 31 = b := by
  rw [f32Pack_toNat h]
  cases neg <;> simp only [if_true, Bool.false_eq_true, if_false] <;> omega

theorem f32Sign_pack {neg : Bool} {b : Nat} (h : b < 2 ^ 31) : f32Sign (f32Pack neg b) = neg := by
  rw [f32Sign_eq, f32Pack_toNat h]
  cases neg
  · simp; omega
  · simp

/-- A word is its sign and its bits 30:0. -/
theorem f32Pack_self (w : Word) : f32Pack (f32Sign w) (w.toNat % 2 ^ 31) = w := by
  apply BitVec.eq_of_toNat_eq
  have := w.isLt
  rw [f32Pack_toNat (Nat.mod_lt _ (by norm_num)), f32Sign_eq]
  by_cases h : 2 ^ 31 ≤ w.toNat <;> simp only [h, decide_true, decide_false, if_true, Bool.false_eq_true, if_false] <;>
    omega

theorem f32Sign_neg (w : Word) : f32Sign (f32Neg w) = !f32Sign w := by
  unfold f32Sign f32Neg
  rw [BitVec.getLsbD_xor]
  have : (0x80000000 : Word).getLsbD 31 = true := by decide
  rw [this, Bool.xor_true]

theorem f32Neg_low (w : Word) : (f32Neg w).toNat % 2 ^ 31 = w.toNat % 2 ^ 31 := by
  unfold f32Neg
  rw [BitVec.toNat_xor]
  apply Nat.eq_of_testBit_eq
  intro i
  have h : (0x80000000 : Word).toNat = 2 ^ 31 := by decide
  rw [h, Nat.testBit_mod_two_pow, Nat.testBit_mod_two_pow, Nat.testBit_xor]
  by_cases hi : i < 31
  · rw [Nat.testBit_two_pow_of_ne (by omega), Bool.xor_false]
  · simp [hi]

theorem f32Finite_neg (w : Word) : f32Finite (f32Neg w) = f32Finite w := by
  rw [Bool.eq_iff_iff, f32Finite_iff, f32Finite_iff, f32Neg_low]

theorem f32Units_neg (w : Word) : f32Units (f32Neg w) = -f32Units w := by
  unfold f32Units
  rw [f32Sign_neg, f32Mag_eq, f32Mag_eq, f32Neg_low]
  cases f32Sign w <;> simp

theorem f32Value_neg (w : Word) : f32Value (f32Neg w) = -f32Value w := by
  rw [f32Value_eq, f32Value_eq, f32Units_neg]
  push_cast
  ring

/-- `fadd` on finite words: a signed zero, or the exact sum rounded once (R11). -/
theorem fadd_finite {a b : Word} (ha : f32Finite a = true) (hb : f32Finite b = true) :
    fadd a b = if f32Units a + f32Units b = 0 then f32Pack (f32Sign a && f32Sign b) 0
      else f32Round (f32Units a + f32Units b < 0) (f32Units a + f32Units b).natAbs 1 := by
  unfold fadd
  simp [not_nan_of_finite ha, not_nan_of_finite hb, not_inf_of_finite ha, not_inf_of_finite hb]

/-- `fmul` on finite words: the exact product rounded once (R11). -/
theorem fmul_finite {a b : Word} (ha : f32Finite a = true) (hb : f32Finite b = true) :
    fmul a b = f32Round (f32Sign a != f32Sign b) (f32Mag a * f32Mag b) (2 ^ 149) := by
  unfold fmul
  simp [not_nan_of_finite ha, not_nan_of_finite hb, not_inf_of_finite ha, not_inf_of_finite hb]

/-! ### Rounding -/

/-- The significand that rounding starts from has at most 24 bits and, above the lowest binade, all 24. -/
theorem roundMag_significand (t : Nat) :
    t / 2 ^ (t.log2 - 23) < 2 ^ 24 ∧ (t.log2 - 23 = 0 ∨ 2 ^ 23 ≤ t / 2 ^ (t.log2 - 23)) := by
  by_cases ht : t < 2 ^ 24
  · have : t.log2 - 23 = 0 := by
      by_cases h0 : t = 0
      · subst h0; decide
      · have := (Nat.log2_lt h0).2 ht; omega
    rw [this]
    exact ⟨by simpa using ht, .inl rfl⟩
  · have h0 : t ≠ 0 := by omega
    have h1 : 24 ≤ t.log2 := (Nat.le_log2 h0).2 (by omega)
    obtain ⟨k, hk⟩ : ∃ k, t.log2 = k + 23 := ⟨t.log2 - 23, by omega⟩
    have h2 : 2 ^ t.log2 ≤ t := Nat.log2_self_le h0
    have h3 : t < 2 ^ (t.log2 + 1) := Nat.lt_log2_self
    rw [hk] at h2 h3 ⊢
    rw [Nat.add_sub_cancel]
    have hp : 0 < 2 ^ k := Nat.two_pow_pos k
    refine ⟨(Nat.div_lt_iff_lt_mul hp).2 ?_, .inr ((Nat.le_div_iff_mul_le hp).2 ?_)⟩
    · calc t < 2 ^ (k + 23 + 1) := h3
        _ = 2 ^ 24 * 2 ^ k := by rw [← Nat.pow_add]; congr 1; omega
    · calc 2 ^ 23 * 2 ^ k = 2 ^ (k + 23) := by rw [← Nat.pow_add]; congr 1; omega
        _ ≤ t := h2

/-- What rounding the magnitude `num / den` answers (R11): the infinity exactly when the magnitude is at or beyond the
midpoint between the largest finite magnitude and 2^277 units; otherwise finite bits whose magnitude is nearest, and, of
two nearest, even. -/
theorem f32RoundMag_spec {num den : Nat} (hd : 0 < den) :
    ((2 ^ 25 - 1) * 2 ^ 252 * den ≤ num → f32RoundMag num den = f32InfMag) ∧
      (num < (2 ^ 25 - 1) * 2 ^ 252 * den →
        f32RoundMag num den < f32InfMag ∧
          ∀ b, |(num : ℤ) - den * magOf (f32RoundMag num den)| ≤ |(num : ℤ) - den * magOf b| ∧
            (|(num : ℤ) - den * magOf (f32RoundMag num den)| = |(num : ℤ) - den * magOf b| →
              b ≠ f32RoundMag num den → f32RoundMag num den % 2 = 0)) := by
  obtain ⟨hq1, hq2⟩ := roundMag_significand (num / den)
  rw [Nat.div_div_eq_div_mul] at hq1 hq2
  unfold f32RoundMag
  generalize hs : (num / den).log2 - 23 = shift at *
  simp only
  generalize hu : den * 2 ^ shift = ulp at *
  have hup : 0 < ulp := hu ▸ Nat.mul_pos hd (Nat.two_pow_pos _)
  have hdm := Nat.div_add_mod num ulp
  have hr := Nat.mod_lt num hup
  generalize hq : num / ulp = q at *
  generalize hrr : num % ulp = r at *
  set q' := if ulp < 2 * r ∨ 2 * r = ulp ∧ q % 2 = 1 then q + 1 else q with hq'
  have hq'le : q' ≤ 2 ^ 24 := by rw [hq']; split <;> omega
  have hq'lo : shift = 0 ∨ 2 ^ 23 ≤ q' := by rw [hq']; split <;> omega
  have hm : magOf (shift * 2 ^ 23 + q') = q' * 2 ^ shift := magOf_shift hq'le hq'lo
  have hm0 : magOf (shift * 2 ^ 23 + q) = q * 2 ^ shift := magOf_shift (by omega) hq2
  have hm1 : magOf (shift * 2 ^ 23 + (q + 1)) = (q + 1) * 2 ^ shift := magOf_shift (by omega) (by omega)
  have e0 : den * magOf (shift * 2 ^ 23 + q) = ulp * q := by rw [hm0, ← hu]; ring
  have e1 : den * magOf (shift * 2 ^ 23 + (q + 1)) = ulp * q + ulp := by rw [hm1, ← hu]; ring
  -- how the bits compare with the infinity's
  obtain ⟨E, hE⟩ : ∃ E : Nat, E = 252 := ⟨252, rfl⟩
  rw [← hE]
  obtain ⟨U, hU⟩ : ∃ U, U = den * 2 ^ E := ⟨_, rfl⟩
  have hmid : (2 ^ 25 - 1) * 2 ^ E * den = (2 ^ 25 - 1) * U := by rw [hU]; ring
  rw [hmid]
  have hcmp : f32InfMag ≤ shift * 2 ^ 23 + q' ↔ (2 ^ 25 - 1) * U ≤ num := by
    have hinf : f32InfMag = 255 * 2 ^ 23 := by decide
    rw [hinf]
    have hhi : num < ulp * q + ulp := by omega
    rcases Nat.lt_trichotomy shift (E + 1) with hlt | heq | hgt
    · have h7 : ulp ≤ U := by
        rw [← hu, hU]
        exact Nat.mul_le_mul_left _ (Nat.pow_le_pow_right (by norm_num) (by omega))
      have h8 : ulp * q ≤ U * (2 ^ 24 - 1) := Nat.mul_le_mul h7 (by omega)
      constructor <;> intro h <;> omega
    · have hulp : ulp = 2 * U := by rw [← hu, hU, heq, Nat.pow_succ]; ring
      have hqlo : 2 ^ 23 ≤ q := by omega
      have hul : ulp * q = U * (2 * q) := by rw [hulp]; ring
      constructor
      · intro h
        split at hq'
        · have hqq : q = 2 ^ 24 - 1 := by omega
          have hul2 : U * (2 * q) = U * (2 * (2 ^ 24 - 1)) := by rw [hqq]
          omega
        · omega
      · intro h
        by_cases hqq : q = 2 ^ 24 - 1
        · have hul2 : U * (2 * q) = U * (2 * (2 ^ 24 - 1)) := by rw [hqq]
          have h6 : U ≤ r := by omega
          rw [if_pos (by omega)] at hq'
          omega
        · exfalso
          have h6 : U * (2 * q) ≤ U * (2 * (2 ^ 24 - 2)) := Nat.mul_le_mul_left _ (by omega)
          omega
    · have h7 : 4 * U ≤ ulp := by
        rw [← hu, hU]
        have h9 : 2 ^ (E + 2) ≤ 2 ^ shift := Nat.pow_le_pow_right (by norm_num) hgt
        rw [Nat.pow_add] at h9
        have h10 := Nat.mul_le_mul_left den h9
        rw [← Nat.mul_assoc] at h10
        omega
      have h8 : U * 4 * 2 ^ 23 ≤ ulp * q := Nat.mul_le_mul (by omega) (by omega)
      have h9 : (2 ^ 25 - 1) * U ≤ num := by
        generalize ulp * q = P at *
        omega
      have h10 : 254 ≤ shift := by clear * - hgt hE; omega
      have h11 : 255 * 2 ^ 23 ≤ shift * 2 ^ 23 + q' := by clear * - h10 hq'lo; omega
      exact ⟨fun _ => h9, fun _ => h11⟩
  refine ⟨fun h => min_eq_right (hcmp.2 h), fun h => ?_⟩
  have hfin : shift * 2 ^ 23 + q' < f32InfMag := by
    by_contra hge
    have := hcmp.1 (by omega)
    omega
  rw [min_eq_left hfin.le]
  refine ⟨hfin, fun b => ?_⟩
  -- below and above the two neighbours
  have hbelow : b ≤ shift * 2 ^ 23 + q → den * magOf b ≤ ulp * q := fun hb =>
    e0 ▸ Nat.mul_le_mul_left _ (magOf_strictMono.monotone hb)
  have habove : shift * 2 ^ 23 + (q + 1) ≤ b → ulp * q + ulp ≤ den * magOf b := fun hb =>
    e1 ▸ Nat.mul_le_mul_left _ (magOf_strictMono.monotone hb)
  have hbeq : b = shift * 2 ^ 23 + q → den * magOf b = ulp * q := fun hb => by rw [hb, e0]
  have hbeq1 : b = shift * 2 ^ 23 + (q + 1) → den * magOf b = ulp * q + ulp := fun hb => by rw [hb, e1]
  have hblt : b < shift * 2 ^ 23 + q → den * magOf b < ulp * q := fun hb =>
    e0 ▸ Nat.mul_lt_mul_of_pos_left (magOf_strictMono hb) hd
  have hbgt : shift * 2 ^ 23 + (q + 1) < b → ulp * q + ulp < den * magOf b := fun hb =>
    e1 ▸ Nat.mul_lt_mul_of_pos_left (magOf_strictMono hb) hd
  have hpar : ∀ x, (shift * 2 ^ 23 + x) % 2 = x % 2 := fun x => by omega
  rw [hpar]
  have cast : ∀ x, (den : ℤ) * (magOf x : ℤ) = ((den * magOf x : Nat) : ℤ) := fun x => by push_cast; rfl
  rw [cast, cast]
  generalize hX : den * magOf b = X at *
  generalize hP : ulp * q = P at *
  by_cases hc : ulp < 2 * r ∨ 2 * r = ulp ∧ q % 2 = 1
  · rw [if_pos hc] at hq'
    rw [hq', e1]
    rcases Nat.lt_or_ge b (shift * 2 ^ 23 + (q + 1)) with hb | hb
    · have h1 := hbelow (by omega)
      constructor
      · rw [abs_of_nonpos (by omega), abs_of_nonneg (by omega)]; omega
      · intro heq _
        rw [abs_of_nonpos (by omega), abs_of_nonneg (by omega)] at heq
        omega
    · have h1 := habove hb
      constructor
      · rw [abs_of_nonpos (by omega), abs_of_nonpos (by omega)]; omega
      · intro heq hne
        have h2 := hbgt (by omega)
        rw [abs_of_nonpos (by omega), abs_of_nonpos (by omega)] at heq
        omega
  · rw [if_neg hc] at hq'
    rw [hq', e0]
    rcases Nat.lt_or_ge b (shift * 2 ^ 23 + (q + 1)) with hb | hb
    · have h1 := hbelow (by omega)
      constructor
      · rw [abs_of_nonneg (by omega), abs_of_nonneg (by omega)]; omega
      · intro heq hne
        have h2 := hblt (by omega)
        rw [abs_of_nonneg (by omega), abs_of_nonneg (by omega)] at heq
        omega
    · have h1 := habove hb
      constructor
      · rw [abs_of_nonneg (by omega), abs_of_nonpos (by omega)]; omega
      · intro heq _
        rw [abs_of_nonneg (by omega), abs_of_nonpos (by omega)] at heq
        omega

end Sys2Proof.Machine
end

