-- ==== Sys2Proof/Laws/Inv.lean ====
section
/-! SUPPORT. Each shared update keeps the invariant of `State.Inv` (10_state.md R45), under the range its caller has
checked. -/

namespace Sys2Proof.Machine

variable {s : State}

theorem setBit_masked {st : Word} {n : Nat} (h : st &&& ~~~statusMask = 0) (hn : BitVec.twoPow 32 n &&& ~~~statusMask = 0) :
    setBit st n &&& ~~~statusMask = 0 := by
  have e : (st ||| BitVec.twoPow 32 n) &&& ~~~statusMask =
      (st &&& ~~~statusMask) ||| (BitVec.twoPow 32 n &&& ~~~statusMask) := by
    apply BitVec.eq_of_getLsbD_eq
    intro i hi
    simp only [BitVec.getLsbD_and, BitVec.getLsbD_or, Bool.and_or_distrib_right]
  rw [setBit, e, h, hn]
  rfl

theorem setBit_warning {st : Word} (h : st &&& ~~~statusMask = 0) (w : Warning) :
    setBit st (warningBit w) &&& ~~~statusMask = 0 := setBit_masked h (by cases w <;> decide)

theorem setBit_error {st : Word} (h : st &&& ~~~statusMask = 0) (e : ErrorKind) :
    setBit st (errorBit e) &&& ~~~statusMask = 0 := setBit_masked h (by cases e <;> decide)

theorem clearWarnings_masked {st : Word} (h : st &&& ~~~statusMask = 0) : clearWarnings st &&& ~~~statusMask = 0 := by
  rw [clearWarnings, BitVec.and_assoc, BitVec.and_comm 0xFFFFFFF0, ← BitVec.and_assoc, h]
  simp

theorem State.Inv.respond (h : s.Inv) (v : Word) : (s.respond v).Inv :=
  ⟨h.legal, h.hwId, h.channels, h.capacity, h.alloc, h.wcurLength, h.rcurLength, h.wcurRange, h.rcurRange, h.feedback,
    h.mix, h.delaySamples, h.status, h.store, h.blk⟩

theorem State.Inv.warn (h : s.Inv) (w : Warning) : (s.warn w).Inv :=
  ⟨h.legal, h.hwId, h.channels, h.capacity, h.alloc, h.wcurLength, h.rcurLength, h.wcurRange, h.rcurRange, h.feedback,
    h.mix, h.delaySamples, setBit_warning h.status w, h.store, h.blk⟩

theorem State.Inv.raiseWord (h : s.Inv) (cmd : Word) (e : ErrorKind) : (s.raiseWord cmd e).Inv :=
  ⟨h.legal, h.hwId, h.channels, h.capacity, h.alloc, h.wcurLength, h.rcurLength, h.wcurRange, h.rcurRange, h.feedback,
    h.mix, h.delaySamples, setBit_error h.status e, h.store, h.blk⟩

theorem State.Inv.raise (h : s.Inv) (i : Instr) (e : ErrorKind) : (s.raise i e).Inv := h.raiseWord _ _

theorem State.Inv.warnIf (h : s.Inv) (b : Bool) (w : Warning) : (s.warnIf b w).Inv := by
  cases b
  · exact h
  · exact h.warn w

theorem State.Inv.clearWarningBits (h : s.Inv) : s.clearWarningBits.Inv :=
  ⟨h.legal, h.hwId, h.channels, h.capacity, h.alloc, h.wcurLength, h.rcurLength, h.wcurRange, h.rcurRange, h.feedback,
    h.mix, h.delaySamples, clearWarnings_masked h.status, h.store, h.blk⟩

theorem State.Inv.storeWrite (h : s.Inv) (c p : Nat) (v : Word) : (s.storeWrite c p v).Inv :=
  ⟨h.legal, h.hwId, h.channels, h.capacity, h.alloc, h.wcurLength, h.rcurLength, h.wcurRange, h.rcurRange, h.feedback,
    h.mix, h.delaySamples, h.status, Memory.write_wf h.store _ _, h.blk⟩

theorem State.Inv.blkWrite (h : s.Inv) (c i : Nat) (v : Word) : (s.blkWrite c i v).Inv :=
  ⟨h.legal, h.hwId, h.channels, h.capacity, h.alloc, h.wcurLength, h.rcurLength, h.wcurRange, h.rcurRange, h.feedback,
    h.mix, h.delaySamples, h.status, h.store, Memory.write_wf h.blk _ _⟩

theorem State.Inv.setWcur (h : s.Inv) (c : Nat) {p : Nat} (hp : p < 2 ^ 24) : (s.setWcur c p).Inv := by
  refine ⟨h.legal, h.hwId, h.channels, h.capacity, h.alloc, by simpa using h.wcurLength, h.rcurLength, fun w hw => ?_,
    h.rcurRange, h.feedback, h.mix, h.delaySamples, h.status, h.store, h.blk⟩
  rcases List.mem_or_eq_of_mem_set hw with hw | rfl
  · exact h.wcurRange w hw
  · rw [uint_wordOfNat (by omega)]; exact hp

theorem State.Inv.setRcur (h : s.Inv) (c : Nat) {p : Nat} (hp : p < 2 ^ 24) : (s.setRcur c p).Inv := by
  refine ⟨h.legal, h.hwId, h.channels, h.capacity, h.alloc, h.wcurLength, by simpa using h.rcurLength, h.wcurRange,
    fun w hw => ?_, h.feedback, h.mix, h.delaySamples, h.status, h.store, h.blk⟩
  rcases List.mem_or_eq_of_mem_set hw with hw | rfl
  · exact h.rcurRange w hw
  · rw [uint_wordOfNat (by omega)]; exact hp

theorem zero_replicate_range {n : Nat} : ∀ w ∈ List.replicate n (0 : Word), uint w < 2 ^ 24 := by
  intro w hw
  rw [(List.mem_replicate.1 hw).2]
  decide

theorem State.Inv.clearBuffer (h : s.Inv) : s.clearBuffer.Inv :=
  ⟨h.legal, h.hwId, h.channels, h.capacity, h.alloc, by simp, by simp, zero_replicate_range, zero_replicate_range,
    h.feedback, h.mix, h.delaySamples, h.status, Memory.wf_nil, h.blk⟩

theorem State.Inv.allocate (h : s.Inv) {n : Nat} (h1 : 1 ≤ n) (h2 : n ≤ s.hw.capMax) : (s.allocate n).Inv := by
  have h3 := h.legal.2.1.2
  have e : uint (wordOfNat n) = n := uint_wordOfNat (by omega)
  refine ⟨h.legal, h.hwId, h.channels, ?_, ?_, by simp, by simp, zero_replicate_range, zero_replicate_range,
    h.feedback, h.mix, h.delaySamples, h.status, Memory.wf_nil, h.blk⟩
  · rw [State.allocate_capacity, e]; omega
  · rw [State.allocate_alloc, State.allocate_hw, e]; omega

theorem State.Inv.setCapacity (h : s.Inv) {k : Word} (h1 : 1 ≤ uint k) (h2 : uint k ≤ 2 ^ 24) :
    (s.setCapacity k).Inv :=
  ⟨h.legal, h.hwId, h.channels, ⟨h1, h2⟩, h.alloc, h.wcurLength, h.rcurLength, h.wcurRange, h.rcurRange, h.feedback,
    h.mix, h.delaySamples, h.status, h.store, h.blk⟩

theorem State.Inv.setDelaySamples (h : s.Inv) {n : Nat} (hn : n ≤ 2 ^ 24) :
    (s.setDelaySamples n).Inv :=
  ⟨h.legal, h.hwId, h.channels, h.capacity, h.alloc, h.wcurLength, h.rcurLength, h.wcurRange, h.rcurRange, h.feedback,
    h.mix, by rw [State.setDelaySamples_delaySamples, uint_wordOfNat (by omega)]; exact hn, h.status, h.store, h.blk⟩

theorem State.Inv.setFeedback (h : s.Inv) {v : Word} (hv : unitWord s.hw.numFmt v = true) : (s.setFeedback v).Inv :=
  ⟨h.legal, h.hwId, h.channels, h.capacity, h.alloc, h.wcurLength, h.rcurLength, h.wcurRange, h.rcurRange, hv,
    h.mix, h.delaySamples, h.status, h.store, h.blk⟩

theorem State.Inv.setMix (h : s.Inv) {v : Word} (hv : unitWord s.hw.numFmt v = true) : (s.setMix v).Inv :=
  ⟨h.legal, h.hwId, h.channels, h.capacity, h.alloc, h.wcurLength, h.rcurLength, h.wcurRange, h.rcurRange, h.feedback,
    hv, h.delaySamples, h.status, h.store, h.blk⟩

theorem State.Inv.withInput (h : s.Inv) (inp : List PortEvent) : { s with input := inp }.Inv :=
  ⟨h.legal, h.hwId, h.channels, h.capacity, h.alloc, h.wcurLength, h.rcurLength, h.wcurRange, h.rcurRange, h.feedback,
    h.mix, h.delaySamples, h.status, h.store, h.blk⟩

/-- HALF and ONE are in [0, 1]. -/
theorem unitWord_half (f : NumFmt) : unitWord f f.half = true := by cases f <;> decide

theorem unitWord_one (f : NumFmt) : unitWord f f.one = true := by cases f <;> decide

theorem State.Inv.construct (h : s.Inv) {k : Word} (h1 : 1 ≤ uint k) (h2 : uint k ≤ s.hw.nchMax) :
    (s.construct k).Inv :=
  ⟨h.legal, h.hwId, ⟨h1, h2⟩, h.capacity, h.alloc, h.wcurLength, h.rcurLength, h.wcurRange, h.rcurRange, unitWord_half _,
    unitWord_one _, Nat.zero_le _, h.status, h.store, h.blk⟩

/-- CLAMP01 lands in [0, 1] (R39). -/
theorem unitWord_clamp01 (f : NumFmt) (v : Word) : unitWord f (clamp01 f v).1 = true := by
  cases f with
  | f32 =>
    simp only [clamp01, clampF32]
    split
    · decide
    split
    · decide
    split
    · decide
    split
    · decide
    · next h1 h2 h3 h4 =>
      have hne : v ≠ 0x80000000 := fun e => h4 (by rw [e]; decide)
      simpa [unitWord, h1, h2, h3] using hne
  | q824 =>
    simp only [clamp01, clampQ]
    split
    · decide
    split
    · decide
    · simp only [unitWord, decide_eq_true_eq]; omega

/-- The cursors a step and a reposition write are below CAPACITY, so below 2^24. -/
theorem State.Inv.adv_lt (h : s.Inv) (p : Nat) : s.adv p < uint s.capacity :=
  advance_lt (by have := h.capacity; omega) p

theorem State.Inv.lagSlot_lt (h : s.Inv) (c lag : Nat) : s.lagSlot c lag < uint s.capacity :=
  lagPosition_lt (by have := h.capacity; omega) _ _

theorem State.Inv.reposition (h : s.Inv) (ds c : Nat) : (s.reposition ds c).Inv := by
  rw [State.reposition_eq]
  split
  · exact h.setRcur c (by have := h.lagSlot_lt c ds; have := h.capacity; omega)
  · exact h

theorem State.Inv.stepState (h : s.Inv) (c : Nat) (x f : Word) : (Machine.stepState c x f s).Inv := by
  have h1 := h.adv_lt (s.rcurAt c)
  have h2 := h.adv_lt (s.wcurAt c)
  have h3 := h.capacity
  exact ((h.setRcur c (by omega)).storeWrite _ _ _).setWcur c (by omega)

end Sys2Proof.Machine
end

