-- ==== Sys2Proof/Laws/Loop.lean ====
section
/-! SUPPORT. The block loop of DE.PROCESS (41_delay_effect.md R167): what each iteration keeps, the whole loop keeps; and
how one iteration ends in a state that keeps the invariant. -/

namespace Sys2Proof.Machine

/-- A loop's end: `P` of the state when every iteration has run, `Q` of the state an ACCESS leaves, `R` when a word does
not exist. -/
def LoopEnds (P Q : State → Prop) (R : Prop) : LoopOutcome → Prop
  | .done t => P t
  | .access t => Q t
  | .absent => R

/-- What every iteration on channel `c` at an index in [i, i + todo) keeps, the inner loop keeps. -/
theorem processRow_ends {P Q : State → Prop} {R : Prop} {c : Nat} (todo : Nat) {i : Nat} {s : State}
    (hstep : ∀ j u, i ≤ j → j < i + todo → P u → LoopEnds P Q R (processSample c j u)) (hs : P s) :
    LoopEnds P Q R (processRow c todo i s) := by
  induction todo generalizing i s with
  | zero => exact hs
  | succ n ih =>
    have h1 := hstep i s (by omega) (by omega) hs
    simp only [processRow]
    cases hp : processSample c i s with
    | done t =>
      rw [hp] at h1
      exact ih (fun j u hj hj' hu => hstep j u (by omega) (by omega) hu) h1
    | access t => rw [hp] at h1; exact h1
    | absent => rw [hp] at h1; exact h1

/-- What every iteration on a channel in [c, c + todo) at an index below `ns` keeps, the whole loop keeps. -/
theorem processRows_ends {P Q : State → Prop} {R : Prop} {ns : Nat} (todo : Nat) {c : Nat} {s : State}
    (hstep : ∀ d j u, c ≤ d → d < c + todo → j < ns → P u → LoopEnds P Q R (processSample d j u)) (hs : P s) :
    LoopEnds P Q R (processRows ns todo c s) := by
  induction todo generalizing c s with
  | zero => exact hs
  | succ n ih =>
    have h1 := processRow_ends (c := c) ns (i := 0) (fun j u _ hj hu => hstep c j u (by omega) (by omega) (by omega) hu) hs
    simp only [processRows]
    cases hp : processRow c ns 0 s with
    | done t =>
      rw [hp] at h1
      exact ih (fun d j u hd hd' hj hu => hstep d j u (by omega) (by omega) hj hu) h1
    | access t => rw [hp] at h1; exact h1
    | absent => rw [hp] at h1; exact h1

/-- The inner loop over `m + n` indices is the loop over the first `m`, then over the rest. -/
theorem processRow_add (c m n i : Nat) (s : State) :
    processRow c (m + n) i s =
      match processRow c m i s with
      | .done t => processRow c n (i + m) t
      | .access t => .access t
      | .absent => .absent := by
  induction m generalizing i s with
  | zero => simp [processRow]
  | succ m ih =>
    rw [Nat.succ_add]
    simp only [processRow]
    cases processSample c i s with
    | done t => simp only [ih, Nat.add_assoc, Nat.add_comm 1 m]
    | access t => rfl
    | absent => rfl

/-- One iteration in a state that keeps R45. -/
theorem processSample_of_inv {s : State} (h : s.Inv) (c i : Nat) :
    processSample c i s =
      if s.valid c = true then
        if uint s.alloc ≤ s.rcurAt c ∨ uint s.alloc ≤ s.wcurAt c then .access s
        else .done ((stepState c (s.blkRead c i) s.feedback s).blkWrite c i
          (blend s.hw.numFmt s.mix (mac s.hw.numFmt (s.blkRead c i) s.feedback (s.storeRead c (s.rcurAt c)))
            (s.blkRead c i)))
      else .done ((s.warn .chInv).blkWrite c i (blend s.hw.numFmt s.mix s.hw.numFmt.zero (s.blkRead c i))) := by
  unfold processSample
  rw [mixSample_of_inv h]
  split <;> rename_i heq <;> split at heq <;> (try split at heq) <;> simp_all

/-- An iteration keeps the invariant, and in a state that keeps it never meets a word that does not exist. -/
theorem processSample_inv {s : State} (h : s.Inv) (c i : Nat) :
    LoopEnds State.Inv (fun t => t = s) False (processSample c i s) := by
  rw [processSample_of_inv h]
  split
  · split
    · rfl
    · exact (h.stepState c _ _).blkWrite _ _ _
  · exact (h.warn .chInv).blkWrite _ _ _

/-- The whole loop keeps the invariant. -/
theorem processRows_inv {s : State} (h : s.Inv) (ns nc c : Nat) :
    LoopEnds State.Inv State.Inv False (processRows ns nc c s) :=
  processRows_ends nc (fun d j u _ _ _ hu => by
    have := processSample_inv hu d j
    cases hp : processSample d j u with
    | done t => rw [hp] at this; exact this
    | access t => rw [hp] at this; exact this ▸ hu
    | absent => rw [hp] at this; exact this) h

/-! ### The loop as a list of samples -/

/-- Iterations over a list of (channel, index) pairs, in order. -/
def processList : List (Nat × Nat) → State → LoopOutcome
  | [], s => .done s
  | (c, i) :: rest, s =>
    match processSample c i s with
    | .done t => processList rest t
    | .access t => .access t
    | .absent => .absent

theorem processList_append (l m : List (Nat × Nat)) (s : State) :
    processList (l ++ m) s =
      match processList l s with
      | .done t => processList m t
      | .access t => .access t
      | .absent => .absent := by
  induction l generalizing s with
  | nil => rfl
  | cons e l ih =>
    obtain ⟨c, i⟩ := e
    simp only [List.cons_append, processList]
    cases processSample c i s with
    | done t => exact ih t
    | access t => rfl
    | absent => rfl

theorem processRow_eq_list (c n i : Nat) (s : State) :
    processRow c n i s = processList ((List.range' i n).map (fun j => (c, j))) s := by
  induction n generalizing i s with
  | zero => rfl
  | succ n ih =>
    simp only [processRow, List.range'_succ, List.map_cons, processList]
    cases processSample c i s <;> simp only [ih]

theorem processRows_eq_list_from (ns n c : Nat) (s : State) :
    processRows ns n c s =
      processList ((List.range' c n).flatMap (fun d => (List.range ns).map (fun j => (d, j)))) s := by
  induction n generalizing c s with
  | zero => rfl
  | succ n ih =>
    simp only [processRows, List.range'_succ, List.flatMap_cons, processList_append, processRow_eq_list,
      List.range_eq_range']
    cases processList ((List.range' 0 ns).map (fun j => (c, j))) s <;> simp only [ih, List.range_eq_range']

/-- R167's two loops visit exactly the pairs of `blockPairs`, in that order. -/
theorem processRows_eq_list (ns nc : Nat) (s : State) : processRows ns nc 0 s = processList (blockPairs nc ns) s := by
  rw [processRows_eq_list_from, blockPairs, List.range_eq_range' (n := nc)]

theorem mem_blockPairs {nc ns c i : Nat} : (c, i) ∈ blockPairs nc ns ↔ c < nc ∧ i < ns := by
  simp [blockPairs]

end Sys2Proof.Machine
end

