-- ==== Sys2Proof/Laws/PerInstr.lean ====
section
/-! SUPPORT. Per command: its encoded word carries the opcode of its row, its channel and index operands in their fields
and 0 where it has none (30_encoding.md R81, R84), and the encoded word is a word of its row when the command is well
formed. -/

namespace Sys2Proof.Laws

open Sys2Proof.Machine

/-- The word of a command: the opcode of its row, its operands in their fields, and (well formed) a word of that row. -/
def EncodedFields.Statement (i : Instr) : Prop :=
  opcField (encode i).cmd = i.opcode.code ∧ chField (encode i).cmd = i.chOperand ∧
    idxField (encode i).cmd = i.idxOperand ∧ (i.wellFormed = true → MatchesRow i.opcode (encode i).cmd)

/-- The statement from what is left to see of one command. -/
theorem EncodedFields.of_zeros {i : Instr} (hc : i.opcode.takesChannel = false → i.chOperand = 0)
    (hi : i.opcode.takesIndex = false → i.idxOperand = 0)
    (hs : i.wellFormed = true → i.opcode = .regRd → i.idxOperand.toNat ≤ 0x000C) : EncodedFields.Statement i := by
  have h1 : opcField (encode i).cmd = i.opcode.code := opcField_packCmd ..
  have h2 : chField (encode i).cmd = i.chOperand := chField_packCmd ..
  have h3 : idxField (encode i).cmd = i.idxOperand := idxField_packCmd ..
  exact ⟨h1, h2, h3, fun hw => ⟨h1, fun h => h2.trans (hc h), fun h => h3.trans (hi h), fun h => h3 ▸ hs hw h⟩⟩

theorem EncodedFields.nop : EncodedFields.Statement (.nop) :=
  EncodedFields.of_zeros (fun _ => rfl) (fun _ => rfl) nofun

theorem EncodedFields.init (m : Word) (n : Word) : EncodedFields.Statement (.init m n) :=
  EncodedFields.of_zeros (fun _ => rfl) (fun _ => rfl) nofun

theorem EncodedFields.rbWrite (ch : BitVec 8) (x : Word) : EncodedFields.Statement (.rbWrite ch x) :=
  EncodedFields.of_zeros nofun (fun _ => rfl) nofun

theorem EncodedFields.rbRead (ch : BitVec 8) : EncodedFields.Statement (.rbRead ch) :=
  EncodedFields.of_zeros nofun (fun _ => rfl) nofun

theorem EncodedFields.rbSetrp (ch : BitVec 8) (l : Word) : EncodedFields.Statement (.rbSetrp ch l) :=
  EncodedFields.of_zeros nofun (fun _ => rfl) nofun

theorem EncodedFields.rbReset : EncodedFields.Statement (.rbReset) :=
  EncodedFields.of_zeros (fun _ => rfl) (fun _ => rfl) nofun

theorem EncodedFields.rbResize (n : Word) : EncodedFields.Statement (.rbResize n) :=
  EncodedFields.of_zeros (fun _ => rfl) (fun _ => rfl) nofun

theorem EncodedFields.rbGetcap : EncodedFields.Statement (.rbGetcap) :=
  EncodedFields.of_zeros (fun _ => rfl) (fun _ => rfl) nofun

theorem EncodedFields.rbSetcapf (k : Word) : EncodedFields.Statement (.rbSetcapf k) :=
  EncodedFields.of_zeros (fun _ => rfl) (fun _ => rfl) nofun

theorem EncodedFields.rbStep (ch : BitVec 8) (x : Word) (f : Word) : EncodedFields.Statement (.rbStep ch x f) :=
  EncodedFields.of_zeros nofun (fun _ => rfl) nofun

theorem EncodedFields.rbGetwc (ch : BitVec 8) : EncodedFields.Statement (.rbGetwc ch) :=
  EncodedFields.of_zeros nofun (fun _ => rfl) nofun

theorem EncodedFields.rbGetrc (ch : BitVec 8) : EncodedFields.Statement (.rbGetrc ch) :=
  EncodedFields.of_zeros nofun (fun _ => rfl) nofun

theorem EncodedFields.deReset (sr : Word) (ms : Word) : EncodedFields.Statement (.deReset sr ms) :=
  EncodedFields.of_zeros (fun _ => rfl) (fun _ => rfl) nofun

theorem EncodedFields.deSetdly (ms : Word) (sr : Word) : EncodedFields.Statement (.deSetdly ms sr) :=
  EncodedFields.of_zeros (fun _ => rfl) (fun _ => rfl) nofun

theorem EncodedFields.deSetfb (v : Word) : EncodedFields.Statement (.deSetfb v) :=
  EncodedFields.of_zeros (fun _ => rfl) (fun _ => rfl) nofun

theorem EncodedFields.deSetmix (v : Word) : EncodedFields.Statement (.deSetmix v) :=
  EncodedFields.of_zeros (fun _ => rfl) (fun _ => rfl) nofun

theorem EncodedFields.deMixstep (ch : BitVec 8) (x : Word) : EncodedFields.Statement (.deMixstep ch x) :=
  EncodedFields.of_zeros nofun (fun _ => rfl) nofun

theorem EncodedFields.deProcess (nc : Word) (ns : Word) : EncodedFields.Statement (.deProcess nc ns) :=
  EncodedFields.of_zeros (fun _ => rfl) (fun _ => rfl) nofun

theorem EncodedFields.blkWr (ch : BitVec 8) (idx : BitVec 16) (v : Word) : EncodedFields.Statement (.blkWr ch idx v) :=
  EncodedFields.of_zeros nofun nofun nofun

theorem EncodedFields.blkRd (ch : BitVec 8) (idx : BitVec 16) : EncodedFields.Statement (.blkRd ch idx) :=
  EncodedFields.of_zeros nofun nofun nofun

theorem EncodedFields.regRd (sel : BitVec 16) : EncodedFields.Statement (.regRd sel) :=
  EncodedFields.of_zeros (fun _ => rfl) nofun (fun h _ => by simpa [Instr.wellFormed, selectorInTable, Instr.idxOperand] using h)

theorem EncodedFields.statClr : EncodedFields.Statement (.statClr) :=
  EncodedFields.of_zeros (fun _ => rfl) (fun _ => rfl) nofun

end Sys2Proof.Laws
end

