-- ==== Sys2Proof/Laws/Port.lean ====
section
/-! SUPPORT. The clocked ports: what the host must hold, what a finished command leaves, and when an edge has an
outcome. -/

namespace Sys2Proof.Machine

theorem hostHolds_iff (p : PortState) (x : PortInputs) :
    hostHolds p x = true ↔ ∀ c, p.waiting = some c → x.cmdValid = true ∧ x.cmd = c := by
  unfold hostHolds
  cases p.waiting with
  | none => simp
  | some c => simp

/-- A host that does not hold its waiting command has no move. -/
theorem portEdge_of_not_holds {p : PortState} {x : PortInputs} (h : hostHolds p x = false) :
    portEdge x p = .refused .hostMove := by simp [portEdge, h]

/-- A finished command stays in hand, and its response is offered. -/
theorem portFinish_eq {core after : State} {c : Command} {r : Response} (h : runCommand c core = .next after)
    (ho : after.output = core.output ++ [r]) : portFinish core c = .next (core, .responding c after r) := by
  have hl : after.output.getLast? = some r := by rw [ho]; simp
  unfold portFinish
  rw [h]
  simp only [hl]

/-- An edge with an outcome is a move of SDRB under a host that holds. -/
theorem portEdge_next {p q : PortState} {x : PortInputs} :
    portEdge x p = .next q ↔
      hostHolds p x = true ∧ q.waiting = waitingAfter p x ∧ portMove x p = .next (q.core, q.phase) := by
  obtain ⟨core, phase, waiting⟩ := q
  unfold portEdge
  split
  · next h =>
    split
    · next e => simp only [h, e, Host.Outcome.next.injEq, PortState.mk.injEq, Prod.mk.injEq, true_and]; tauto
    · next e => simp [e]
    · next e => simp [e]
  · next h => simp [h]

end Sys2Proof.Machine
end

