-- ==== Sys2Proof/Tests/Slice0.lean ====
section
/-! SUPPORT. Tests. The expected values of the one-step tests come from 95_test_vectors.md (the vector is named); the
`witness_<Name>` theorems show, for each statement with hypotheses, states and operands that meet them, at the boundaries
of each clause. -/

namespace Sys2Proof.Tests

-- One theorem at a time: this file has many short kernel evaluations, and a thread for each exhausts the address space.
set_option Elab.async false

open Sys2Proof.Machine

/-! ### Helpers -/

/-- The state a command leaves, if it leaves one. -/
def run (i : Instr) (s : State) : Option State :=
  match exec i s with
  | .next t => some t
  | .fault _ => none
  | .refused _ => none

/-- The state a command leaves (the state itself where it stops). -/
def after (i : Instr) (s : State) : State := (run i s).getD s

theorem exec_after (i : Instr) (s : State) (h : (run i s).isSome = true) : exec i s = .next (after i s) := by
  unfold after run at *
  split at h <;> simp_all

/-- The state a step leaves, if it leaves one. -/
def stepOf (s : State) : Option State :=
  match step s with
  | .next t => some t
  | .fault _ => none
  | .refused _ => none

theorem step_stepOf (s t : State) (h : stepOf s = some t) : step s = .next t := by
  unfold stepOf at h
  split at h <;> simp_all

/-- A few fields of what a command leaves: its response, and STATUS and ERR_CMD. -/
def shown (t : State) : Option Response × Word × Word := (t.lastResponse, t.status, t.errCmd)

/-- S(n, k) of 95_test_vectors.md. -/
def S (n k : Word) : State := { State.reset with channels := k, capacity := n, alloc := n }

/-- D(d) of 95_test_vectors.md. -/
def D (d : Word) : State := { S 4 1 with store := [(0, d)], wcur := (S 4 1).wcur.set 0 1 }

/-- D(d) in the profile Q8_24. -/
def Q (d : Word) : State :=
  { D d with hw := { Params.reference with numFmt := .q824 }, feedback := 0x00800000, mix := 0x01000000 }

/-- A response with ERR 0. -/
def ok (v : Word) : Option Response := some { data := v, err := false }

/-- The response of an error. -/
def bad : Option Response := some { data := 0, err := true }

/-! ### Well-formedness -/

theorem test_wellFormed_last_selector : (Instr.regRd 12).wellFormed = true := by decide

theorem test_illFormed_selector : (Instr.regRd 13).wellFormed = false := by decide

theorem test_illFormed_top_selector : (Instr.regRd 0xFFFF).wellFormed = false := by decide

/-! ### Decoding: a word written out from R84 for each constructor -/

/-- What a command word with these arguments decodes to. -/
def dec (w a b : Nat) : Option Instr := decodeTableWord 96 (w + a * 2 ^ 32 + b * 2 ^ 64)

theorem test_decode_nop : dec 0x00000000 0 0 = some .nop := by decide
theorem test_decode_init : dec 0x01000000 4 8 = some (.init 4 8) := by decide
theorem test_decode_rbWrite : dec 0x10FF0000 0x40000000 0 = some (.rbWrite 255 0x40000000) := by decide
theorem test_decode_rbRead : dec 0x11030000 0 0 = some (.rbRead 3) := by decide
theorem test_decode_rbSetrp : dec 0x12010000 0x7F800000 0 = some (.rbSetrp 1 0x7F800000) := by decide
theorem test_decode_rbReset : dec 0x13000000 0 0 = some .rbReset := by decide
theorem test_decode_rbResize : dec 0x14000000 0x00100000 0 = some (.rbResize 0x00100000) := by decide
theorem test_decode_rbGetcap : dec 0x15000000 0xDEADBEEF 0x12345678 = some .rbGetcap := by decide
theorem test_decode_rbSetcapf : dec 0x16000000 0x01000001 0 = some (.rbSetcapf 0x01000001) := by decide
theorem test_decode_rbStep : dec 0x17020000 0x3F800000 0x3F000000 = some (.rbStep 2 0x3F800000 0x3F000000) := by decide
theorem test_decode_rbGetwc : dec 0x18020000 0 0 = some (.rbGetwc 2) := by decide
theorem test_decode_rbGetrc : dec 0x19050000 0 0 = some (.rbGetrc 5) := by decide
theorem test_decode_deReset : dec 0x20000000 0x0000AC44 1 = some (.deReset 44100 1) := by decide
theorem test_decode_deSetdly : dec 0x21000000 0x0000000A 0x000003E8 = some (.deSetdly 10 1000) := by decide
theorem test_decode_deSetfb : dec 0x22000000 0x3FC00000 0 = some (.deSetfb 0x3FC00000) := by decide
theorem test_decode_deSetmix : dec 0x23000000 0xBE800000 0 = some (.deSetmix 0xBE800000) := by decide
theorem test_decode_deMixstep : dec 0x24010000 0x40000000 0 = some (.deMixstep 1 0x40000000) := by decide
theorem test_decode_deProcess : dec 0x25000000 1 0x00000401 = some (.deProcess 1 1025) := by decide
theorem test_decode_blkWr : dec 0x30010002 0x3F000000 0 = some (.blkWr 1 2 0x3F000000) := by decide
theorem test_decode_blkRd : dec 0x310703FF 0 0 = some (.blkRd 7 1023) := by decide
theorem test_decode_regRd : dec 0x4000000C 0 0 = some (.regRd 12) := by decide
theorem test_decode_statClr : dec 0x41000000 0 0 = some .statClr := by decide

/-- V-EX-01 to V-EX-10: each word is refused for its own reason. -/
theorem test_decode_refusals :
    [0x00010000, 0x00000001, 0x10000001, 0x02000000, 0xFFFFFFFF, 0x4000000D, 0x40010000].map
        (fun w => match decode { cmd := w, arg0 := 0, arg1 := 0 } with | .ok _ => none | .error e => some e) =
      [some .nonzeroChannel, some .nonzeroIndex, some .nonzeroIndex, some .reservedOpcode, some .reservedOpcode,
        some .reservedSelector, some .nonzeroChannel] := by decide

/-- The first step after reset runs the command that is placed. -/
theorem test_withFetchWord :
    (stepOf (State.reset.withFetchWord 96 0x000000013F80000010000000)).map
        (fun t => (shown t, t.storeRead 0 0, t.wcurAt 0)) = some ((ok 0, 0, 0), 0x3F800000, 1) := by decide +kernel

/-! ### Ring-buffer commands -/

/-- V-RB-01. -/
theorem test_rbWrite_wraps :
    (run (.rbWrite 0 0x40000000) { S 4 1 with wcur := (S 4 1).wcur.set 0 3 }).map
        (fun t => (shown t, t.storeRead 0 3, t.wcurAt 0)) = some ((ok 0, 0, 0), 0x40000000, 0) := by decide +kernel

/-- V-RB-03. -/
theorem test_rbWrite_invalid_channel :
    (run (.rbWrite 255 0x40000000) (S 4 1)).map (fun t => (shown t, t.store, t.wcurAt 0)) =
      some ((ok 0, 1, 0), [], 0) := by decide +kernel

/-- V-RB-06. -/
theorem test_rbRead_wraps :
    (run (.rbRead 0) { S 2 1 with store := [(1, 0x3F800000)], rcur := (S 2 1).rcur.set 0 1 }).map
        (fun t => (shown t, t.rcurAt 0)) = some ((ok 0x3F800000, 0, 0), 0) := by decide +kernel

/-- V-EX-12: the channel check precedes the slot check. -/
theorem test_rbRead_channel_first :
    (run (.rbRead 3) { S 4 1 with capacity := 8, rcur := (S 4 1).rcur.set 0 7 }).map shown =
      some (ok 0, 1, 0) := by decide +kernel

/-- V-RB-09, V-RB-10, V-RB-14, V-RB-15, V-RB-17, V-RB-18. -/
theorem test_rbSetrp_lags :
    [0x406CCCCD, 0xC0200000, 0x41100000, 0x7149F2CA, 0x3F7FBE77, 0x00000001].map
        (fun v => (run (.rbSetrp 0 v) (S 4 1)).map (fun t => (shown t, t.rcurAt 0))) =
      [1, 0, 3, 0, 0, 0].map (fun r => some ((ok 0, 0, 0), r)) := by decide +kernel

/-- V-RB-12 and V-RB-16. -/
theorem test_rbSetrp_infinite_lag :
    (run (.rbSetrp 0 0x7F800000) (S 4 1)).map shown = some (bad, 0x200, 0x12000000) ∧
      (run (.rbSetrp 1 0x7F800000) (S 4 1)).map shown = some (ok 0, 1, 0) := by decide +kernel

/-- V-RB-08's RB.RESET. -/
theorem test_rbReset :
    (run .rbReset (D 0x3F800000)).map (fun t => (shown t, t.store, t.wcur, t.capacity)) =
      some ((ok 0, 0, 0), [], List.replicate 8 0, 4) := by decide +kernel

/-- V-RB-19 and V-RB-20. -/
theorem test_rbResize_out_of_range :
    [0, 0xFFFFFFFF, 0x00100001].map (fun n => (run (.rbResize n) (S 4 1)).map (fun t => (shown t, t.capacity))) =
      List.replicate 3 (some ((bad, 0x200, 0x14000000), 4)) := by decide +kernel

/-- V-RB-21. -/
theorem test_rbResize :
    (run (.rbResize 0x00100000) (D 0x3F800000)).map (fun t => (shown t, t.capacity, t.alloc, t.store.length + t.wcurAt 0)) =
      some ((ok 0, 0, 0), 0x00100000, 0x00100000, 0) := by decide +kernel

/-- V-RB-22. -/
theorem test_rbGetcap : (run .rbGetcap (S 4 1)).map shown = some (ok 4, 0, 0) := by decide +kernel

/-- V-RB-23. -/
theorem test_rbSetcapf :
    [0, 0x01000001, 0x01000000].map (fun k => (run (.rbSetcapf k) (S 4 1)).map (fun t => (shown t, t.capacity, t.alloc))) =
      [some ((bad, 0x200, 0x16000000), 4, 4), some ((bad, 0x200, 0x16000000), 4, 4),
        some ((ok 0, 0, 0), 0x01000000, 4)] := by decide +kernel

/-- V-RB-26. -/
theorem test_rbStep :
    (run (.rbStep 0 0x3F800000 0x3F000000) (D 0x3F000000)).map
        (fun t => (shown t, t.storeRead 0 1, t.wcurAt 0, t.rcurAt 0)) =
      some ((ok 0x3FA00000, 0, 0), 0x3FA00000, 2, 1) := by decide +kernel

/-- V-RB-24, 25, 27, 29, 30, 31, 32, 33: signs of zero, NaN, overflow, ties, unfused rounding. -/
theorem test_rbStep_numbers :
    [(0, 0x80000000, 0), (0xBF800000, 0x80000000, 0), (0x7F800000, 0x3F800000, 0), (0x7F61B1E6, 0x7F61B1E6, 0x3F800000),
        (0x3F000000, 1, 1), (0x3FC00000, 0x3E800000, 0x40000000), (0x3DCCCCCD, 0x3E99999A, 0xBF800000),
        (0x3DCCCCCD, 0x3DCCCCCD, 0x3DCCCCCD)].map
        (fun (d, x, f) => (run (.rbStep 0 x f) (D d)).bind (fun t => t.lastResponse)) =
      [0, 0x80000000, 0x7FC00000, 0x7F800000, 1, 0x40500000, 0x3E4CCCCE, 0x3DE147AE].map ok := by decide +kernel

/-- V-RB-36, and the channel that does not exist (V-RB-37). -/
theorem test_rbGetwc :
    (run (.rbGetwc 0) (D 0x3F800000)).map shown = some (ok 1, 0, 0) ∧
      (run (.rbGetwc 5) (D 0x3F800000)).map shown = some (ok 0, 1, 0) := by decide +kernel

/-- V-RB-37, and program P6's read cursor. -/
theorem test_rbGetrc :
    (run (.rbGetrc 5) (S 4 1)).map shown = some (ok 0, 1, 0) ∧
      (run (.rbGetrc 2) { S 4 3 with rcur := (S 4 3).rcur.set 2 1 }).map shown = some (ok 1, 0, 0) := by decide +kernel

/-! ### Delay-effect commands -/

/-- V-DE-02, V-DE-03, V-DE-04, V-DE-06. -/
theorem test_init_out_of_range :
    [(0, 1), (4, 0), (4, 9), (0x00100001, 1)].map
        (fun (n, k) => (run (.init n k) State.reset).map (fun t => (shown t, t.capacity))) =
      List.replicate 4 (some ((bad, 0x200, 0x01000000), 0x00100000)) := by decide +kernel

/-- V-DE-07. -/
theorem test_init_keeps_blk :
    (run (.init 4 2) { State.reset with feedback := 0x3E99999A, mix := 0x3F400000, blk := [(0, 0x40000000)] }).map
        (fun t => (shown t, t.feedback, t.mix, t.blkRead 0 0, t.capacity, t.channels)) =
      some ((ok 0, 0, 0), 0x3F000000, 0x3F800000, 0x40000000, 4, 2) := by decide +kernel

/-- V-DE-08, V-DE-09, V-DE-13. -/
theorem test_deReset :
    [(1000, 3), (44100, 1), (48000, 21845)].map
        (fun (r, m) => (run (.deReset r m) (S 8 2)).map (fun t => (shown t, t.delaySamples, t.capacity, t.alloc))) =
      [3, 44, 1048560].map (fun n => some ((ok 0, 0, 0), n, n, n)) := by decide +kernel

/-- V-DE-10, V-DE-11, V-DE-12, V-DE-14. -/
theorem test_deReset_out_of_range :
    [(999, 1), (0xFFFFFFFF, 5), (48000, 22000), (0x7FFFFFFF, 0x7FFFFFFF)].map
        (fun (r, m) => (run (.deReset r m) (S 8 2)).map (fun t => (shown t, t.capacity))) =
      List.replicate 4 (some ((bad, 0x200, 0x20000000), 8)) := by decide +kernel

/-- V-DE-20 and V-DE-19: channels 0 and 1 only, each only if valid. -/
theorem test_deSetdly :
    (run (.deSetdly 2 1000) (S 4 4)).map (fun t => (shown t, t.rcur.take 4, t.delaySamples)) =
        some ((ok 0, 0, 0), [2, 2, 0, 0], 2) ∧
      (run (.deSetdly 2 1000) (S 4 1)).map (fun t => (shown t, t.rcur.take 4)) =
        some ((ok 0, 0, 0), [2, 0, 0, 0]) := by decide +kernel

/-- V-DE-23, V-DE-21 and V-DE-18: the clamp and the negative time. -/
theorem test_deSetdly_clamps :
    (run (.deSetdly 3 1000) (S 3 2)).map (fun t => (shown t, t.rcur.take 2, t.delaySamples)) =
        some ((ok 0, 8, 0), [1, 1], 2) ∧
      (run (.deSetdly 5 1000) (S 1 2)).map (fun t => (shown t, t.delaySamples)) = some ((ok 0, 8, 0), 0) ∧
      (run (.deSetdly 0xFFFFFFFF 1000) (S 4 2)).map shown = some (bad, 0x200, 0x21000000) := by decide +kernel

/-- V-DE-24. -/
theorem test_deSetfb :
    [0x3E99999A, 0x3FC00000, 0xBE800000, 0x7FC00000, 0x80000000, 0x7F800000, 0xFF800000, 0x3F800000, 0, 1, 0x3F800001].map
        (fun v => (run (.deSetfb v) State.reset).map (fun t => (t.feedback, t.status))) =
      [(0x3E99999A, 0), (0x3F800000, 2), (0, 2), (0x3F800000, 2), (0, 0), (0x3F800000, 2), (0, 2), (0x3F800000, 0), (0, 0),
        (1, 0), (0x3F800000, 2)].map some := by decide +kernel

/-- V-DE-25 and V-DE-26. -/
theorem test_deSetmix :
    [0xBE800000, 0x3F400000].map (fun v => (run (.deSetmix v) State.reset).map (fun t => (t.mix, t.status))) =
      [some (0, 4), some (0x3F400000, 0)] := by decide +kernel

/-- V-DE-27. -/
theorem test_deMixstep :
    (run (.deMixstep 0 0x3F800000) { D 0x3F800000 with mix := 0x3F000000 }).map
        (fun t => (shown t, t.storeRead 0 1, t.wcurAt 0, t.rcurAt 0)) =
      some ((ok 0x3FA00000, 0, 0), 0x3FC00000, 2, 1) := by decide +kernel

/-- V-DE-28. -/
theorem test_deMixstep_invalid_channel :
    (run (.deMixstep 1 0x40000000) { S 4 1 with mix := 0x3E800000 }).map (fun t => (shown t, t.wcurAt 0, t.wcurAt 1)) =
      some ((ok 0x3FC00000, 1, 0), 0, 0) := by decide +kernel

/-- V-DE-35. -/
theorem test_deProcess :
    (run (.deProcess 2 2)
        { S 4 1 with mix := 0x3F000000, blk := [(0, 0x3F800000), (2 ^ 32, 0x40000000), (2 ^ 32 + 1, 0x40800000)] }).map
        (fun t => (shown t, [t.blkRead 0 0, t.blkRead 0 1, t.blkRead 1 0, t.blkRead 1 1], t.wcurAt 0, t.rcurAt 0)) =
      some ((ok 0, 1, 0), [0x3F800000, 0, 0x3F800000, 0x40000000], 2, 2) := by decide +kernel

/-- V-DE-36. -/
theorem test_deProcess_access :
    (run (.deProcess 1 3)
        { S 4 1 with capacity := 6, wcur := (S 4 1).wcur.set 0 3, rcur := (S 4 1).rcur.set 0 3,
                     blk := [(0, 0x3F800000), (1, 0x40000000), (2, 0x40400000)] }).map
        (fun t => (shown t, [t.blkRead 0 0, t.blkRead 0 1, t.blkRead 0 2], t.storeRead 0 3, t.wcurAt 0, t.rcurAt 0)) =
      some ((bad, 0x400, 0x25000000), [0x3F800000, 0x40000000, 0x40400000], 0x3F800000, 4, 4) := by decide +kernel

/-! ### Host-access commands -/

/-- V-HA-01. -/
theorem test_nop : run .nop (D 0x3F800000) = some ((D 0x3F800000).respond 0) := by decide +kernel

/-- V-HA-02 and V-HA-04. -/
theorem test_blkWr :
    (run (.blkWr 1 2 0x3F000000) State.reset).map (fun t => (shown t, t.blkRead 1 2)) = some ((ok 0, 0, 0), 0x3F000000) ∧
      (run (.blkWr 8 0 0x3F000000) State.reset).map (fun t => (shown t, t.blk)) = some ((bad, 0x200, 0x30080000), []) := by
  decide +kernel

/-- V-HA-03, V-HA-05, V-HA-06, V-HA-07. -/
theorem test_blkRd :
    let s : State := { State.reset with blk := [(0, 0x7F800001), (2 ^ 32 + 2, 0x3F000000)] }
    [(1, 2), (0, 1024), (7, 1023), (0, 0)].map (fun (c, i) => (run (.blkRd c i) s).map shown) =
      [(ok 0x3F000000, 0, 0), (bad, 0x200, 0x31000400), (ok 0, 0, 0), (ok 0x7F800001, 0, 0)].map some := by decide +kernel

/-- V-HA-08. -/
theorem test_regRd :
    (List.range 13).map (fun n => (run (.regRd (BitVec.ofNat 16 n)) (S 4 2)).bind (fun t => t.lastResponse)) =
      [0, 4, 4, 2, 0x3F000000, 0x3F800000, 0, 0, 0, 8, 0x00100000, 0x00000400, 0x53440100].map ok := by decide +kernel

/-- V-EX-09 and V-EX-11. -/
theorem test_regRd_errors :
    (stepOf (State.reset.withFetchWord 96 0x4000000D)).map shown = some (bad, 0x100, 0x4000000D) ∧
      (run (.regRd 7) { State.reset with status := 0x300, errCmd := 0x14000000 }).map shown =
        some (ok 0x14000000, 0x300, 0x14000000) := by decide +kernel

/-- V-HA-10. -/
theorem test_statClr :
    (run .statClr { State.reset with status := 0x103, errCmd := 0x02000000 }).map shown =
      some (ok 0, 0x100, 0x02000000) := by decide +kernel

/-! ### The profile Q8_24, the assembler, the port -/

/-- V-Q-01 to V-Q-08. -/
theorem test_q824_step :
    [(1, 0x01000000, 0x00800000), (1, 0, 0x00800000), (0xFFFFFFFF, 0, 0x00800000), (0xFFFFFFFD, 0, 0x00800000),
        (3, 0, 0x00800000), (0x7FFFFFFF, 0x7FFFFFFF, 0x01000000), (0x80000000, 0x80000000, 0x01000000),
        (0x01000000, 0x00400000, 0x02000000)].map
        (fun (d, x, f) => (run (.rbStep 0 x f) (Q d)).bind (fun t => t.lastResponse)) =
      [0x01000001, 1, 0, 0xFFFFFFFF, 2, 0x7FFFFFFF, 0x80000000, 0x02400000].map ok := by decide +kernel

/-- V-Q-16, V-Q-17 and V-Q-18. -/
theorem test_q824_mixstep :
    [(0x01000000, 0x00800000, 0x00800000, 0x01000000), (0x01000000, 0x00800000, 0x00400000, 0x01000000),
        (0x7F000000, 0x01000000, 0x00800000, 0x7F000000)].map
        (fun (d, f, m, x) => (run (.deMixstep 0 x) { Q d with feedback := f, mix := m }).bind (fun t => t.lastResponse)) =
      [0x01400000, 0x01200000, 0x7F800000].map ok := by decide +kernel

/-- V-RB-32, V-HA-02, V-DE-18, a REG.RD by name, a channel that has no form, and the exponent of log 14. -/
theorem test_assembler :
    ["RB.STEP c0, 0.3, -1.0", "BLK.WR c1, #2, 0.5", "DE.SETDLY -1, 1000", "REG.RD #HW_ID", "RB.STEP c256, 0, 0",
        "DE.SETFB 25e-2", "DE.SETFB 1e0x0"].map
        (fun l => assembleLine .f32 l) =
      [some [⟨0x17000000, 0x3E99999A, 0xBF800000⟩], some [⟨0x30010002, 0x3F000000, 0⟩],
        some [⟨0x21000000, 0xFFFFFFFF, 0x000003E8⟩], some [⟨0x4000000C, 0, 0⟩], none,
        some [⟨0x22000000, 0x3E800000, 0⟩], none] := by decide +kernel

/-! ### Witnesses: a small instance, a regular and an irregular state -/

/-- A small legal instance. -/
def hwT : Params := { numFmt := .f32, nchMax := 4, capMax := 8, blkMax := 4, rstCap := 4, rstNch := 2 }

/-- A regular state: two channels, CAPACITY 4, cursors at 0, 1 and the last slot. -/
def W : State :=
  { State.afterReset hwT [] [] with
    wcur := [1, 3, 0, 0], rcur := [0, 3, 0, 0], mix := 0x3E800000, status := 2
    store := [(0, 0x3F800000), (2 ^ 32 + 3, 0x40000000)], blk := [(0, 0x40000000), (2 ^ 32, 0x3F000000)] }

/-- The state after RB.SETCAPF 8 has let channel 0's cursors pass ALLOC; channel 1's write cursor stands at ALLOC. -/
def X : State := { W with capacity := 8, wcur := [7, 4, 0, 0], rcur := [4, 3, 0, 0] }

/-- As X, with channel 0's cursors at the last allocated slot: one sample more can be processed. -/
def Y : State := { X with wcur := [3, 4, 0, 0], rcur := [3, 3, 0, 0] }

/-- The clauses of the invariant, as one closed check. -/
theorem inv_of (s : State)
    (h : s.hw.Legal ∧ s.hwId = hwIdWord ∧ (1 ≤ uint s.channels ∧ uint s.channels ≤ s.hw.nchMax) ∧
      (1 ≤ uint s.capacity ∧ uint s.capacity ≤ 2 ^ 24) ∧ (1 ≤ uint s.alloc ∧ uint s.alloc ≤ s.hw.capMax) ∧
      s.wcur.length = s.hw.nchMax ∧ s.rcur.length = s.hw.nchMax ∧
      s.wcur.all (fun w => decide (uint w < 2 ^ 24)) = true ∧ s.rcur.all (fun w => decide (uint w < 2 ^ 24)) = true ∧
      unitWord s.hw.numFmt s.feedback = true ∧ unitWord s.hw.numFmt s.mix = true ∧ uint s.delaySamples ≤ 2 ^ 24 ∧
      s.status &&& ~~~statusMask = 0 ∧ s.store.wf ∧ s.blk.wf) : s.Inv := by
  obtain ⟨h1, h2, h3, h4, h5, h6, h7, h8, h9, h10, h11, h12, h13, h14, h15⟩ := h
  exact ⟨h1, h2, h3, h4, h5, h6, h7, fun w hw => of_decide_eq_true (List.all_eq_true.mp h8 w hw),
    fun w hw => of_decide_eq_true (List.all_eq_true.mp h9 w hw), h10, h11, h12, h13, h14, h15⟩

theorem inv_W : W.Inv :=
  inv_of _ (by decide +kernel)

theorem inv_X : X.Inv :=
  inv_of _ (by decide +kernel)

theorem inv_Y : Y.Inv :=
  inv_of _ (by decide +kernel)

theorem regular_W : W.Regular := ⟨by decide +kernel, by decide +kernel⟩

/-! #### Encoding and decoding -/

theorem witness_DecodeAfterEncode :
    (Instr.blkWr 255 0xFFFF 0xFFFFFFFF).wellFormed = true ∧ (Instr.regRd 12).wellFormed = true ∧
      decode (encode (.blkWr 255 0xFFFF 0xFFFFFFFF)) = .ok (.blkWr 255 0xFFFF 0xFFFFFFFF) := by decide

theorem witness_EncodeAfterDecode :
    decode ⟨0x16000000, 7, 9⟩ = .ok (.rbSetcapf 7) ∧ decode ⟨0x15000000, 7, 9⟩ = .ok .rbGetcap ∧
      decode ⟨0x01000000, 7, 9⟩ = .ok (.init 7 9) := by decide

/-- Both ends of each range of reserved OPC values, and their neighbours that are rows. -/
theorem witness_ReservedOpcodesRaiseIllegal :
    [0x02000000, 0x0FFFFFFF, 0x1A000000, 0x1FFFFFFF, 0x26000000, 0x2FFFFFFF, 0x32000000, 0x3FFFFFFF, 0x42000000,
        0xFFFFFFFF].map (fun w => Opcode.ofCode (opcField w)) = List.replicate 10 none ∧
      [0x01000000, 0x10000000, 0x19000000, 0x20000000, 0x25000000, 0x30000000, 0x31000000, 0x40000000, 0x41000000].map
          (fun w => Opcode.ofCode (opcField w)) =
        [.init, .rbWrite, .rbGetrc, .deReset, .deProcess, .blkWr, .blkRd, .regRd, .statClr].map some := by decide

theorem witness_NonzeroReservedFieldsRaiseIllegal :
    (opcField 0x14010000 = Opcode.rbResize.code ∧ Opcode.rbResize.takesChannel = false ∧ chField 0x14010000 ≠ 0) ∧
      opcField 0x11008000 = Opcode.rbRead.code ∧ Opcode.rbRead.takesIndex = false ∧ idxField 0x11008000 ≠ 0 := by decide

theorem witness_ReservedSelectorsRaiseIllegal :
    0x000C < (0x000D : BitVec 16).toNat ∧ 0x000C < (0xFFFF : BitVec 16).toNat ∧
      decode ⟨0x4000#16 ++ 0xFFFF#16, 0, 0⟩ = .error .reservedSelector := by decide

/-! #### The step -/

theorem witness_StepRunsTheDecodedCommand :
    { W with input := [.command ⟨0x17000000, 1, 2⟩, .reset none] }.input = .command ⟨0x17000000, 1, 2⟩ :: [.reset none] ∧
      decode ⟨0x17000000, 1, 2⟩ = .ok (.rbStep 0 1 2) ∧ decode ⟨0x17000001, 1, 2⟩ = .error .nonzeroIndex := by decide

theorem witness_StepWithoutACommand :
    W.input = [] ∧ { W with input := [.reset (some ⟨0x25000000, 4, 4⟩)] }.input = .reset (some ⟨0x25000000, 4, 4⟩) :: [] := by
  decide

theorem witness_ResetSatisfiesInvariant : hwT.Legal ∧ Params.reference.Legal := by decide +kernel

theorem witness_StepKeepsInvariant : { W with input := [.command ⟨0x16000000, 8, 0⟩] }.Inv ∧
    ∃ t, step { W with input := [.command ⟨0x16000000, 8, 0⟩] } = .next t ∧ t.capacity = 8 :=
  ⟨⟨inv_W.legal, inv_W.hwId, inv_W.channels, inv_W.capacity, inv_W.alloc, inv_W.wcurLength, inv_W.rcurLength,
    inv_W.wcurRange, inv_W.rcurRange, inv_W.feedback, inv_W.mix, inv_W.delaySamples, inv_W.status, inv_W.store, inv_W.blk⟩,
    ⟨_, rfl, rfl⟩⟩

theorem witness_EveryCommandCompletesWithOneResponse : W.Inv ∧ X.Inv := ⟨inv_W, inv_X⟩

theorem witness_ConfigurationNeverChanges :
    W.hwId = hwIdWord ∧ ∃ t, step { W with input := [.reset none] } = .next t ∧ t.hw = hwT := ⟨rfl, ⟨_, rfl, rfl⟩⟩

/-! #### Regular states -/

theorem witness_CommandsKeepStatesRegular :
    W.Inv ∧ W.Regular ∧ (∀ k, Instr.rbWrite 1 7 ≠ .rbSetcapf k) ∧ exec (.rbWrite 1 7) W = .next (after (.rbWrite 1 7) W) :=
  ⟨inv_W, regular_W, nofun, exec_after _ _ (by decide +kernel)⟩

theorem witness_ReallocationMakesStatesRegular :
    X.Inv ∧ (∀ i ∈ [Instr.init 8 4, .rbResize 8, .deReset 1000 8],
      (i.opcode = .init ∨ i.opcode = .rbResize ∨ i.opcode = .deReset) ∧ exec i X = .next (after i X) ∧
        Answered X (after i X) 0 false) := by
  refine ⟨inv_X, ?_⟩
  simp only [List.mem_cons, List.not_mem_nil, or_false, forall_eq_or_imp, forall_eq]
  exact ⟨⟨by decide, exec_after _ _ (by decide +kernel), by unfold Answered; decide +kernel⟩,
    ⟨by decide, exec_after _ _ (by decide +kernel), by unfold Answered; decide +kernel⟩,
    ⟨by decide, exec_after _ _ (by decide +kernel), by unfold Answered; decide +kernel⟩⟩

theorem witness_SetcapfKeepsRegularOnlyAtCapacity :
    W.Inv ∧ W.Regular ∧ [1#32, 4, 0x01000000].all (fun k => decide (1 ≤ sint k ∧ sint k ≤ 2 ^ 24)) = true :=
  ⟨inv_W, regular_W, by decide⟩

/-- W with every error bit already set, as program P4 leaves ACCESS set in a regular state. -/
theorem witness_RegularStatesNeverRaiseAccess :
    let V : State := { W with status := 0x700 }
    (V.Inv ∧ V.Regular ∧ V.statusBit 10 = true) ∧ exec (.deProcess 4 4) V = .next (after (.deProcess 4 4) V) ∧
      (0 ≤ sint 4 ∧ sint 4 ≤ V.hw.nchMax ∧ sint 4 ≤ V.hw.blkMax) ∧
      exec (.rbWrite 1 7) V = .next (after (.rbWrite 1 7) V) ∧
      (Instr.rbWrite 1 7).opcode ∈ [Opcode.rbWrite, .rbRead, .rbStep, .deMixstep] :=
  ⟨⟨inv_of _ (by decide +kernel), ⟨by decide +kernel, by decide +kernel⟩, by decide +kernel⟩,
    exec_after _ _ (by decide +kernel), by decide +kernel, exec_after _ _ (by decide +kernel), by decide⟩

/-! #### Errors and STATUS -/

/-- An ACCESS, an ARG, and a DE.PROCESS that keeps a completed iteration. -/
theorem witness_ErrorsArePrecise :
    (X.Inv ∧ exec (.rbRead 0) X = .next (after (.rbRead 0) X) ∧ Answered X (after (.rbRead 0) X) 0 true) ∧
      (W.Inv ∧ exec (.rbResize 9) W = .next (after (.rbResize 9) W) ∧ Answered W (after (.rbResize 9) W) 0 true) ∧
      Y.Inv ∧ exec (.deProcess 1 2) Y = .next (after (.deProcess 1 2) Y) ∧
        Answered Y (after (.deProcess 1 2) Y) 0 true ∧ (after (.deProcess 1 2) Y).store ≠ Y.store :=
  ⟨⟨inv_X, exec_after _ _ (by decide +kernel), by unfold Answered; decide +kernel⟩,
    ⟨inv_W, exec_after _ _ (by decide +kernel), by unfold Answered; decide +kernel⟩, inv_Y,
    exec_after _ _ (by decide +kernel), by unfold Answered; decide +kernel, by decide +kernel⟩

theorem witness_StatusBitsAreSticky :
    exec .statClr W = .next (after .statClr W) ∧ W.statusBit 1 = true ∧ (after .statClr W).statusBit 1 = false :=
  ⟨exec_after _ _ (by decide +kernel), by decide +kernel, by decide +kernel⟩

theorem witness_OnlyTheNamedCommandsWriteEachRegister :
    exec (.init 8 4) W = .next (after (.init 8 4) W) ∧ (after (.init 8 4) W).channels ≠ W.channels :=
  ⟨exec_after _ _ (by decide +kernel), by decide +kernel⟩

/-! #### Ring-buffer commands: each clause at its boundary -/

/-- Channel 1 is the last valid one and 2 the first that is not; slot 3 is the last allocated one and 4 the first that is
not. -/
theorem witness_RbWriteStoresAndAdvances :
    (W.Inv ∧ ¬ uint W.channels ≤ 1 ∧ ¬ uint W.alloc ≤ W.wcurAt 1 ∧ W.wcurAt 1 = 3) ∧ uint W.channels ≤ 2 ∧
      X.Inv ∧ ¬ uint X.channels ≤ 1 ∧ uint X.alloc ≤ X.wcurAt 1 ∧ X.wcurAt 1 = 4 :=
  ⟨⟨inv_W, by decide +kernel⟩, by decide +kernel, inv_X, by decide +kernel⟩

theorem witness_RbReadAnswersAndAdvances :
    (W.Inv ∧ ¬ uint W.channels ≤ 1 ∧ ¬ uint W.alloc ≤ W.rcurAt 1 ∧ W.rcurAt 1 = 3) ∧ uint W.channels ≤ 2 ∧
      X.Inv ∧ ¬ uint X.channels ≤ 0 ∧ uint X.alloc ≤ X.rcurAt 0 ∧ X.rcurAt 0 = 4 :=
  ⟨⟨inv_W, by decide +kernel⟩, by decide +kernel, inv_X, by decide +kernel⟩

/-- A lag that is BAD, a lag of CAPACITY - 1 and one beyond CAPACITY. -/
theorem witness_RbSetrpDerivesTheReadCursor :
    W.Inv ∧ uint W.channels ≤ 2 ∧ ¬ uint W.channels ≤ 1 ∧ lagInt W.hw.numFmt 0x7F800000 = none ∧
      lagInt W.hw.numFmt 0x40400000 = some 3 ∧ lagInt W.hw.numFmt 0x41100000 = some 9 :=
  ⟨inv_W, by decide +kernel⟩

/-- The boundaries of the argument: 0, 1, CAP_MAX, CAP_MAX + 1, and a negative one. -/
theorem witness_RbResizeReallocates :
    [0#32, 1, 8, 9, 0xFFFFFFFF].map (fun n => decide (sint n < 1 ∨ (W.hw.capMax : Int) < sint n)) =
      [true, false, false, true, true] := by decide +kernel

theorem witness_CapacityFieldIsReadAndWrittenAlone :
    [0#32, 1, 0x01000000, 0x01000001, 0x80000000].map (fun k => decide (sint k < 1 ∨ (2 ^ 24 : Int) < sint k)) =
      [true, false, false, true, true] := by decide +kernel

/-- The write slot alone is beyond ALLOC on channel 1 of X; both are on channel 0. -/
theorem witness_RbStepReadsMixesAndWrites :
    (W.Inv ∧ ¬ uint W.channels ≤ 1 ∧ ¬ (uint W.alloc ≤ W.rcurAt 1 ∨ uint W.alloc ≤ W.wcurAt 1)) ∧ uint W.channels ≤ 2 ∧
      X.Inv ∧ ¬ uint X.channels ≤ 1 ∧ ¬ uint X.alloc ≤ X.rcurAt 1 ∧ uint X.alloc ≤ X.wcurAt 1 :=
  ⟨⟨inv_W, by decide +kernel⟩, by decide +kernel, inv_X, by decide +kernel⟩

theorem witness_CursorsAreReadBack : W.Inv ∧ ¬ uint W.channels ≤ (1#8).toNat ∧ uint W.channels ≤ (2#8).toNat :=
  ⟨inv_W, by decide +kernel⟩

/-! #### Delay-effect commands -/

theorem witness_InitConstructs :
    [(0#32, 1#32), (1, 0), (8, 4), (9, 4), (8, 5), (1, 1)].map (fun (n, k) => decide
        (sint n < 1 ∨ (W.hw.capMax : Int) < sint n ∨ sint k < 1 ∨ (W.hw.nchMax : Int) < sint k)) =
      [true, true, false, true, true, false] := by decide +kernel

/-- Derived delays 0, 1, CAP_MAX and CAP_MAX + 1, and negative arguments. -/
theorem witness_DeResetSizesToTheDelay :
    W.Inv ∧ [(999#32, 1#32), (1000, 1), (1000, 8), (9000, 1), (0xFFFFFFFF, 1), (1, 0xFFFFFFFF)].map
        (fun (r, m) => decide (sint r < 0 ∨ sint m < 0 ∨ (sint r * sint m) / 1000 < 1 ∨
          (W.hw.capMax : Int) < (sint r * sint m) / 1000)) = [true, false, false, true, true, true] :=
  ⟨inv_W, by decide +kernel⟩

/-- Derived delays CAPACITY - 1 and CAPACITY, and a negative argument. -/
theorem witness_DeSetdlyRepositionsChannelsZeroAndOne :
    W.Inv ∧ ¬ (sint 1000 * sint 3) / 1000 > (uint W.capacity : Int) - 1 ∧
      (sint 1000 * sint 4) / 1000 > (uint W.capacity : Int) - 1 ∧ sint 0xFFFFFFFF < 0 := ⟨inv_W, by decide +kernel⟩

theorem witness_DeMixstepBlendsOneSample :
    (W.Inv ∧ ¬ uint W.channels ≤ 1 ∧ ¬ (uint W.alloc ≤ W.rcurAt 1 ∨ uint W.alloc ≤ W.wcurAt 1)) ∧ uint W.channels ≤ 2 ∧
      X.Inv ∧ ¬ uint X.channels ≤ 0 ∧ uint X.alloc ≤ X.rcurAt 0 :=
  ⟨⟨inv_W, by decide +kernel⟩, by decide +kernel, inv_X, by decide +kernel⟩

/-- Each bound of each count. -/
theorem witness_DeProcessChecksItsCounts :
    (W.Inv ∧ W.Regular) ∧ [(0#32, 0#32), (4, 4), (5, 0), (0, 5), (0xFFFFFFFF, 0), (0, 0xFFFFFFFF)].map
        (fun (c, n) => decide (sint c < 0 ∨ (W.hw.nchMax : Int) < sint c ∨ sint n < 0 ∨ (W.hw.blkMax : Int) < sint n)) =
      [false, false, true, true, true, true] := ⟨⟨inv_W, regular_W⟩, by decide +kernel⟩

/-- One valid channel, and four channels of which two are invalid. -/
theorem witness_DeProcessIsASequenceOfMixsteps :
    W.Inv ∧ (0 ≤ sint 4 ∧ sint 4 ≤ W.hw.nchMax ∧ sint 4 ≤ W.hw.blkMax) ∧
      (mixAll (blockPairs (uint 4) (uint 4)) W).isSome = true ∧ (mixAll (blockPairs (uint 1) (uint 1)) Y).isSome = true :=
  ⟨inv_W, by decide +kernel, by decide +kernel, by decide +kernel⟩

/-- The second of three samples fails; and the very first one does. -/
theorem witness_DeProcessStopsAtTheFailingSample :
    (∃ u, Y.Inv ∧ 0 ≤ sint 1 ∧ sint 1 ≤ Y.hw.nchMax ∧ 0 ≤ sint 3 ∧ sint 3 ≤ Y.hw.blkMax ∧
      blockPairs (uint 1) (uint 3) = [(0, 0)] ++ (0, 1) :: [(0, 2)] ∧ mixAll [(0, 0)] Y = some u ∧
      exec (.deMixstep (BitVec.ofNat 8 0) (u.blkRead 0 1)) u = .next (after (.deMixstep 0 (u.blkRead 0 1)) u) ∧
      Answered u (after (.deMixstep 0 (u.blkRead 0 1)) u) 0 true) ∧
    X.Inv ∧ blockPairs (uint 1) (uint 1) = [] ++ (0, 0) :: [] ∧ mixAll [] X = some X ∧
      exec (.deMixstep (BitVec.ofNat 8 0) (X.blkRead 0 0)) X = .next (after (.deMixstep 0 (X.blkRead 0 0)) X) ∧
      Answered X (after (.deMixstep 0 (X.blkRead 0 0)) X) 0 true :=
  ⟨⟨(mixAll [(0, 0)] Y).getD Y, inv_Y, by decide +kernel, by decide +kernel, by decide +kernel, by decide +kernel,
      by decide +kernel, by decide +kernel, exec_after _ _ (by decide +kernel), by unfold Answered; decide +kernel⟩,
    inv_X, by decide +kernel, rfl, exec_after _ _ (by decide +kernel), by unfold Answered; decide +kernel⟩

/-- A block of one valid channel; the first channel and the first index outside it. -/
theorem witness_DeProcessLeavesTheRest :
    (W.Inv ∧ exec (.deProcess 1 2) W = .next (after (.deProcess 1 2) W)) ∧ (uint (1 : Word) ≤ 1 ∧ uint (2 : Word) ≤ 2) ∧
      uint W.channels ≤ 2 := ⟨⟨inv_W, exec_after _ _ (by decide +kernel)⟩, by decide +kernel, by decide +kernel⟩

/-! #### Host-access commands and channels -/

/-- The last word of the block buffer, and the first channel and the first index outside it. -/
theorem witness_BlockBufferIsWrittenAndReadBack :
    W.Inv ∧ ¬ (W.hw.nchMax ≤ (3#8).toNat ∨ W.hw.blkMax ≤ (3#16).toNat) ∧ W.hw.nchMax ≤ (4#8).toNat ∧
      W.hw.blkMax ≤ (4#16).toNat := ⟨inv_W, by decide +kernel⟩

theorem witness_RegRdReadsTheTable : W.Inv ∧ (0#16).toNat ≤ 0x000C ∧ (12#16).toNat ≤ 0x000C := ⟨inv_W, by decide⟩

theorem witness_ChannelsAreIndependentForWrites :
    W.Inv ∧ (Instr.rbWrite 0 7).opcode.takesChannel = true ∧ exec (.rbWrite 0 7) W = .next (after (.rbWrite 0 7) W) ∧
      1 ≠ (Instr.rbWrite 0 7).chOperand.toNat ∧ (after (.rbWrite 0 7) W).store ≠ W.store :=
  ⟨inv_W, by decide, exec_after _ _ (by decide +kernel), by decide, by decide +kernel⟩

/-- W with nothing on channel 1 agrees with W on channel 0. -/
theorem witness_ChannelsAreIndependentForReads :
    let V : State := { W with store := [(0, 0x3F800000)], blk := [(0, 0x40000000)], wcur := [1, 0, 0, 0], rcur := [0, 0, 0, 0] }
    (W.Inv ∧ V.Inv ∧ (Instr.deMixstep 0 0x3F800000).opcode.takesChannel = true) ∧
      ({ W with store := V.store, blk := V.blk, wcur := V.wcur, rcur := V.rcur } = V ∧ W.wcurAt 0 = V.wcurAt 0 ∧
        W.rcurAt 0 = V.rcurAt 0 ∧ (∀ p, p < 2 ^ 32 → W.storeRead 0 p = V.storeRead 0 p) ∧
        ∀ p, p < 2 ^ 32 → W.blkRead 0 p = V.blkRead 0 p) ∧
      exec (.deMixstep 0 0x3F800000) W = .next (after (.deMixstep 0 0x3F800000) W) ∧
      exec (.deMixstep 0 0x3F800000) V = .next (after (.deMixstep 0 0x3F800000) V) := by
  refine ⟨⟨inv_W, inv_of _ (by decide +kernel), by decide⟩,
    ⟨by decide +kernel, by decide +kernel, by decide +kernel, ?_, ?_⟩, exec_after _ _ (by decide +kernel),
    exec_after _ _ (by decide +kernel)⟩
  · intro p hp
    have h : ¬ 2 ^ 32 + 3 = cellKey 0 p := by unfold cellKey; omega
    simp only [State.storeRead, W, Memory.read, if_neg h]
  · intro p hp
    have h : ¬ 2 ^ 32 = cellKey 0 p := by unfold cellKey; omega
    simp only [State.blkRead, W, Memory.read, if_neg h]

theorem witness_ChannelsMayBeInterleaved :
    W.Inv ∧ (0 < W.hw.nchMax ∧ 3 < W.hw.nchMax ∧ 0 < W.hw.blkMax ∧ 3 < W.hw.blkMax ∧ 0 ≠ 3) ∧
      ((mixThenWrite 0 0 W).bind (mixThenWrite 1 0)).isSome = true ∧
      ((mixThenWrite 0 0 W).bind (mixThenWrite 3 3)).isSome = true :=
  ⟨inv_W, by decide +kernel, by decide +kernel, by decide +kernel⟩

/-! #### Delay, lag, comb filter -/

theorem witness_ReadsAndWritesMoveTheLag : W.Inv ∧ W.Regular ∧ (1#8).toNat < uint W.channels :=
  ⟨inv_W, regular_W, by decide +kernel⟩

/-- A lag of 0, of CAPACITY - 1 and of CAPACITY. -/
theorem witness_EffectiveDelayAfterSetrp :
    (W.Inv ∧ W.Regular ∧ (1#8).toNat < uint W.channels) ∧ lagInt W.hw.numFmt 0 = some 0 ∧
      lagInt W.hw.numFmt 0x40400000 = some 3 ∧ lagInt W.hw.numFmt 0x40800000 = some 4 ∧
      exec .rbReset W = .next (after .rbReset W) :=
  ⟨⟨inv_W, regular_W, by decide +kernel⟩, by decide +kernel, by decide +kernel, by decide +kernel,
    exec_after _ _ (by decide +kernel)⟩

/-- The source's second scenario: an impulse through a buffer of capacity 2 with feedback 0.5 (95_test_vectors.md, L1-S2). -/
theorem witness_CombFilterRecurrence :
    (W.Inv ∧ W.Regular ∧ (1#8).toNat < uint W.channels ∧ exec .rbReset W = .next (after .rbReset W)) ∧
      (stepAll 0 0x3F000000 [0x3F800000, 0, 0, 0, 0] (S 2 1)).map (fun r => r.1) =
        some [0x3F800000, 0, 0x3F000000, 0, 0x3E800000] :=
  ⟨⟨inv_W, regular_W, by decide +kernel, exec_after _ _ (by decide +kernel)⟩, by decide +kernel⟩

theorem witness_ResetBufferReadsZero :
    W.Inv ∧ W.Regular ∧ (1#8).toNat < uint W.channels ∧ exec .rbReset W = .next (after .rbReset W) :=
  ⟨inv_W, regular_W, by decide +kernel, exec_after _ _ (by decide +kernel)⟩

/-- Derived delays CAPACITY - 1 and CAPACITY. -/
theorem witness_DelayTimeClamp :
    (W.Inv ∧ 0 ≤ sint 0 ∧ 0 ≤ sint 0x7FFFFFFF) ∧ ¬ (uint W.capacity : Int) ≤ (sint 1000 * sint 3) / 1000 ∧
      (uint W.capacity : Int) ≤ (sint 1000 * sint 4) / 1000 := ⟨⟨inv_W, by decide⟩, by decide +kernel, by decide +kernel⟩

theorem witness_SetdlyAfterResetClamps :
    X.Inv ∧ exec (.deReset 1000 3) X = .next (after (.deReset 1000 3) X) ∧
      Answered X (after (.deReset 1000 3) X) 0 false :=
  ⟨inv_X, exec_after _ _ (by decide +kernel), by unfold Answered; decide +kernel⟩

/-! #### Numbers -/

/-- Every class of word: zeros, the largest subnormal, one, the word above it, the largest finite words; an infinity and a
NaN are none of them finite. The flags are those of V-DE-24's table and its boundaries. -/
theorem witness_ClampingIsIdempotent :
    [0, 0x80000000, 0x007FFFFF, 0x3F800000, 0x3F800001, 0x7F7FFFFF, 0xFF7FFFFF, 0x80000001].map
        (fun x => (f32Finite x, decide (f32Value x < 0 ∨ 1 < f32Value x), (clamp01 .f32 x).2)) =
      [(true, false, false), (true, false, false), (true, false, false), (true, false, false), (true, true, true),
        (true, true, true), (true, true, true), (true, true, true)] ∧
      f32Finite 0x7F800000 = false ∧ f32Finite 0x7F800001 = false ∧ f32Frac 0x7F800001 ≠ 0 := by decide +kernel

/-- The sum overflows, the difference is exact, the product of the smallest words underflows to a zero of its sign. -/
theorem witness_BinaryOperationsRoundToNearestEven :
    (f32Finite 0x7F7FFFFF = true ∧ f32Finite 1 = true) ∧ fadd 0x7F7FFFFF 0x7F7FFFFF = 0x7F800000 ∧
      fsub 0x3F800001 0x3F800000 = 0x34000000 ∧ fmul 1 1 = 0 ∧ fmul 0x80000001 1 = 0x80000000 := by decide +kernel

/-- Two negative zeros, two words that cancel, and the differences that are zero. -/
theorem witness_ExactZeroSumsAreSigned :
    (f32Finite 0x80000000 = true ∧ f32Value 0x80000000 + f32Value 0x80000000 = 0) ∧ f32Finite 0x3FC00000 = true ∧
      f32Finite 0xBFC00000 = true ∧ f32Value 0x3FC00000 + f32Value 0xBFC00000 = 0 ∧
      (f32Value 0x80000000 - f32Value 0 = 0 ∧ fsub 0x80000000 0 = 0x80000000) ∧ fsub 0x3FC00000 0x3FC00000 = 0 := by
  decide +kernel

/-- NaN operands, a produced NaN, and finite operands that are zero and that are not. -/
theorem witness_ProducedNaNsAreCanonical :
    (f32IsNaN 0x7F800001 = true ∧ f32IsNaN 0xFFFFFFFF = true ∧ f32IsNaN (fsub 0xFF800000 0xFF800000) = true) ∧
      (f32Finite 0x80000000 = true ∧ f32Value 0x80000000 = 0) ∧ f32Finite 1 = true ∧ f32Value 1 ≠ 0 ∧
      fmul 0x80000001 (infinity true) = infinity false := by decide +kernel

theorem witness_LagConversion :
    (f32Finite 0x406CCCCD = true ∧ ⌊f32Value 0x406CCCCD⌋ = 3) ∧ (f32Finite 0xC0200000 = true ∧ f32Value 0xC0200000 < 0) ∧
      f32IsNaN 0x7FC00000 = true := by decide +kernel

theorem witness_ZeroGainAndBoundaryMixLaws :
    (f32Finite 0x80000000 = true ∧ f32Sign 0 = false) ∧ f32Finite 0xFF800000 = false ∧ f32IsNaN 0x7FC00000 = true ∧
      fmul NumFmt.f32.zero 0x3F800000 = 0 := by decide +kernel

/-! #### Ports, reset, assembler -/

theorem witness_ResetIsInitWithTheResetParameters : W.Inv ∧ X.Inv := ⟨inv_W, inv_X⟩

/-- The timed machine with W inside, in each phase. -/
def ready : PortState := { core := W, phase := .ready, waiting := none }
def getcap : Command := { cmd := 0x15000000, arg0 := 0, arg1 := 0 }
def busy : PortState := { core := W, phase := .busy getcap, waiting := none }
def responding : PortState := { core := W, phase := .responding getcap (after .rbGetcap W) ⟨4, false⟩, waiting := none }
def resetting : PortState := { core := W, phase := .resetting, waiting := none }

/-- The inputs at an edge with `rst_n` 1. -/
def inputs (valid taken done : Bool) : PortInputs :=
  { rstN := true, cmdValid := valid, cmd := getcap, rspReady := taken, workDone := done }

/-- One edge to the next state, if there is one. -/
def edge (x : PortInputs) (p : PortState) : Option PortState :=
  match portEdge x p with
  | .next q => some q
  | .fault _ => none
  | .refused _ => none

theorem portEdge_edge (x : PortInputs) (p q : PortState) (h : edge x p = some q) : portEdge x p = .next q := by
  unfold edge at h
  split at h <;> simp_all

/-- P4 of 93_implementation_defined.md, "any value (finite)": the response may be offered right after the edge of the
transfer, or after more edges. -/
theorem test_port_latency :
    edge (inputs true false true) ready = some responding ∧ edge (inputs true false false) ready = some busy ∧
      edge (inputs false false true) busy = some responding := by decide +kernel

/-- R251: a host that withdraws or changes its waiting command has no move; one that holds it has. -/
theorem test_port_hold :
    let p : PortState := { busy with waiting := some getcap }
    edge (inputs false false true) p = none ∧
      edge { inputs true false true with cmd := { getcap with arg0 := 1 } } p = none ∧
      edge (inputs true false true) p = some { responding with waiting := some getcap } := by decide +kernel

/-- A transfer, a command in hand, a response that is held, one that transfers, work that is over, and a reset; a waiting command that is held
and one that is withdrawn. -/
theorem witness_PortHandshake :
    (W.Inv ∧ (inputs true false false).cmdValid = true ∧ cmdReady ready = true) ∧
      (inHand busy = some getcap ∧ rspTransfers busy (inputs false false false) = false) ∧
      (rspOffered responding = some ⟨4, false⟩ ∧ (inputs false false false).rspReady = false) ∧
      (inputs false true false).rspReady = true ∧
      (rspOffered busy = none ∧ (inputs false false true).workDone = true ∧ resetting.phase = .resetting) ∧ { inputs false false false with rstN := false }.rstN = false ∧
      hostHolds { busy with waiting := some getcap } (inputs true false false) = true ∧
      hostHolds { busy with waiting := some getcap } (inputs false false false) = false :=
  ⟨⟨inv_W, by decide +kernel⟩, by decide +kernel⟩

/-- A response that transfers, and the end of a reset. -/
theorem witness_PortEdgeRefinesStep :
    (responding.core.Inv ∧ responding.Inv ∧ rspTransfers responding (inputs false true false) = true ∧
        portEdge (inputs false true false) responding =
          .next { core := after .rbGetcap W, phase := .ready, waiting := none }) ∧
      resetting.core.Inv ∧ resetting.Inv ∧ rspTransfers resetting (inputs false true true) = false ∧
        portEdge (inputs false true true) resetting =
          .next { core := W.hardwareReset, phase := .ready, waiting := none } :=
  ⟨⟨inv_W, ⟨exec_after .rbGetcap W (by decide +kernel), by decide +kernel⟩, by decide +kernel,
      portEdge_edge _ _ _ (by decide +kernel)⟩,
    inv_W, trivial, by decide +kernel, portEdge_edge _ _ _ (by decide +kernel)⟩

/-- The largest lag that is exact and the first that is not, and lists at the end of the index field. -/
theorem witness_PseudoInstructionsExpand :
    (16777216 ≤ 2 ^ 24 ∧ 2 ^ 24 < 16777217 ∧ 2147483647 < 2 ^ 31) ∧ 65534 + [1#32, 2#32].length ≤ 2 ^ 16 ∧
      expandSetlag .f32 0 16777216 = some [.rbSetrp 0 0x4B800000] ∧ expandSetlag .f32 0 16777217 = none ∧
      expandFill 0 65534 [1, 2] = some [.blkWr 0 65534 1, .blkWr 0 65535 2] ∧ expandFill 0 65535 [1, 2] = none ∧
      expandDump 0 65534 2 = some [.blkRd 0 65534, .blkRd 0 65535] := by decide +kernel

end Sys2Proof.Tests
end

section
/-! PROOFS. The numeric primitives by value: the Q8_24 sums with one rounding and one saturation (00_scope.md R19 to
R21), and the lag conversion of both profiles (R16, R24). -/

namespace Sys2Proof.Machine

/-! ### Rounding and saturation of Q8_24 -/

/-- The signed reading of a word undoes `wordOfInt` on the values a word can hold. -/
theorem sint_wordOfInt {z : Int} (lo : -2 ^ 31 ≤ z) (hi : z ≤ 2 ^ 31 - 1) : sint (wordOfInt z) = z := by
  unfold sint wordOfInt
  rw [BitVec.toInt_ofInt]
  exact Int.bmod_eq_of_le (by omega) (by omega)

theorem sat32_bounds (a : Int) : -2 ^ 31 ≤ sat32 a ∧ sat32 a ≤ 2 ^ 31 - 1 := by
  unfold sat32
  omega

/-- A saturated value fits in a word, so writing it loses nothing. -/
@[simp] theorem sint_wordOfInt_sat32 (a : Int) : sint (wordOfInt (sat32 a)) = sat32 a :=
  sint_wordOfInt (sat32_bounds a).1 (sat32_bounds a).2

/-- A whole multiple of the unit 2^24 passes through the rounding unchanged. -/
theorem rnd24_mul_add (a b : Int) : rnd24 (a * 2 ^ 24 + b) = a + rnd24 b := by
  unfold rnd24
  omega

theorem sint_macQ (x f d : Word) :
    sint (macQ x f d) = sat32 (rnd24 (sint x * 2 ^ 24 + sint f * sint d)) := sint_wordOfInt_sat32 _

/-- The second form of R20: only the product needs the rounding. -/
theorem sint_macQ_eq_add_rnd24 (x f d : Word) :
    sint (macQ x f d) = sat32 (sint x + rnd24 (sint f * sint d)) := by
  rw [sint_macQ, rnd24_mul_add]

theorem sint_blendQ (m w x : Word) :
    sint (blendQ m w x) = sat32 (rnd24 (sint m * sint w + (2 ^ 24 - sint m) * sint x)) := sint_wordOfInt_sat32 _

/-! ### The lag conversion -/

/-- The floor of a finite word's value is the Euclidean quotient of its units by those of 1.0. -/
theorem floor_f32Value (v : Word) : ⌊f32Value v⌋ = f32Units v / f32OneUnits := by
  have one : (2 : ℚ) ^ 149 = ((2 ^ 149 : Nat) : ℚ) := by norm_cast
  rw [f32Value_eq, one, Rat.floor_intCast_div_natCast]
  rfl

/-- A word with positive units has its magnitude as units: its sign bit is 0. -/
theorem f32Mag_eq_units_of_pos {v : Word} (h : 0 < f32Units v) : (f32Mag v : Int) = f32Units v := by
  unfold f32Units at h ⊢
  by_cases neg : f32Sign v = true
  · rw [if_pos neg] at h
    omega
  · rw [if_neg neg]

/-- The lag of a finite word is the quotient of its units by those of 1.0, clamped at 0 (R16). -/
theorem lagF32_finite {v : Word} (h : f32Finite v = true) :
    lagF32 v = some (f32Units v / f32OneUnits).toNat := by
  have one_pos : 0 < f32OneUnits := by decide
  unfold lagF32
  rw [not_nan_of_finite h, not_inf_of_finite h, if_neg Bool.false_ne_true, if_neg Bool.false_ne_true]
  by_cases hpos : f32Units v ≤ 0
  · have quot : f32Units v / f32OneUnits ≤ 0 := Int.ediv_le_of_le_mul one_pos (by omega)
    rw [if_pos hpos, Int.toNat_of_nonpos quot]
  · have quot : f32Units v / f32OneUnits = ((f32Mag v / 2 ^ 149 : Nat) : Int) := by
      rw [← f32Mag_eq_units_of_pos (by omega)]
      rfl
    rw [if_neg hpos, quot, Int.toNat_natCast]

theorem lagF32_nan {v : Word} (h : f32IsNaN v = true) : lagF32 v = some 0 := by
  unfold lagF32
  rw [if_pos h]

theorem lagQ_eq (v : Word) : lagQ v = some (max 0 (sint v)).toNat := by
  unfold lagQ
  congr 1
  omega

end Sys2Proof.Machine

namespace Sys2Proof.Proofs

open Sys2Proof.Machine

/-- Settles O54: a finite word by its units (`lagF32_finite`, `floor_f32Value`), the infinities by evaluation. -/
theorem lagConversion : Obligations.LagConversion := by
  unfold Obligations.LagConversion
  refine ⟨fun v hfin => ?_, fun v hnan => lagF32_nan hnan, by decide, by decide, lagQ_eq⟩
  rw [floor_f32Value]
  exact lagF32_finite hfin

/-- Settles O56: a saturated value fits in a word, and R20's two forms differ by a whole multiple of 2^24. -/
theorem fixedPointMac : Obligations.FixedPointMac :=
  ⟨fun x f d => ⟨sint_macQ x f d, sint_macQ_eq_add_rnd24 x f d⟩, sint_blendQ⟩

end Sys2Proof.Proofs
end

section
/-! PROOFS. Decoding is total (30_encoding.md R85 to R88): a command word is a word of one row of R84, or of none, and a
word of no row raises ILLEGAL. Each reserved encoding is a reason why a word is of no row. -/

namespace Sys2Proof

open Sys2Proof.Machine

/-! ### Words of a row and words of none -/

/-- A word is of one row at most: the OPC values of R84 are distinct. -/
theorem matchesRow_unique {o o' : Opcode} {w : Word} (h : MatchesRow o w) (h' : MatchesRow o' w) : o' = o := by
  obtain ⟨hopc, -⟩ := h
  obtain ⟨hopc', -⟩ := h'
  exact Opcode.code_injective (hopc'.symm.trans hopc)

/-- Among the words with a row's OPC value, only that row can match. -/
theorem not_matchesRow_of_opcField {o : Opcode} {w : Word} (hopc : opcField w = o.code) (h : ¬ MatchesRow o w) :
    ∀ o', ¬ MatchesRow o' w := by
  intro o' h'
  have same : o' = o := Opcode.code_injective (h'.1.symm.trans hopc)
  exact h (same ▸ h')

/-- A command whose word is of a row runs that row's rule. -/
theorem runCommand_of_matches {c : Command} {o : Opcode} (h : MatchesRow o c.cmd) (s : State) :
    runCommand c s = exec (o.instr (chField c.cmd) (idxField c.cmd) c.arg0 c.arg1) s :=
  runCommand_ok (decode_of_matches h) s

/-- A command whose word is of no row raises ILLEGAL and does nothing else (R85). -/
theorem runCommand_illegal {c : Command} (h : ∀ o, ¬ MatchesRow o c.cmd) (s : State) :
    ∃ t, runCommand c s = .next t ∧ Raised s t c.cmd 8 := by
  obtain ⟨e, he⟩ := decode_error_of_not_matches h
  exact ⟨_, runCommand_error he s, s.raiseWord_raised c.cmd .illegal⟩

/-- The OPC values that R84 uses, as ranges; R85 lists the gaps between them. -/
theorem Opcode.code_ranges (o : Opcode) :
    o.code.toNat ≤ 0x01 ∨ (0x10 ≤ o.code.toNat ∧ o.code.toNat ≤ 0x19) ∨ (0x20 ≤ o.code.toNat ∧ o.code.toNat ≤ 0x25) ∨
      (0x30 ≤ o.code.toNat ∧ o.code.toNat ≤ 0x31) ∨ (0x40 ≤ o.code.toNat ∧ o.code.toNat ≤ 0x41) := by
  cases o <;> decide

/-! ### REG.RD and its selector -/

/-- The table of R213 ends at selector 0x000C. -/
theorem Machine.State.register_eq_none (s : State) {sel : Nat} (h : 0x000C < sel) : s.register sel = none := by
  unfold State.register
  split
  case h_14 => rfl
  all_goals omega

theorem execRegRd_reserved {sel : BitVec 16} (h : 0x000C < sel.toNat) (s : State) :
    execRegRd sel s = .next (s.raise (.regRd sel) .illegal) := by
  have absent : s.register (indexNat sel) = none := s.register_eq_none h
  unfold execRegRd
  rw [absent]

/-- A REG.RD word, written as its upper half and its selector. -/
theorem cmdWord_regRd (sel : BitVec 16) : cmdWord (.regRd sel) = 0x4000#16 ++ sel := by
  have upper : Opcode.regRd.code ++ (0 : BitVec 8) = 0x4000#16 := by decide
  change (Opcode.regRd.code ++ (0 : BitVec 8)) ++ sel = _
  rw [upper]

/-- A REG.RD word with a selector outside the table is of no row (R87). -/
theorem not_matchesRow_regRd {sel : BitVec 16} (h : 0x000C < sel.toNat) : ∀ o, ¬ MatchesRow o (cmdWord (.regRd sel)) := by
  have hopc : opcField (cmdWord (.regRd sel)) = Opcode.regRd.code := opcField_packCmd ..
  have hidx : idxField (cmdWord (.regRd sel)) = sel := idxField_packCmd ..
  refine not_matchesRow_of_opcField hopc ?_
  rintro ⟨-, -, -, selector⟩
  have := selector rfl
  rw [hidx] at this
  omega

end Sys2Proof

namespace Sys2Proof.Proofs

open Sys2Proof.Machine

/-- Settles O3: the split on whether the word is of a row. -/
theorem decodingIsTotal : Obligations.DecodingIsTotal := by
  unfold Obligations.DecodingIsTotal
  intro c s
  by_cases h : ∃ o, MatchesRow o c.cmd
  · obtain ⟨o, ho⟩ := h
    exact .inl ⟨o, ho, fun o' ho' => matchesRow_unique ho ho', runCommand_of_matches ho s⟩
  · have none_matches : ∀ o, ¬ MatchesRow o c.cmd := not_exists.1 h
    exact .inr ⟨none_matches, runCommand_illegal none_matches s⟩

/-- Settles O4: R85's ranges are the gaps between the OPC values of R84's rows. -/
theorem reservedOpcodesRaiseIllegal : Obligations.ReservedOpcodesRaiseIllegal := by
  unfold Obligations.ReservedOpcodesRaiseIllegal
  intro c s opc reserved
  refine runCommand_illegal ?_ s
  rintro o ⟨hopc, -⟩
  have used : o.code.toNat = opc := by rw [← hopc, opcField_toNat]
  have := o.code_ranges
  omega

/-- Settles O5: the OPC value leaves one row, and the nonzero field excludes it. -/
theorem nonzeroReservedFieldsRaiseIllegal : Obligations.NonzeroReservedFieldsRaiseIllegal := by
  unfold Obligations.NonzeroReservedFieldsRaiseIllegal
  intro c s o hopc nonzero
  refine runCommand_illegal (not_matchesRow_of_opcField hopc ?_) s
  rintro ⟨-, chZero, idxZero, -⟩
  rcases nonzero with ⟨noChannel, hch⟩ | ⟨noIndex, hidx⟩
  · exact hch (chZero noChannel)
  · exact hidx (idxZero noIndex)

/-- Settles O6: the word is of no row, and the command reads past the end of R213's table. -/
theorem reservedSelectorsRaiseIllegal : Obligations.ReservedSelectorsRaiseIllegal := by
  unfold Obligations.ReservedSelectorsRaiseIllegal
  intro sel a0 a1 s h
  rw [← cmdWord_regRd]
  constructor
  · exact runCommand_illegal (c := ⟨cmdWord (.regRd sel), a0, a1⟩) (not_matchesRow_regRd h) s
  · exact ⟨_, execRegRd_reserved h s, s.raise_raised (.regRd sel) .illegal⟩

end Sys2Proof.Proofs
end

section
/-! PROOFS. The ring-buffer commands (40_ring_buffer.md R112 to R119, R124): the outcome of each command as one equation,
what it writes to STORE and the cursors, and how the advances move the lag. -/

namespace Sys2Proof

open Sys2Proof.Machine

/-! ### Encoding -/

/-- A row whose only field operand is its channel. -/
theorem encodedAs_channelRow {o : Opcode} (takes : o.takesChannel = true) (ch : BitVec 8) :
    EncodedAs (o.code ++ ch ++ 0#16) (o.instr ch 0) :=
  encodedAs_row o ch 0 (fun h => absurd (takes.symm.trans h) nofun) (fun _ => rfl) (fun _ => Nat.zero_le _)

/-- A row with neither field: its command word is its opcode alone. -/
theorem encodedAs_plainRow (o : Opcode) : EncodedAs (packCmd o.code 0 0) (o.instr 0 0) :=
  encodedAs_row o 0 0 (fun _ => rfl) (fun _ => rfl) (fun _ => Nat.zero_le _)

theorem cmdWord_rbResize (n : Word) : cmdWord (.rbResize n) = 0x14000000 := by
  change packCmd Opcode.rbResize.code 0 0 = _
  decide

theorem cmdWord_rbSetcapf (k : Word) : cmdWord (.rbSetcapf k) = 0x16000000 := by
  change packCmd Opcode.rbSetcapf.code 0 0 = _
  decide

end Sys2Proof

namespace Sys2Proof.Machine

/-! ### One write to STORE or to a cursor file, as the statements say it -/

theorem storeSetAt_of_store {s t : State} {c p : Nat} {v : Word} (inv : s.Inv) (hp : p < 2 ^ 32)
    (ht : t.store = s.store.write (cellKey c p) v) : StoreSetAt s t c p v := by
  intro d q hq
  have read : t.storeRead d q = (s.storeWrite c p v).storeRead d q := congrArg (Memory.read · (cellKey d q)) ht
  rw [read, State.storeRead_storeWrite inv.store hp hq]

theorem wcurSetAt_of_wcur {s t : State} {c p : Nat} (inv : s.Inv) (hc : c < uint s.channels) (hp : p < uint s.capacity)
    (ht : t.wcur = s.wcur.set c (wordOfNat p)) : WcurSetAt s t c p := by
  have file : c < s.wcur.length := inv.wcurLength ▸ hc.trans_le inv.channels.2
  intro d
  rw [State.wcurAt, ht]
  exact uint_getD_set file (hp.trans (uint_lt _)) d

theorem rcurSetAt_of_rcur {s t : State} {c p : Nat} (inv : s.Inv) (hc : c < uint s.channels) (hp : p < uint s.capacity)
    (ht : t.rcur = s.rcur.set c (wordOfNat p)) : RcurSetAt s t c p := by
  have file : c < s.rcur.length := inv.rcurLength ▸ hc.trans_le inv.channels.2
  intro d
  rw [State.rcurAt, ht]
  exact uint_getD_set file (hp.trans (uint_lt _)) d

/-! ### The outcome of each command -/

theorem State.valid_eq_false_iff {s : State} {c : Nat} : s.valid c = false ↔ uint s.channels ≤ c := by
  simp [State.valid]

/-- The check of one slot on a valid channel, in a state that keeps R45. -/
theorem State.checkSlots_singleton {s : State} (inv : s.Inv) {c : Nat} (hc : s.valid c = true) (p : Nat) :
    s.checkSlots c [p] = if uint s.alloc ≤ p then .beyondAlloc else .inside := by
  simpa using State.checkSlots_of_inv inv hc [p]

/-- RB.WRITE in a state that keeps R45 (R112). -/
theorem exec_rbWrite_of_inv {s : State} (inv : s.Inv) (ch : BitVec 8) (x : Word) :
    exec (.rbWrite ch x) s = .next
      (if uint s.channels ≤ ch.toNat then (s.warn .chInv).respond 0
      else if uint s.alloc ≤ s.wcurAt ch.toNat then s.raise (.rbWrite ch x) .access
      else ((s.storeWrite ch.toNat (s.wcurAt ch.toNat) x).setWcur ch.toNat (s.adv (s.wcurAt ch.toNat))).respond 0) := by
  change execRbWrite ch x s = _
  unfold execRbWrite
  cases hc : s.valid ch.toNat with
  | false => simp [hc, State.valid_eq_false_iff.1 hc]
  | true =>
    have valid : ¬ uint s.channels ≤ ch.toNat := Nat.not_le.2 (State.valid_iff.1 hc)
    simp only [hc, valid, if_true, if_false, State.checkSlots_singleton inv hc]
    by_cases hw : uint s.alloc ≤ s.wcurAt ch.toNat <;> simp only [hw, if_true, if_false]

/-- RB.READ in a state that keeps R45 (R113). -/
theorem exec_rbRead_of_inv {s : State} (inv : s.Inv) (ch : BitVec 8) :
    exec (.rbRead ch) s = .next
      (if uint s.channels ≤ ch.toNat then (s.warn .chInv).respond s.hw.numFmt.zero
      else if uint s.alloc ≤ s.rcurAt ch.toNat then s.raise (.rbRead ch) .access
      else (s.setRcur ch.toNat (s.adv (s.rcurAt ch.toNat))).respond (s.storeRead ch.toNat (s.rcurAt ch.toNat))) := by
  change execRbRead ch s = _
  unfold execRbRead
  cases hc : s.valid ch.toNat with
  | false => simp [hc, State.valid_eq_false_iff.1 hc]
  | true =>
    have valid : ¬ uint s.channels ≤ ch.toNat := Nat.not_le.2 (State.valid_iff.1 hc)
    simp only [hc, valid, if_true, if_false, State.checkSlots_singleton inv hc]
    by_cases hr : uint s.alloc ≤ s.rcurAt ch.toNat <;> simp only [hr, if_true, if_false]

/-- RB.STEP in a state that keeps R45 (R119). -/
theorem exec_rbStep_of_inv {s : State} (inv : s.Inv) (ch : BitVec 8) (x f : Word) :
    exec (.rbStep ch x f) s = .next
      (if uint s.channels ≤ ch.toNat then (s.warn .chInv).respond s.hw.numFmt.zero
      else if uint s.alloc ≤ s.rcurAt ch.toNat ∨ uint s.alloc ≤ s.wcurAt ch.toNat then s.raise (.rbStep ch x f) .access
      else (stepState ch.toNat x f s).respond
        (mac s.hw.numFmt x f (s.storeRead ch.toNat (s.rcurAt ch.toNat)))) := by
  change execRbStep ch x f s = _
  unfold execRbStep
  cases hc : s.valid ch.toNat with
  | false => simp [hc, State.valid_eq_false_iff.1 hc]
  | true =>
    have valid : ¬ uint s.channels ≤ ch.toNat := Nat.not_le.2 (State.valid_iff.1 hc)
    simp only [hc, valid, if_true, if_false, combStep_of_inv inv hc]
    by_cases hs : uint s.alloc ≤ s.rcurAt ch.toNat ∨ uint s.alloc ≤ s.wcurAt ch.toNat <;> simp only [hs, if_true, if_false]

theorem exec_rbSetrp_of_invalid {s : State} {ch : BitVec 8} (hc : uint s.channels ≤ ch.toNat) (v : Word) :
    exec (.rbSetrp ch v) s = .next ((s.warn .chInv).respond 0) := by
  change execRbSetrp ch v s = _
  simp [execRbSetrp, State.valid_eq_false_iff.2 hc]

/-- A BAD lag (R114). -/
theorem exec_rbSetrp_of_bad {s : State} {ch : BitVec 8} {v : Word} (hc : ch.toNat < uint s.channels)
    (hlag : lagInt s.hw.numFmt v = none) :
    exec (.rbSetrp ch v) s = .next (s.raise (.rbSetrp ch v) .arg) := by
  change execRbSetrp ch v s = _
  simp [execRbSetrp, State.valid_iff.2 hc, hlag]

theorem exec_rbSetrp_of_lag {s : State} {ch : BitVec 8} {v : Word} {lag : Nat} (hc : ch.toNat < uint s.channels)
    (hlag : lagInt s.hw.numFmt v = some lag) :
    exec (.rbSetrp ch v) s = .next ((s.setRcur ch.toNat (s.lagSlot ch.toNat lag)).respond 0) := by
  change execRbSetrp ch v s = _
  simp [execRbSetrp, State.valid_iff.2 hc, hlag]

/-- RB.RESIZE in any state (R116). -/
theorem exec_rbResize (s : State) (n : Word) :
    exec (.rbResize n) s = .next
      (if sint n < 1 ∨ (s.hw.capMax : Int) < sint n then s.raise (.rbResize n) .arg
      else (s.allocate (uint n)).respond 0) := by
  change execRbResize n s = _
  unfold execRbResize
  cases hn : intInRange 1 s.hw.capMax n with
  | false =>
    have outside := intInRange_eq_false.1 hn
    rw [if_neg nofun, if_pos (by omega)]
  | true =>
    have inside := intInRange_iff.1 hn
    rw [if_pos rfl, if_neg (by omega)]

/-- RB.SETCAPF in any state (R118). -/
theorem exec_rbSetcapf (s : State) (k : Word) :
    exec (.rbSetcapf k) s = .next
      (if sint k < 1 ∨ 2 ^ 24 < sint k then s.raise (.rbSetcapf k) .arg else (s.setCapacity k).respond 0) := by
  change execRbSetcapf k s = _
  unfold execRbSetcapf
  cases hk : intInRange 1 (2 ^ 24) k with
  | false =>
    have outside := intInRange_eq_false.1 hk
    rw [if_neg nofun, if_pos (by omega)]
  | true =>
    have inside := intInRange_iff.1 hk
    rw [if_pos rfl, if_neg (by omega)]

/-! ### The lag under the advances -/

/-- Advancing the write position lengthens the lag by one (R124). -/
theorem lagPosition_advance_left {capacity : Nat} (pos : 0 < capacity) (w r : Nat) :
    lagPosition capacity (advance capacity w) r = (lagPosition capacity w r + 1) % capacity := by
  zify
  rw [lagPosition_cast pos, lagPosition_cast pos, advance]
  push_cast
  rw [Int.emod_sub_emod, Int.emod_add_emod]
  congr 1
  omega

/-- Advancing the read position shortens the lag by one (R124). -/
theorem lagPosition_advance_right {capacity : Nat} (pos : 0 < capacity) (w r : Nat) :
    (lagPosition capacity w (advance capacity r) + 1) % capacity = lagPosition capacity w r := by
  zify
  rw [lagPosition_cast pos, lagPosition_cast pos, advance]
  push_cast
  rw [Int.emod_add_emod, sub_add_eq_add_sub, Int.sub_emod_emod]
  congr 1
  omega

/-- Advancing both positions leaves the lag (R124). -/
theorem lagPosition_advance_both {capacity : Nat} (pos : 0 < capacity) (w r : Nat) :
    lagPosition capacity (advance capacity w) (advance capacity r) = lagPosition capacity w r := by
  rw [lagPosition_advance_left pos, lagPosition_advance_right pos]

/-- The lag of a channel depends on CAPACITY and its two cursors only. -/
theorem State.lagOf_eq {s t : State} {c w r : Nat} (capacity : t.capacity = s.capacity) (hw : t.wcurAt c = w)
    (hr : t.rcurAt c = r) : t.lagOf c = lagPosition (uint s.capacity) w r := by
  rw [State.lagOf, capacity, hw, hr]

/-- In a regular state the cursors of a valid channel are allocated slots. -/
theorem State.Regular.cursors_lt_alloc {s : State} (reg : s.Regular) (inv : s.Inv) {c : Nat} (hc : c < uint s.channels) :
    s.wcurAt c < uint s.alloc ∧ s.rcurAt c < uint s.alloc :=
  reg.capacityIsAlloc ▸ reg.cursors c (hc.trans_le inv.channels.2)

end Sys2Proof.Machine

namespace Sys2Proof.Proofs

open Sys2Proof.Machine

/-- Settles O21: the three outcomes of `exec_rbWrite_of_inv`, with the frame of the completed write by `rfl`. -/
theorem rbWriteStoresAndAdvances : Obligations.RbWriteStoresAndAdvances := by
  unfold Obligations.RbWriteStoresAndAdvances
  intro s ch x inv
  refine ⟨encodedAs_channelRow (o := .rbWrite) rfl ch, _, exec_rbWrite_of_inv inv ch x, ?_⟩
  split_ifs with invalid beyond
  · exact s.chInv_ignored 0
  · exact s.raise_raised (.rbWrite ch x) .access
  · have hc : ch.toNat < uint s.channels := Nat.not_le.1 invalid
    exact ⟨rfl, storeSetAt_of_store inv (s.wcurAt_lt _) rfl, wcurSetAt_of_wcur inv hc (inv.adv_lt _) rfl, rfl⟩

/-- Settles O22: the three outcomes of `exec_rbRead_of_inv`. -/
theorem rbReadAnswersAndAdvances : Obligations.RbReadAnswersAndAdvances := by
  unfold Obligations.RbReadAnswersAndAdvances
  intro s ch inv
  refine ⟨encodedAs_channelRow (o := .rbRead) rfl ch, _, exec_rbRead_of_inv inv ch, ?_⟩
  split_ifs with invalid beyond
  · exact s.chInv_ignored _
  · exact s.raise_raised (.rbRead ch) .access
  · have hc : ch.toNat < uint s.channels := Nat.not_le.1 invalid
    exact ⟨rfl, rcurSetAt_of_rcur inv hc (inv.adv_lt _) rfl, rfl⟩

/-- Settles O23: the channel is checked before the lag, and the new cursor is a Euclidean remainder
(`lagPosition_cast`). -/
theorem rbSetrpDerivesTheReadCursor : Obligations.RbSetrpDerivesTheReadCursor := by
  unfold Obligations.RbSetrpDerivesTheReadCursor
  intro s ch v inv
  refine ⟨encodedAs_channelRow (o := .rbSetrp) rfl ch, ?_⟩
  by_cases invalid : uint s.channels ≤ ch.toNat
  · exact ⟨_, exec_rbSetrp_of_invalid invalid v, by simpa only [invalid, if_true] using s.chInv_ignored 0⟩
  have hc : ch.toNat < uint s.channels := Nat.not_le.1 invalid
  simp only [invalid, if_false]
  cases hlag : lagInt s.hw.numFmt v with
  | none => exact ⟨_, exec_rbSetrp_of_bad hc hlag, s.raise_raised (.rbSetrp ch v) .arg⟩
  | some lag =>
    have slot := inv.lagSlot_lt ch.toNat lag
    have remainder : (s.lagSlot ch.toNat lag : Int) = (s.wcurAt ch.toNat - lag) % uint s.capacity :=
      lagPosition_cast (by omega) _ _
    refine ⟨_, exec_rbSetrp_of_lag hc hlag, rfl, ⟨_, rcurSetAt_of_rcur inv hc slot rfl, slot, ?_⟩, rfl⟩
    exact ⟨(s.wcurAt ch.toNat - lag) / uint s.capacity, by rw [remainder, Int.emod_add_ediv_mul]⟩

/-- Settles O27: the three outcomes of `exec_rbStep_of_inv`; the word stored is the word answered. -/
theorem rbStepReadsMixesAndWrites : Obligations.RbStepReadsMixesAndWrites := by
  unfold Obligations.RbStepReadsMixesAndWrites
  intro s ch x f inv
  refine ⟨encodedAs_channelRow (o := .rbStep) rfl ch, _, exec_rbStep_of_inv inv ch x f, ?_⟩
  split_ifs with invalid beyond
  · exact s.chInv_ignored _
  · exact s.raise_raised (.rbStep ch x f) .access
  · have hc : ch.toNat < uint s.channels := Nat.not_le.1 invalid
    exact ⟨rfl, storeSetAt_of_store inv (s.wcurAt_lt _) rfl, rcurSetAt_of_rcur inv hc (inv.adv_lt _) rfl,
      wcurSetAt_of_wcur inv hc (inv.adv_lt _) rfl, rfl⟩

/-- Settles O44: in a regular state each command completes, so O21, O22 and O27 give the cursors it leaves, and the
lag follows from them. -/
theorem readsAndWritesMoveTheLag : Obligations.ReadsAndWritesMoveTheLag := by
  unfold Obligations.ReadsAndWritesMoveTheLag
  intro s ch x f inv reg hc
  have pos : 0 < uint s.capacity := inv.capacity.1
  have valid : ¬ uint s.channels ≤ ch.toNat := Nat.not_le.2 hc
  obtain ⟨hw, hr⟩ := reg.cursors_lt_alloc inv hc
  have inside_w := Nat.not_le.2 hw
  have inside_r := Nat.not_le.2 hr
  refine ⟨?write, ?read, ?step⟩
  case write =>
    obtain ⟨-, t, run, post⟩ := rbWriteStoresAndAdvances s ch x inv
    rw [if_neg valid, if_neg inside_w] at post
    obtain ⟨-, -, wcur, frame⟩ := post
    have capacity : t.capacity = s.capacity := (congrArg State.capacity frame :)
    have rcur : t.rcurAt ch.toNat = s.rcurAt ch.toNat := (congrArg (State.rcurAt · ch.toNat) frame :)
    refine ⟨t, run, ?_⟩
    rw [State.lagOf_eq capacity ((wcur _).trans (if_pos rfl)) rcur]
    exact lagPosition_advance_left pos _ _
  case read =>
    obtain ⟨-, t, run, post⟩ := rbReadAnswersAndAdvances s ch inv
    rw [if_neg valid, if_neg inside_r] at post
    obtain ⟨-, rcur, frame⟩ := post
    have capacity : t.capacity = s.capacity := (congrArg State.capacity frame :)
    have wcur : t.wcurAt ch.toNat = s.wcurAt ch.toNat := (congrArg (State.wcurAt · ch.toNat) frame :)
    refine ⟨t, run, ?_⟩
    rw [State.lagOf_eq capacity wcur ((rcur _).trans (if_pos rfl))]
    exact lagPosition_advance_right pos _ _
  case step =>
    obtain ⟨-, t, run, post⟩ := rbStepReadsMixesAndWrites s ch x f inv
    rw [if_neg valid, if_neg (not_or.2 ⟨inside_r, inside_w⟩)] at post
    obtain ⟨-, -, rcur, wcur, frame⟩ := post
    have capacity : t.capacity = s.capacity := (congrArg State.capacity frame :)
    refine ⟨t, run, ?_⟩
    rw [State.lagOf_eq capacity ((wcur _).trans (if_pos rfl)) ((rcur _).trans (if_pos rfl))]
    exact lagPosition_advance_both pos _ _

/-- Settles O24: the body of RB.RESET clears the buffer (`State.clearBuffer_cleared`) and has no other effect. -/
theorem rbResetClearsTheBuffer : Obligations.RbResetClearsTheBuffer := by
  unfold Obligations.RbResetClearsTheBuffer
  intro s
  exact ⟨encodedAs_plainRow .rbReset, s.clearBuffer.respond 0, rfl, rfl, s.clearBuffer_cleared, rfl⟩

/-- Settles O25: the two outcomes of `exec_rbResize`; an accepted argument is its own unsigned value. -/
theorem rbResizeReallocates : Obligations.RbResizeReallocates := by
  unfold Obligations.RbResizeReallocates
  intro s n
  refine ⟨encodedAs_plainRow .rbResize, _, exec_rbResize s n, ?_⟩
  split_ifs with outside
  · exact cmdWord_rbResize n ▸ s.raise_raised (.rbResize n) .arg
  · exact ⟨rfl, wordOfNat_uint n, wordOfNat_uint n, s.allocate_cleared _, rfl⟩

/-- Settles O26: the two outcomes of `exec_rbSetcapf`; RB.GETCAP answers and does nothing else. -/
theorem capacityFieldIsReadAndWrittenAlone : Obligations.CapacityFieldIsReadAndWrittenAlone := by
  unfold Obligations.CapacityFieldIsReadAndWrittenAlone
  refine ⟨encodedAs_plainRow .rbGetcap, encodedAs_plainRow .rbSetcapf,
    fun s => ⟨s.respond s.capacity, rfl, rfl, rfl⟩, fun s k => ⟨_, exec_rbSetcapf s k, ?_⟩⟩
  split_ifs with outside
  · exact cmdWord_rbSetcapf k ▸ s.raise_raised (.rbSetcapf k) .arg
  · exact ⟨rfl, rfl, rfl⟩

end Sys2Proof.Proofs
end

section
/-! PROOFS. The clamp of a parameter by value (00_scope.md R15, R22): what CLAMP01 answers on a finite binary32 word and
on a Q8_24 word, and that it keeps a word already in [0, 1] (41_delay_effect.md R170). -/

namespace Sys2Proof.Machine

/-! ### A binary32 word against 0 and 1 -/

theorem f32Value_lt_zero {v : Word} : f32Value v < 0 ↔ f32Units v < 0 := by
  have unit : (0 : ℚ) < 2 ^ 149 := by positivity
  rw [f32Value_eq, div_lt_iff₀ unit, zero_mul, Int.cast_lt_zero]

theorem one_lt_f32Value {v : Word} : 1 < f32Value v ↔ f32OneUnits < f32Units v := by
  rw [f32Value_eq, one_lt_div (by positivity), f32OneUnits]
  norm_cast

theorem f32Value_eq_zero {v : Word} : f32Value v = 0 ↔ f32Units v = 0 := by
  have unit : (2 : ℚ) ^ 149 ≠ 0 := by positivity
  rw [f32Value_eq, div_eq_zero_iff, or_iff_left unit, Int.cast_eq_zero]

theorem f32Value_zero : f32Value NumFmt.f32.zero = 0 := f32Value_eq_zero.2 (by decide)

theorem f32Value_one : f32Value NumFmt.f32.one = 1 := by
  have units : f32Units NumFmt.f32.one = 2 ^ 149 := by decide
  rw [f32Value_eq, units]
  norm_num

/-- Two words only have the value zero: `+0` and `-0` (R10). -/
theorem eq_zero_or_of_f32Units_eq_zero {v : Word} (h : f32Units v = 0) : v = 0 ∨ v = 0x80000000 := by
  have mag : magOf (v.toNat % 2 ^ 31) = magOf 0 := by
    rw [← f32Mag_eq]
    unfold f32Units at h
    split at h <;> simpa [magOf] using h
  have self := f32Pack_self v
  rw [magOf_strictMono.injective mag] at self
  cases hs : f32Sign v <;> rw [hs] at self
  · exact .inl self.symm
  · exact .inr self.symm

/-! ### What CLAMP01 answers -/

/-- A finite word is compared by its units (R15). -/
theorem clampF32_finite {v : Word} (h : f32Finite v = true) :
    clampF32 v = if f32Units v < 0 then (NumFmt.f32.zero, true)
      else if f32OneUnits < f32Units v then (NumFmt.f32.one, true)
      else if f32Units v = 0 then (NumFmt.f32.zero, false) else (v, false) := by
  simp [clampF32, f32Below0, f32Above1, not_nan_of_finite h, not_inf_of_finite h]

theorem clampF32_nan {v : Word} (h : f32IsNaN v = true) : clampF32 v = (NumFmt.f32.one, true) := if_pos h

/-- The clamped word's value (R15). -/
theorem f32Value_clampF32 {v : Word} (h : f32Finite v = true) :
    f32Value (clampF32 v).1 = max 0 (min 1 (f32Value v)) := by
  rw [clampF32_finite h]
  split_ifs with below above zero
  · have neg := f32Value_lt_zero.2 below
    rw [f32Value_zero, max_eq_left (min_le_of_right_le neg.le)]
  · have big := one_lt_f32Value.2 above
    rw [f32Value_one, min_eq_left big.le, max_eq_right zero_le_one]
  · rw [f32Value_zero, f32Value_eq_zero.2 zero, min_eq_right zero_le_one, max_self]
  · have nonneg := not_lt.1 (mt f32Value_lt_zero.1 below)
    have le_one := not_lt.1 (mt one_lt_f32Value.1 above)
    rw [min_eq_right le_one, max_eq_right nonneg]

/-- When the flag is set (R15). -/
theorem clampF32_flag {v : Word} (h : f32Finite v = true) :
    (clampF32 v).2 = true ↔ f32Value v < 0 ∨ 1 < f32Value v := by
  rw [clampF32_finite h, f32Value_lt_zero, one_lt_f32Value]
  split_ifs with below above
  · exact iff_of_true rfl (.inl below)
  · exact iff_of_true rfl (.inr above)
  all_goals exact iff_of_false nofun (not_or.2 ⟨below, above⟩)

/-- A value in [0, 1] keeps its word, but for the sign of a zero (R15). -/
theorem clampF32_inside {v : Word} (h : f32Finite v = true) (lo : 0 ≤ f32Value v) (hi : f32Value v ≤ 1) :
    (clampF32 v).1 = if f32Value v = 0 then 0 else v := by
  have below := mt f32Value_lt_zero.2 lo.not_gt
  have above := mt one_lt_f32Value.2 hi.not_gt
  rw [clampF32_finite h, if_neg below, if_neg above]
  simp only [f32Value_eq_zero]
  split_ifs <;> rfl

theorem sint_clampQ (v : Word) : sint (clampQ v).1 = max 0 (min (2 ^ 24) (sint v)) := by
  have zero : sint NumFmt.q824.zero = 0 := by decide
  have one : sint NumFmt.q824.one = 2 ^ 24 := by decide
  unfold clampQ
  split_ifs <;> simp only [zero, one] <;> omega

theorem clampQ_flag (v : Word) : (clampQ v).2 = true ↔ sint v < 0 ∨ 2 ^ 24 < sint v := by
  unfold clampQ
  split_ifs with below above
  · exact iff_of_true rfl (.inl below)
  · exact iff_of_true rfl (.inr above)
  · exact iff_of_false nofun (not_or.2 ⟨below, above⟩)

/-- CLAMP01 keeps a word that R39 admits in a gain or ratio register, and does not flag it. -/
theorem clamp01_of_unitWord {fmt : NumFmt} {v : Word} (h : unitWord fmt v = true) : clamp01 fmt v = (v, false) := by
  cases fmt with
  | f32 =>
    obtain ⟨⟨⟨nan, negZero⟩, below⟩, above⟩ :
        ((f32IsNaN v = false ∧ v ≠ 0x80000000) ∧ f32Below0 v = false) ∧ f32Above1 v = false := by
      simpa [unitWord] using h
    change clampF32 v = _
    unfold clampF32
    simp only [nan, below, above, Bool.false_eq_true, if_false]
    split_ifs with zero
    · rw [(eq_zero_or_of_f32Units_eq_zero zero).resolve_right negZero]
      rfl
    · rfl
  | q824 =>
    have range : 0 ≤ sint v ∧ sint v ≤ 2 ^ 24 := by simpa [unitWord] using h
    change clampQ v = _
    rw [clampQ, if_neg (by omega), if_neg (by omega)]

end Sys2Proof.Machine
end

section
/-! PROOFS. The delay-effect commands but DE.PROCESS (41_delay_effect.md R160 to R166, R170, R171): the outcome of each
command as one equation, the derived delay as an exact quotient, and the read cursors DE.SETDLY leaves. -/

namespace Sys2Proof.Machine

/-! ### The derived delay -/

/-- `dsamp` of two argument words (R161), as DE.RESET and DE.SETDLY derive it. -/
def derivedDelay (sampleRate delayTimeMs : Word) : Nat := dsamp (sint sampleRate).toNat (sint delayTimeMs).toNat

/-- On arguments that are not negative the derived delay is R161's exact quotient. -/
theorem derivedDelay_cast {sr ms : Word} (hsr : 0 ≤ sint sr) (hms : 0 ≤ sint ms) :
    (derivedDelay sr ms : Int) = sint sr * sint ms / 1000 := by
  unfold derivedDelay dsamp
  push_cast
  rw [Int.toNat_of_nonneg hsr, Int.toNat_of_nonneg hms]

/-! ### Updates -/

/-- An error raised by a command without channel and index operands, under the literal of its row's word. -/
theorem State.raise_raised_plain (s : State) {i : Instr} {o : Opcode} {w : Word} (ho : i.opcode = o)
    (hch : i.chOperand = 0) (hidx : i.idxOperand = 0) (hw : packCmd o.code 0 0 = w) (e : ErrorKind) :
    Raised s (s.raise i e) w (errorBit e) := by
  have word : cmdWord i = w := by rw [cmdWord, ho, hch, hidx, hw]
  exact word ▸ s.raise_raised i e

theorem State.warnIf_false (s : State) (w : Warning) : s.warnIf false w = s := rfl

/-- Clearing the warnings leaves no warning bit set (42_host_access.md R216). -/
theorem State.statusBit_of_clearWarnings {t : State} {status : Word} (h : t.status = clearWarnings status) {n : Nat}
    (hn : n < 4) : t.statusBit n = false := by
  rw [State.statusBit, h, clearWarnings_getLsbD, decide_eq_false (Nat.not_le.2 hn), Bool.and_false]

theorem State.Inv.rcurAt_reposition {s : State} (inv : s.Inv) (lag c d : Nat) :
    (s.reposition lag c).rcurAt d = if d = c ∧ c < uint s.channels then s.lagSlot c lag else s.rcurAt d := by
  rw [State.reposition_eq]
  by_cases hc : c < uint s.channels
  · have write := rcurSetAt_of_rcur (t := s.setRcur c (s.lagSlot c lag)) inv hc (inv.lagSlot_lt c lag) rfl d
    rw [if_pos (State.valid_iff.2 hc), write]
    simp only [hc, and_true]
  · rw [if_neg (mt State.valid_iff.1 hc), if_neg (fun h => hc h.2)]

/-- DE.SETDLY's loop (R163): the cursors of channels 0 and 1, each if valid, and no other. -/
theorem State.Inv.rcurAt_reposition_both {s : State} (inv : s.Inv) (lag c : Nat) :
    ((s.reposition lag 0).reposition lag 1).rcurAt c =
      if c < 2 ∧ c < uint s.channels then s.lagSlot c lag else s.rcurAt c := by
  have slot : (s.reposition lag 0).lagSlot 1 lag = s.lagSlot 1 lag := rfl
  rw [(inv.reposition lag 0).rcurAt_reposition, inv.rcurAt_reposition, slot, State.reposition_channels]
  match c with
  | 0 => simp
  | 1 => simp
  | c + 2 => simp

/-- What an accepted DE.SETDLY does to the registers and cursors for a derived delay of `ds` samples (R163). -/
def State.setDelay (s : State) (ds : Nat) : State :=
  let lag := min ds (uint s.capacity - 1)
  let set := (s.warnIf (uint s.capacity - 1 < ds) .dlyClamp).setDelaySamples lag
  (set.reposition lag 0).reposition lag 1

theorem State.setDelay_statusSet (s : State) (ds : Nat) :
    StatusSet s (s.setDelay ds) (if uint s.capacity - 1 < ds then [3] else []) := by
  have warned : StatusSet s (s.setDelay ds) (if decide (uint s.capacity - 1 < ds) then [3] else []) :=
    s.warnIf_statusSet _ .dlyClamp
  simpa only [decide_eq_true_eq] using warned

theorem State.setDelay_delaySamples (s : State) (ds : Nat) :
    (s.setDelay ds).delaySamples = wordOfNat (min ds (uint s.capacity - 1)) := rfl

theorem State.Inv.setDelay_rcurAt {s : State} (inv : s.Inv) (ds c : Nat) :
    (s.setDelay ds).rcurAt c =
      if c < 2 ∧ c < uint s.channels then s.lagSlot c (min ds (uint s.capacity - 1)) else s.rcurAt c := by
  have bound : min ds (uint s.capacity - 1) ≤ 2 ^ 24 := by have := inv.capacity; omega
  exact ((inv.warnIf _ .dlyClamp).setDelaySamples bound).rcurAt_reposition_both _ c

theorem State.setDelay_output (s : State) (ds : Nat) : (s.setDelay ds).output = s.output := rfl

/-- DE.SETDLY keeps every field but three. -/
theorem State.setDelay_frame (s : State) (ds : Nat) :
    { s.setDelay ds with status := s.status, delaySamples := s.delaySamples, rcur := s.rcur } = s := by
  simp [State.setDelay]

/-! ### The outcome of each command -/

/-- INIT in any state (R160). -/
theorem exec_init (s : State) (n k : Word) :
    exec (.init n k) s = .next
      (if sint n < 1 ∨ (s.hw.capMax : Int) < sint n ∨ sint k < 1 ∨ (s.hw.nchMax : Int) < sint k then
        s.raise (.init n k) .arg
      else ((s.construct k).allocate (uint n)).respond 0) := by
  change execInit n k s = _
  unfold execInit
  by_cases inside : intInRange 1 s.hw.capMax n = true ∧ intInRange 1 s.hw.nchMax k = true
  · rw [if_pos (Bool.and_eq_true_iff.2 inside), if_neg]
    simp only [intInRange_iff] at inside
    omega
  · rw [if_neg (mt Bool.and_eq_true_iff.1 inside), if_pos]
    simp only [intInRange_iff] at inside
    omega

/-- DE.RESET in any state (R162). -/
theorem exec_deReset (s : State) (sr ms : Word) :
    exec (.deReset sr ms) s = .next
      (if sint sr < 0 ∨ sint ms < 0 ∨ sint sr * sint ms / 1000 < 1 ∨ (s.hw.capMax : Int) < sint sr * sint ms / 1000 then
        s.raise (.deReset sr ms) .arg
      else ((s.setDelaySamples (derivedDelay sr ms)).allocate (derivedDelay sr ms)).respond 0) := by
  change execDeReset sr ms s = _
  unfold execDeReset
  change (if _ then _ else if derivedDelay sr ms < 1 ∨ s.hw.capMax < derivedDelay sr ms then _ else _) = _
  by_cases negative : sint sr < 0 ∨ sint ms < 0
  · rw [if_pos negative, if_pos (by tauto)]
  · have quotient : (derivedDelay sr ms : Int) = sint sr * sint ms / 1000 :=
      derivedDelay_cast (by omega) (by omega)
    rw [if_neg negative, ← quotient]
    by_cases outside : derivedDelay sr ms < 1 ∨ s.hw.capMax < derivedDelay sr ms
    · rw [if_pos outside, if_pos (by omega)]
    · rw [if_neg outside, if_neg (by omega)]
      rfl

/-- DE.SETDLY in any state (R163). -/
theorem exec_deSetdly (s : State) (ms sr : Word) :
    exec (.deSetdly ms sr) s = .next
      (if sint sr < 0 ∨ sint ms < 0 then s.raise (.deSetdly ms sr) .arg
      else (s.setDelay (derivedDelay sr ms)).respond 0) := by
  change execDeSetdly ms sr s = _
  unfold execDeSetdly
  by_cases negative : sint sr < 0 ∨ sint ms < 0
  · simp only [if_pos negative]
  · simp only [if_neg negative]
    rfl

/-- DE.SETFB in any state (R164). -/
theorem exec_deSetfb (s : State) (v : Word) :
    exec (.deSetfb v) s = .next
      (((s.warnIf (clamp01 s.hw.numFmt v).2 .fbRange).setFeedback (clamp01 s.hw.numFmt v).1).respond 0) := rfl

/-- DE.SETMIX in any state (R165). -/
theorem exec_deSetmix (s : State) (v : Word) :
    exec (.deSetmix v) s = .next
      (((s.warnIf (clamp01 s.hw.numFmt v).2 .mixRange).setMix (clamp01 s.hw.numFmt v).1).respond 0) := rfl

/-- STAT.CLR in any state (42_host_access.md R216). -/
theorem exec_statClr (s : State) : exec .statClr s = .next (s.clearWarningBits.respond 0) := rfl

/-- DE.SETFB of a word in [0, 1] sets no flag. -/
theorem exec_deSetfb_of_unitWord {s : State} {v : Word} (h : unitWord s.hw.numFmt v = true) :
    exec (.deSetfb v) s = .next ((s.setFeedback v).respond 0) := by
  rw [exec_deSetfb, clamp01_of_unitWord h, State.warnIf_false]

/-- DE.SETMIX of a word in [0, 1] sets no flag. -/
theorem exec_deSetmix_of_unitWord {s : State} {v : Word} (h : unitWord s.hw.numFmt v = true) :
    exec (.deSetmix v) s = .next ((s.setMix v).respond 0) := by
  rw [exec_deSetmix, clamp01_of_unitWord h, State.warnIf_false]

/-- DE.MIXSTEP in a state that keeps R45 (R166). -/
theorem exec_deMixstep_of_inv {s : State} (inv : s.Inv) (ch : BitVec 8) (x : Word) :
    exec (.deMixstep ch x) s = .next
      (if uint s.channels ≤ ch.toNat then (s.warn .chInv).respond (blend s.hw.numFmt s.mix s.hw.numFmt.zero x)
      else if uint s.alloc ≤ s.rcurAt ch.toNat ∨ uint s.alloc ≤ s.wcurAt ch.toNat then s.raise (.deMixstep ch x) .access
      else (stepState ch.toNat x s.feedback s).respond
        (blend s.hw.numFmt s.mix (mac s.hw.numFmt x s.feedback (s.storeRead ch.toNat (s.rcurAt ch.toNat))) x)) := by
  change execDeMixstep ch x s = _
  unfold execDeMixstep
  simp only [mixSample_of_inv inv]
  by_cases invalid : uint s.channels ≤ ch.toNat
  · simp only [State.valid_eq_false_iff.2 invalid, Bool.false_eq_true, if_false, if_pos invalid]
  · simp only [State.valid_iff.2 (Nat.not_le.1 invalid), if_true, if_neg invalid]
    by_cases beyond : uint s.alloc ≤ s.rcurAt ch.toNat ∨ uint s.alloc ≤ s.wcurAt ch.toNat
    · simp only [if_pos beyond]
    · simp only [if_neg beyond]

end Sys2Proof.Machine

namespace Sys2Proof.Proofs

open Sys2Proof.Machine

/-- Settles O30: the two outcomes of `exec_deReset`; an accepted delay is at most CAP_MAX, so it fits in a word. -/
theorem deResetSizesToTheDelay : Obligations.DeResetSizesToTheDelay := by
  unfold Obligations.DeResetSizesToTheDelay
  intro s sr ms inv
  refine ⟨encodedAs_plainRow .deReset, _, exec_deReset s sr ms, ?_⟩
  dsimp only
  split_ifs with rejected
  · exact s.raise_raised_plain (o := .deReset) rfl rfl rfl (by decide) .arg
  · have quotient : (derivedDelay sr ms : Int) = sint sr * sint ms / 1000 :=
      derivedDelay_cast (by omega) (by omega)
    obtain ⟨-, ⟨-, capMax⟩, -⟩ := inv.legal
    have word : (uint (wordOfNat (derivedDelay sr ms)) : Int) = sint sr * sint ms / 1000 := by
      rw [uint_wordOfNat (by omega), quotient]
    exact ⟨rfl, word, word, word, State.allocate_cleared _ _, by simp⟩

/-- Settles O31: the two outcomes of `exec_deSetdly`; the cursors are those of `State.Inv.setDelay_rcurAt`, each a
Euclidean remainder (`lagPosition_cast`). -/
theorem deSetdlyRepositionsChannelsZeroAndOne : Obligations.DeSetdlyRepositionsChannelsZeroAndOne := by
  unfold Obligations.DeSetdlyRepositionsChannelsZeroAndOne
  intro s ms sr inv
  refine ⟨encodedAs_plainRow .deSetdly, _, exec_deSetdly s ms sr, ?_⟩
  by_cases rejected : sint sr < 0 ∨ sint ms < 0
  · simp only [if_pos rejected]
    exact s.raise_raised_plain (o := .deSetdly) rfl rfl rfl (by decide) .arg
  simp only [if_neg rejected]
  obtain ⟨cap_pos, cap_le⟩ := inv.capacity
  have quotient : (derivedDelay sr ms : Int) = sint sr * sint ms / 1000 := derivedDelay_cast (by omega) (by omega)
  rw [← quotient]
  generalize derivedDelay sr ms = ds
  have lag_cast : ((min ds (uint s.capacity - 1) : Nat) : Int) = min (ds : Int) (uint s.capacity - 1) := by omega
  have clamps : (ds : Int) > uint s.capacity - 1 ↔ uint s.capacity - 1 < ds := by omega
  rw [← lag_cast]
  simp only [clamps]
  refine ⟨rfl, s.setDelay_statusSet ds, ?delay, fun c => ?cursor, ?frame⟩
  case delay =>
    rw [State.respond_delaySamples, State.setDelay_delaySamples, uint_wordOfNat (by omega)]
  case cursor =>
    rw [State.respond_rcurAt, inv.setDelay_rcurAt]
    split_ifs
    · exact lagPosition_cast cap_pos _ _
    · rfl
  case frame =>
    simpa [State.setDelay_output] using s.setDelay_frame ds

/-- Settles O33: the three outcomes of `exec_deMixstep_of_inv`; the word stored is the step's, before the blend. -/
theorem deMixstepBlendsOneSample : Obligations.DeMixstepBlendsOneSample := by
  unfold Obligations.DeMixstepBlendsOneSample
  intro s ch x inv
  refine ⟨encodedAs_channelRow (o := .deMixstep) rfl ch, _, exec_deMixstep_of_inv inv ch x, ?_⟩
  split_ifs with invalid beyond
  · exact s.chInv_ignored _
  · exact s.raise_raised (.deMixstep ch x) .access
  · have hc : ch.toNat < uint s.channels := Nat.not_le.1 invalid
    exact ⟨rfl, storeSetAt_of_store inv (s.wcurAt_lt _) rfl, rcurSetAt_of_rcur inv hc (inv.adv_lt _) rfl,
      wcurSetAt_of_wcur inv hc (inv.adv_lt _) rfl, rfl⟩

/-- Settles O50: the clamped word is in [0, 1] (`unitWord_clamp01`), so CLAMP01 keeps it (`clamp01_of_unitWord`) and the
second command sets no flag; the values are those of the clamp's lemmas, the infinities by evaluation. -/
theorem clampingIsIdempotent : Obligations.ClampingIsIdempotent := by
  unfold Obligations.ClampingIsIdempotent
  refine ⟨fun s x => ⟨?feedback, ?mix⟩, fun fmt x => clamp01_of_unitWord (unitWord_clamp01 fmt x),
    fun x fin => ⟨f32Value_clampF32 fin, clampF32_flag fin, clampF32_inside fin⟩,
    fun x => ⟨sint_clampQ x, clampQ_flag x⟩, by decide, by decide, fun x notFinite frac => clampF32_nan ?nan⟩
  case feedback =>
    exact ⟨_, _, _, exec_deSetfb s x, by simp, exec_statClr _, exec_deSetfb_of_unitWord (by simp [unitWord_clamp01]),
      by simp, by simp, State.statusBit_of_clearWarnings rfl (by decide)⟩
  case mix =>
    exact ⟨_, _, _, exec_deSetmix s x, by simp, exec_statClr _, exec_deSetmix_of_unitWord (by simp [unitWord_clamp01]),
      by simp, by simp, State.statusBit_of_clearWarnings rfl (by decide)⟩
  case nan =>
    have notInf : f32IsInf x = false := by simp [f32IsInf, frac]
    exact (nan_or_inf notFinite).resolve_right (by simp [notInf])

/-- Settles O29: the two outcomes of `exec_init`; an accepted size is its own unsigned value. -/
theorem initConstructs : Obligations.InitConstructs := by
  unfold Obligations.InitConstructs
  intro s n k
  refine ⟨encodedAs_plainRow .init, _, exec_init s n k, ?_⟩
  split_ifs with outside
  · exact s.raise_raised_plain (o := .init) rfl rfl rfl (by decide) .arg
  · exact ⟨rfl, rfl, wordOfNat_uint n, wordOfNat_uint n, State.allocate_cleared _ _, rfl, rfl, rfl, by simp⟩

/-- Settles O32: each command clamps, warns by the flag (`State.warnIf_statusSet`) and has no other effect. -/
theorem parametersAreClamped : Obligations.ParametersAreClamped := by
  unfold Obligations.ParametersAreClamped
  intro s v
  exact ⟨encodedAs_plainRow .deSetfb, encodedAs_plainRow .deSetmix,
    ⟨_, exec_deSetfb s v, rfl, rfl, s.warnIf_statusSet _ .fbRange, by simp⟩,
    ⟨_, exec_deSetmix s v, rfl, rfl, s.warnIf_statusSet _ .mixRange, by simp⟩⟩

/-- Settles O48, from O31: DELAY_SAMPLES is the derived delay or CAPACITY - 1, whichever is less. -/
theorem delayTimeClamp : Obligations.DelayTimeClamp := by
  unfold Obligations.DelayTimeClamp
  intro s ms sr inv hms hsr
  obtain ⟨-, t, run, post⟩ := deSetdlyRepositionsChannelsZeroAndOne s ms sr inv
  rw [if_neg (by omega)] at post
  obtain ⟨-, -, delay, -, frame⟩ := post
  have capacity : t.capacity = s.capacity := (congrArg State.capacity frame :)
  refine ⟨t, run, ?_⟩
  rw [capacity]
  constructor <;> omega

end Sys2Proof.Proofs
end

section
/-! PROOFS. The host-access commands (42_host_access.md R210 to R216): the outcome of each command as one equation, the
write to BLK, and the table of REG.RD as a list. -/

namespace Sys2Proof

open Sys2Proof.Machine

/-- A row whose field operands are its channel and its index. -/
theorem encodedAs_channelIndexRow {o : Opcode} (channel : o.takesChannel = true) (index : o.takesIndex = true)
    (notRegRd : o ≠ .regRd) (ch : BitVec 8) (idx : BitVec 16) :
    EncodedAs (o.code ++ ch ++ idx) (o.instr ch idx) :=
  encodedAs_row o ch idx (fun h => absurd (channel.symm.trans h) nofun) (fun h => absurd (index.symm.trans h) nofun)
    (fun h => absurd h notRegRd)

end Sys2Proof

namespace Sys2Proof.Machine

/-! ### The block buffer -/

theorem State.blkHas_eq_false_iff {s : State} {c i : Nat} :
    s.blkHas c i = false ↔ s.hw.nchMax ≤ c ∨ s.hw.blkMax ≤ i := by
  simp only [State.blkHas, decide_eq_false_iff_not]
  omega

/-- One write to BLK, as the statements say it. -/
theorem blkSetAt_of_blk {s t : State} {c i : Nat} {v : Word} (inv : s.Inv) (hi : i < 2 ^ 32)
    (ht : t.blk = s.blk.write (cellKey c i) v) : BlkSetAt s t c i v := by
  intro d j hj
  have read : t.blkRead d j = (s.blkWrite c i v).blkRead d j := congrArg (Memory.read · (cellKey d j)) ht
  rw [read, State.blkRead_blkWrite inv.blk hi hj]

/-- An index operand is within the indices of one channel of a memory. -/
theorem indexNat_lt (idx : BitVec 16) : idx.toNat < 2 ^ 32 := idx.isLt.trans (by decide)

/-! ### The table of REG.RD -/

/-- R213's table, in the order of its selectors. -/
def State.registerTable (s : State) : List Word :=
  [s.status, s.capacity, s.alloc, s.channels, s.feedback, s.mix, s.delaySamples, s.errCmd, wordOfNat s.hw.numFmt.code,
    wordOfNat s.hw.nchMax, wordOfNat s.hw.capMax, wordOfNat s.hw.blkMax, s.hwId]

/-- A selector in the table names the register at its place. -/
theorem State.register_eq_table (s : State) {sel : Nat} (h : sel ≤ 0x000C) :
    s.register sel = some (s.registerTable.getD sel 0) := by
  interval_cases sel <;> rfl

/-! ### The outcome of each command -/

/-- The channel check (40_ring_buffer.md R110) as the statements say it. -/
theorem State.ite_valid (s : State) (c : Nat) (t u : State) :
    (if s.valid c then .next t else .next u : Result) = .next (if uint s.channels ≤ c then u else t) := by
  cases hc : s.valid c with
  | false => rw [if_pos (State.valid_eq_false_iff.1 hc), if_neg nofun]
  | true => rw [if_neg (Nat.not_le.2 (State.valid_iff.1 hc)), if_pos rfl]

/-- The check of a BLK word's channel and index (20_memory.md R60) as the statements say it. -/
theorem State.ite_blkHas (s : State) (c i : Nat) (t u : State) :
    (if s.blkHas c i then .next t else .next u : Result) =
      .next (if s.hw.nchMax ≤ c ∨ s.hw.blkMax ≤ i then u else t) := by
  cases hb : s.blkHas c i with
  | false => rw [if_pos (State.blkHas_eq_false_iff.1 hb), if_neg nofun]
  | true =>
    have inside : ¬ (s.hw.nchMax ≤ c ∨ s.hw.blkMax ≤ i) := fun h =>
      Bool.false_ne_true ((State.blkHas_eq_false_iff.2 h).symm.trans hb)
    rw [if_neg inside, if_pos rfl]

/-- RB.GETWC in any state (R214). -/
theorem exec_rbGetwc (s : State) (ch : BitVec 8) :
    exec (.rbGetwc ch) s = .next
      (if uint s.channels ≤ ch.toNat then (s.warn .chInv).respond 0 else s.respond (s.wcur.getD ch.toNat 0)) := by
  have cursor : wordOfNat (s.wcurAt ch.toNat) = s.wcur.getD ch.toNat 0 := wordOfNat_uint _
  rw [← cursor]
  exact s.ite_valid _ _ _

/-- RB.GETRC in any state (R215). -/
theorem exec_rbGetrc (s : State) (ch : BitVec 8) :
    exec (.rbGetrc ch) s = .next
      (if uint s.channels ≤ ch.toNat then (s.warn .chInv).respond 0 else s.respond (s.rcur.getD ch.toNat 0)) := by
  have cursor : wordOfNat (s.rcurAt ch.toNat) = s.rcur.getD ch.toNat 0 := wordOfNat_uint _
  rw [← cursor]
  exact s.ite_valid _ _ _

/-- BLK.WR in any state (R211). -/
theorem exec_blkWr (s : State) (ch : BitVec 8) (idx : BitVec 16) (v : Word) :
    exec (.blkWr ch idx v) s = .next
      (if s.hw.nchMax ≤ ch.toNat ∨ s.hw.blkMax ≤ idx.toNat then s.raise (.blkWr ch idx v) .arg
      else (s.blkWrite ch.toNat idx.toNat v).respond 0) :=
  s.ite_blkHas _ _ _ _

/-- BLK.RD in any state (R212). -/
theorem exec_blkRd (s : State) (ch : BitVec 8) (idx : BitVec 16) :
    exec (.blkRd ch idx) s = .next
      (if s.hw.nchMax ≤ ch.toNat ∨ s.hw.blkMax ≤ idx.toNat then s.raise (.blkRd ch idx) .arg
      else s.respond (s.blkRead ch.toNat idx.toNat)) :=
  s.ite_blkHas _ _ _ _

/-- REG.RD of a selector in the table (R213). -/
theorem exec_regRd_of_le (s : State) {sel : BitVec 16} (h : sel.toNat ≤ 0x000C) :
    exec (.regRd sel) s = .next (s.respond (s.registerTable.getD sel.toNat 0)) := by
  have present : s.register (indexNat sel) = some (s.registerTable.getD sel.toNat 0) := s.register_eq_table h
  change execRegRd sel s = _
  unfold execRegRd
  rw [present]

end Sys2Proof.Machine

namespace Sys2Proof.Proofs

open Sys2Proof.Machine

/-- Settles O28: the two outcomes of `exec_rbGetwc` and of `exec_rbGetrc`, in any state. -/
theorem cursorsAreReadBack : Obligations.CursorsAreReadBack := by
  unfold Obligations.CursorsAreReadBack
  intro s ch _
  refine ⟨encodedAs_channelRow (o := .rbGetwc) rfl ch, encodedAs_channelRow (o := .rbGetrc) rfl ch,
    ⟨_, exec_rbGetwc s ch, ?wcur⟩, ⟨_, exec_rbGetrc s ch, ?rcur⟩⟩
  case wcur =>
    split_ifs with invalid
    · exact s.chInv_ignored 0
    · exact ⟨rfl, rfl⟩
  case rcur =>
    split_ifs with invalid
    · exact s.chInv_ignored 0
    · exact ⟨rfl, rfl⟩

/-- Settles O38: STAT.CLR's mask keeps the bits from 4 up (`clearWarnings_getLsbD`); both commands have no other effect. -/
theorem nopAndStatClr : Obligations.NopAndStatClr := by
  unfold Obligations.NopAndStatClr
  intro s
  exact ⟨encodedAs_plainRow .nop, encodedAs_plainRow .statClr, ⟨s.respond 0, rfl, rfl, rfl⟩,
    ⟨_, exec_statClr s, rfl, clearWarnings_getLsbD s.status, rfl⟩⟩

/-- Settles O39: the two outcomes of `exec_blkWr` and of `exec_blkRd`; the word written is the one that changes
(`blkSetAt_of_blk`). -/
theorem blockBufferIsWrittenAndReadBack : Obligations.BlockBufferIsWrittenAndReadBack := by
  unfold Obligations.BlockBufferIsWrittenAndReadBack
  intro s ch idx v inv
  refine ⟨encodedAs_channelIndexRow (o := .blkWr) rfl rfl nofun ch idx,
    encodedAs_channelIndexRow (o := .blkRd) rfl rfl nofun ch idx,
    ⟨_, exec_blkWr s ch idx v, ?write⟩, ⟨_, exec_blkRd s ch idx, ?read⟩⟩
  case write =>
    split_ifs with outside
    · exact s.raise_raised (.blkWr ch idx v) .arg
    · exact ⟨rfl, blkSetAt_of_blk inv (indexNat_lt idx) rfl, rfl⟩
  case read =>
    split_ifs with outside
    · exact s.raise_raised (.blkRd ch idx) .arg
    · exact ⟨rfl, rfl⟩

/-- Settles O40: the answer is a register of the table (`exec_regRd_of_le`); HW_ID is the constant of R44, and HW_NUMFMT
is the code of either profile. -/
theorem regRdReadsTheTable : Obligations.RegRdReadsTheTable := by
  unfold Obligations.RegRdReadsTheTable
  intro s sel inv inTable
  refine ⟨encodedAs_row .regRd 0 sel (fun _ => rfl) nofun (fun _ => inTable), _, exec_regRd_of_le s inTable, rfl, ?_⟩
  rw [State.registerTable, inv.hwId]
  cases s.hw.numFmt with
  | f32 => rfl
  | q824 => rfl

end Sys2Proof.Proofs
end

section
/-! PROOFS. The two round trips of the encoding (30_encoding.md R81 to R84): a command is its row with its operands, and
the operands a row does not use are the fields that `decode` has found to be 0. -/

namespace Sys2Proof

open Sys2Proof.Machine

/-- Every command's word has the fields of its row. -/
theorem encodedFields (i : Instr) : Laws.EncodedFields.Statement i := by
  cases i with
  | nop => exact Laws.EncodedFields.nop
  | init m n => exact Laws.EncodedFields.init m n
  | rbWrite ch x => exact Laws.EncodedFields.rbWrite ch x
  | rbRead ch => exact Laws.EncodedFields.rbRead ch
  | rbSetrp ch l => exact Laws.EncodedFields.rbSetrp ch l
  | rbReset => exact Laws.EncodedFields.rbReset
  | rbResize n => exact Laws.EncodedFields.rbResize n
  | rbGetcap => exact Laws.EncodedFields.rbGetcap
  | rbSetcapf k => exact Laws.EncodedFields.rbSetcapf k
  | rbStep ch x f => exact Laws.EncodedFields.rbStep ch x f
  | rbGetwc ch => exact Laws.EncodedFields.rbGetwc ch
  | rbGetrc ch => exact Laws.EncodedFields.rbGetrc ch
  | deReset sr ms => exact Laws.EncodedFields.deReset sr ms
  | deSetdly ms sr => exact Laws.EncodedFields.deSetdly ms sr
  | deSetfb v => exact Laws.EncodedFields.deSetfb v
  | deSetmix v => exact Laws.EncodedFields.deSetmix v
  | deMixstep ch x => exact Laws.EncodedFields.deMixstep ch x
  | deProcess nc ns => exact Laws.EncodedFields.deProcess nc ns
  | blkWr ch idx v => exact Laws.EncodedFields.blkWr ch idx v
  | blkRd ch idx => exact Laws.EncodedFields.blkRd ch idx
  | regRd sel => exact Laws.EncodedFields.regRd sel
  | statClr => exact Laws.EncodedFields.statClr

/-- A command is the row of its opcode with its own operands. -/
theorem Instr.opcode_instr (i : Instr) :
    i.opcode.instr i.chOperand i.idxOperand i.arg0Operand i.arg1Operand = i := by
  cases i <;> rfl

/-! ### The operands of a row's command -/

theorem Opcode.opcode_instr (o : Opcode) (ch : BitVec 8) (idx : BitVec 16) (a b : Word) :
    (o.instr ch idx a b).opcode = o := by
  cases o <;> rfl

theorem Opcode.chOperand_instr (o : Opcode) (ch : BitVec 8) (idx : BitVec 16) (a b : Word) :
    (o.instr ch idx a b).chOperand = if o.takesChannel then ch else 0 := by
  cases o <;> rfl

theorem Opcode.idxOperand_instr (o : Opcode) (ch : BitVec 8) (idx : BitVec 16) (a b : Word) :
    (o.instr ch idx a b).idxOperand = if o.takesIndex then idx else 0 := by
  cases o <;> rfl

theorem Opcode.arg0Operand_instr (o : Opcode) (ch : BitVec 8) (idx : BitVec 16) (a b : Word) :
    (o.instr ch idx a b).arg0Operand = if (opcodeArgs o).length = 0 then 0 else a := by
  cases o <;> rfl

theorem Opcode.arg1Operand_instr (o : Opcode) (ch : BitVec 8) (idx : BitVec 16) (a b : Word) :
    (o.instr ch idx a b).arg1Operand = if (opcodeArgs o).length ≤ 1 then 0 else b := by
  cases o <;> rfl

/-- The word of a row's command is the word its operands were read from (log 6). -/
theorem cmdWord_instr {o : Opcode} {w : Word} (h : MatchesRow o w) (a b : Word) :
    cmdWord (o.instr (chField w) (idxField w) a b) = w := by
  obtain ⟨hopc, chZero, idxZero, -⟩ := h
  have hch : (if o.takesChannel then chField w else 0) = chField w := by
    cases takes : o.takesChannel with
    | true => rfl
    | false => exact (chZero takes).symm
  have hidx : (if o.takesIndex then idxField w else 0) = idxField w := by
    cases takes : o.takesIndex with
    | true => rfl
    | false => exact (idxZero takes).symm
  rw [cmdWord, Opcode.opcode_instr, Opcode.chOperand_instr, Opcode.idxOperand_instr, hch, hidx, ← hopc, packCmd_fields]

end Sys2Proof

namespace Sys2Proof.Proofs

open Sys2Proof.Machine

/-- Settles O1: the word is of the command's row, so `decode` reads the operands back. -/
theorem decodeAfterEncode : Obligations.DecodeAfterEncode := by
  unfold Obligations.DecodeAfterEncode
  intro i wf
  obtain ⟨-, hch, hidx, ofRow⟩ := encodedFields i
  have decoded := decode_of_matches (ofRow wf)
  rw [hch, hidx] at decoded
  exact decoded.trans (congrArg _ i.opcode_instr)

/-- Settles O2: the command is a row's (`decode_ok`), whose word is `cmdWord_instr`; an argument the row does not use
encodes as 0. -/
theorem encodeAfterDecode : Obligations.EncodeAfterDecode := by
  unfold Obligations.EncodeAfterDecode
  intro c i decoded
  obtain ⟨o, ofRow, rfl, wf⟩ := decode_ok decoded
  simp only [encode, Opcode.opcode_instr, Opcode.arg0Operand_instr, Opcode.arg1Operand_instr]
  refine ⟨wf, cmdWord_instr ofRow _ _, ?arg0, ?arg1⟩
  case arg0 =>
    split_ifs with unused
    · exact .inr ⟨unused, rfl⟩
    · exact .inl rfl
  case arg1 =>
    split_ifs with unused
    · exact .inr ⟨unused, rfl⟩
    · exact .inl rfl

/-- Settles O7: each word is of the row named (`decode_of_matches`). -/
theorem vectorWordsDecode : Obligations.VectorWordsDecode := by
  unfold Obligations.VectorWordsDecode
  exact ⟨decode_of_matches (o := .rbWrite) (by unfold MatchesRow; decide),
    decode_of_matches (o := .rbStep) (by unfold MatchesRow; decide),
    decode_of_matches (o := .deSetdly) (by unfold MatchesRow; decide),
    decode_of_matches (o := .blkWr) (by unfold MatchesRow; decide),
    decode_of_matches (o := .regRd) (by unfold MatchesRow; decide)⟩

end Sys2Proof.Proofs
end

section
/-! PROOFS. The step of the untimed machine and hardware reset (20_memory.md R66, R68; 70_reset_and_hazards.md R270 to
R272): what a step answers for each port event, and the reset state for legal parameters. -/

namespace Sys2Proof.Machine

/-! ### One step -/

theorem step_of_idle {s : State} (h : s.input = []) : step s = .next s := by
  simp [step, State.takeEvent, h]

theorem step_of_command {s : State} {c : Command} {rest : List PortEvent} (h : s.input = .command c :: rest) :
    step s = runCommand c { s with input := rest } := by
  simp [step, State.takeEvent, h]

theorem step_of_reset {s : State} {during : Option Command} {rest : List PortEvent}
    (h : s.input = .reset during :: rest) : step s = .next (State.afterReset s.hw rest s.output) := by
  simp [step, State.takeEvent, h, State.hardwareReset]

/-! ### The reset state -/

/-- After reset every STORE word and every cursor is 0 (R270). -/
theorem State.afterReset_cleared (hw : Params) (inp : List PortEvent) (out : List Response) :
    BufferCleared (State.afterReset hw inp out) := State.clearBuffer_cleared (State.afterReset hw inp out)

theorem State.afterReset_blkRead (hw : Params) (inp : List PortEvent) (out : List Response) (c i : Nat) :
    (State.afterReset hw inp out).blkRead c i = hw.numFmt.zero := by
  rw [NumFmt.zero_eq]
  rfl

/-- A natural number below 2^31 is its word's signed reading. -/
theorem sint_wordOfNat {n : Nat} (h : n < 2 ^ 31) : sint (wordOfNat n) = n := by
  rw [sint, wordOfNat, BitVec.toInt_ofNat']
  exact Int.bmod_eq_of_le (by omega) (by omega)

/-- Legal reset parameters fit in their words. -/
theorem Params.Legal.uint_reset {hw : Params} (legal : hw.Legal) :
    uint (wordOfNat hw.rstNch) = hw.rstNch ∧ uint (wordOfNat hw.rstCap) = hw.rstCap := by
  obtain ⟨⟨-, nchMax⟩, ⟨-, capMax⟩, -, ⟨-, rstCap⟩, ⟨-, rstNch⟩⟩ := legal
  exact ⟨uint_wordOfNat (by omega), uint_wordOfNat (by omega)⟩

theorem State.afterReset_inv {hw : Params} (legal : hw.Legal) (inp : List PortEvent) (out : List Response) :
    (State.afterReset hw inp out).Inv := by
  obtain ⟨nch, cap⟩ := Params.Legal.uint_reset legal
  obtain ⟨-, ⟨-, capMax⟩, -, rstCap, rstNch⟩ := id legal
  exact {
    legal := legal
    hwId := rfl
    channels := by simpa only [State.afterReset, nch] using rstNch
    capacity := by simp only [State.afterReset, cap]; omega
    alloc := by simpa only [State.afterReset, cap] using rstCap
    wcurLength := List.length_replicate
    rcurLength := List.length_replicate
    wcurRange := zero_replicate_range
    rcurRange := zero_replicate_range
    feedback := unitWord_half _
    mix := unitWord_one _
    delaySamples := Nat.zero_le _
    status := by simp [State.afterReset]
    store := Memory.wf_nil
    blk := Memory.wf_nil }

/-- Cursors at 0 are below any capacity, so a freshly cleared buffer is regular (R46). -/
theorem State.Regular.of_cleared {s : State} (inv : s.Inv) (size : s.capacity = s.alloc) (cleared : BufferCleared s) :
    s.Regular := by
  obtain ⟨-, cursors⟩ := cleared
  refine ⟨size, fun c _ => ?_⟩
  obtain ⟨hw, hr⟩ := cursors c
  have pos := inv.capacity.1
  omega

end Sys2Proof.Machine

namespace Sys2Proof.Proofs

open Sys2Proof.Machine

/-- Settles O8: the head of the list is the command that runs, and words that do not decode raise ILLEGAL. -/
theorem stepRunsTheDecodedCommand : Obligations.StepRunsTheDecodedCommand := by
  unfold Obligations.StepRunsTheDecodedCommand
  intro s c rest offered
  rw [step_of_command offered]
  exact ⟨fun i decoded => runCommand_ok decoded _,
    fun e refused => ⟨_, runCommand_error refused _, State.raiseWord_raised _ c.cmd .illegal⟩⟩

/-- Settles O9: a reset is `State.afterReset` of the same parameters, whose fields are the reset values. -/
theorem stepWithoutACommand : Obligations.StepWithoutACommand := by
  unfold Obligations.StepWithoutACommand
  refine ⟨fun s idle => step_of_idle idle, fun s during rest offered => ⟨_, step_of_reset offered, rfl, ?_⟩⟩
  exact ⟨BitVec.toNat_ofNat .., BitVec.toNat_ofNat .., rfl, State.afterReset_cleared .., rfl, rfl, rfl, rfl, rfl,
    State.afterReset_blkRead s.hw rest s.output, rfl⟩

/-- Settles O10: the reset state keeps the invariant (`State.afterReset_inv`) and its buffer is cleared; the reference
parameters are legal. -/
theorem resetSatisfiesInvariant : Obligations.ResetSatisfiesInvariant := by
  unfold Obligations.ResetSatisfiesInvariant
  have all : ∀ (hw : Params) (inp : List PortEvent) (out : List Response), hw.Legal →
      (State.afterReset hw inp out).Inv ∧ (State.afterReset hw inp out).Regular := fun hw inp out legal =>
    have inv := State.afterReset_inv legal inp out
    ⟨inv, .of_cleared inv rfl (State.afterReset_cleared hw inp out)⟩
  exact ⟨all, all Params.reference [] [] (by decide)⟩

/-- Settles O57: legal reset parameters are in INIT's ranges, so `exec_init` constructs. -/
theorem resetIsInitWithTheResetParameters : Obligations.ResetIsInitWithTheResetParameters := by
  unfold Obligations.ResetIsInitWithTheResetParameters
  intro s inv
  obtain ⟨nch, cap⟩ := Params.Legal.uint_reset inv.legal
  obtain ⟨⟨-, nchMax⟩, ⟨-, capMax⟩, -, rstCap, rstNch⟩ := inv.legal
  refine ⟨_, exec_init s (wordOfNat s.hw.rstCap) (wordOfNat s.hw.rstNch), ?_⟩
  rw [sint_wordOfNat (by omega), sint_wordOfNat (by omega), if_neg (by omega), cap]
  simp [State.afterReset, State.respond, State.allocate, State.clearBuffer, State.construct, inv.hwId]

end Sys2Proof.Proofs
end

section
/-! PROOFS. What a command can do, said once: `Ran s i t` lists the outcomes of the command `i` in the state `s`, and
`exec_ran` says that there is no other. The statements about every command are case analyses over it. -/

namespace Sys2Proof

/-- The commands whose only error is ACCESS (20_memory.md R62). -/
def Opcode.accessOnly : Opcode → Bool
  | .rbWrite | .rbRead | .rbStep | .deMixstep => true
  | .nop | .init | .rbSetrp | .rbReset | .rbResize | .rbGetcap | .rbSetcapf | .rbGetwc | .rbGetrc | .deReset | .deSetdly
  | .deSetfb | .deSetmix | .deProcess | .blkWr | .blkRd | .regRd | .statClr => false

/-- The commands that answer what they read, and NOP. -/
def Opcode.readsOnly : Opcode → Bool
  | .nop | .rbGetcap | .rbGetwc | .rbGetrc | .blkRd | .regRd => true
  | .init | .rbWrite | .rbRead | .rbSetrp | .rbReset | .rbResize | .rbSetcapf | .rbStep | .deReset | .deSetdly
  | .deSetfb | .deSetmix | .deMixstep | .deProcess | .blkWr | .statClr => false

end Sys2Proof

namespace Sys2Proof.Machine

/-! ### One sample of the block loop -/

/-- Everything one sample can do (41_delay_effect.md R166): the step on a valid channel, ACCESS, a word that does not
exist, or the dry part on an invalid channel. -/
theorem mixSample_cases (c : Nat) (x : Word) (s : State) :
    (s.valid c = true ∧ ∃ y, mixSample c x s = .stepped y (stepState c x s.feedback s)) ∨
    ((s.valid c = true ∧ ∃ p ∈ [s.rcurAt c, s.wcurAt c], uint s.alloc ≤ p) ∧ mixSample c x s = .access) ∨
    mixSample c x s = .absent ∨
    (s.valid c = false ∧ ∃ y, mixSample c x s = .stepped y (s.warn .chInv)) := by
  unfold mixSample
  cases hc : s.valid c with
  | false => exact .inr (.inr (.inr ⟨rfl, _, rfl⟩))
  | true =>
    rw [if_pos rfl]
    rcases combStep_cases c x s.feedback s with ⟨-, step⟩ | ⟨beyond, step⟩ | ⟨-, step⟩ <;> rw [step]
    · exact .inl ⟨rfl, _, rfl⟩
    · exact .inr (.inl ⟨⟨rfl, State.checkSlots_beyondAlloc.1 beyond⟩, rfl⟩)
    · exact .inr (.inr (.inl rfl))

/-- An iteration that completes has made its sample and written BLK (R167). -/
theorem processSample_done {c i : Nat} {s t : State} (h : processSample c i s = .done t) :
    ∃ y, (s.valid c = true ∧ t = (stepState c (s.blkRead c i) s.feedback s).blkWrite c i y) ∨
      (s.valid c = false ∧ t = (s.warn .chInv).blkWrite c i y) := by
  unfold processSample at h
  rcases mixSample_cases c (s.blkRead c i) s with ⟨hc, y, sample⟩ | ⟨-, sample⟩ | sample | ⟨hc, y, sample⟩ <;>
    rw [sample] at h <;> cases h
  · exact ⟨y, .inl ⟨hc, rfl⟩⟩
  · exact ⟨y, .inr ⟨hc, rfl⟩⟩

/-- An iteration that ends in ACCESS is on a valid channel with a cursor at or above ALLOC, and has done nothing. -/
theorem processSample_access {c i : Nat} {s t : State} (h : processSample c i s = .access t) :
    t = s ∧ s.valid c = true ∧ ∃ p ∈ [s.rcurAt c, s.wcurAt c], uint s.alloc ≤ p := by
  unfold processSample at h
  rcases mixSample_cases c (s.blkRead c i) s with ⟨-, y, sample⟩ | ⟨⟨hc, beyond⟩, sample⟩ | sample | ⟨-, y, sample⟩ <;>
    rw [sample] at h <;> cases h
  exact ⟨rfl, hc, beyond⟩

/-- A block loop has left the state `t`, by its end or by an ACCESS. -/
def LoopOutcome.Leaves (o : LoopOutcome) (t : State) : Prop := o = .done t ∨ o = .access t

/-- What every completed iteration keeps, the loop keeps, also when an ACCESS ends it. -/
theorem processRows_keeps {P : State → Prop} {ns todo c : Nat} {s t : State}
    (hstep : ∀ d j u v, c ≤ d → d < c + todo → j < ns → P u → processSample d j u = .done v → P v) (hs : P s)
    (h : (processRows ns todo c s).Leaves t) : P t := by
  have ends : LoopEnds P P True (processRows ns todo c s) := by
    refine processRows_ends todo (fun d j u hd hd' hj hu => ?_) hs
    cases sample : processSample d j u with
    | done v => exact hstep d j u v hd hd' hj hu sample
    | access v =>
      obtain ⟨rfl, -⟩ := processSample_access sample
      exact hu
    | absent => trivial
  rcases h with h | h <;> rwa [h] at ends

/-- `t` is `s` but for what samples write: STORE, BLK, the cursors and STATUS. -/
def SampleFrame (s t : State) : Prop :=
  { t with store := s.store, blk := s.blk, wcur := s.wcur, rcur := s.rcur, status := s.status } = s

theorem processSample_frame {c i : Nat} {s u t : State} (hu : SampleFrame s u) (h : processSample c i u = .done t) :
    SampleFrame s t := by
  obtain ⟨y, ⟨-, rfl⟩ | ⟨-, rfl⟩⟩ := processSample_done h <;> exact hu

/-- The block loop writes what samples write and nothing else. -/
theorem processRows_frame {ns nc : Nat} {s t : State} (h : (processRows ns nc 0 s).Leaves t) : SampleFrame s t :=
  processRows_keeps (P := SampleFrame s) (fun _ _ _ _ _ _ _ hu => processSample_frame hu) rfl h

/-! ### The outcomes of a command -/

/-- The state `u` is what the command `i` makes of `s` when it raises no error, but for its response. -/
inductive Completes (s : State) : Instr → State → Prop
  /-- NOP, and the commands that read registers, cursors or BLK. -/
  | unchanged {i : Instr} (reads : i.opcode.readsOnly = true) : Completes s i s
  /-- An invalid channel (40_ring_buffer.md R110). -/
  | ignored {i : Instr} (channel : i.opcode.takesChannel = true) : Completes s i (s.warn .chInv)
  | rbWrite {ch : BitVec 8} {x : Word} :
      Completes s (.rbWrite ch x)
        ((s.storeWrite ch.toNat (s.wcurAt ch.toNat) x).setWcur ch.toNat (s.adv (s.wcurAt ch.toNat)))
  | rbRead {ch : BitVec 8} : Completes s (.rbRead ch) (s.setRcur ch.toNat (s.adv (s.rcurAt ch.toNat)))
  | rbSetrp {ch : BitVec 8} {v : Word} (lag : Nat) :
      Completes s (.rbSetrp ch v) (s.setRcur ch.toNat (s.lagSlot ch.toNat lag))
  | rbReset : Completes s .rbReset s.clearBuffer
  | rbResize {n : Word} (size : 1 ≤ uint n ∧ uint n ≤ s.hw.capMax) : Completes s (.rbResize n) (s.allocate (uint n))
  | rbSetcapf {k : Word} (size : 1 ≤ uint k ∧ uint k ≤ 2 ^ 24) : Completes s (.rbSetcapf k) (s.setCapacity k)
  | rbStep {ch : BitVec 8} {x f : Word} : Completes s (.rbStep ch x f) (stepState ch.toNat x f s)
  | init {n k : Word} (size : 1 ≤ uint n ∧ uint n ≤ s.hw.capMax) (count : 1 ≤ uint k ∧ uint k ≤ s.hw.nchMax) :
      Completes s (.init n k) ((s.construct k).allocate (uint n))
  | deReset {sr ms : Word} {ds : Nat} (size : 1 ≤ ds ∧ ds ≤ s.hw.capMax) :
      Completes s (.deReset sr ms) ((s.setDelaySamples ds).allocate ds)
  | deSetdly {ms sr : Word} (ds : Nat) : Completes s (.deSetdly ms sr) (s.setDelay ds)
  | deSetfb {v : Word} :
      Completes s (.deSetfb v)
        ((s.warnIf (clamp01 s.hw.numFmt v).2 .fbRange).setFeedback (clamp01 s.hw.numFmt v).1)
  | deSetmix {v : Word} :
      Completes s (.deSetmix v) ((s.warnIf (clamp01 s.hw.numFmt v).2 .mixRange).setMix (clamp01 s.hw.numFmt v).1)
  | deMixstep {ch : BitVec 8} {x : Word} : Completes s (.deMixstep ch x) (stepState ch.toNat x s.feedback s)
  | deProcess {nc ns : Word} {u : State} (loop : processRows (uint ns) (uint nc) 0 s = .done u) :
      Completes s (.deProcess nc ns) u
  | blkWr {ch : BitVec 8} {idx : BitVec 16} {v : Word} :
      Completes s (.blkWr ch idx v) (s.blkWrite ch.toNat idx.toNat v)
  | statClr : Completes s .statClr s.clearWarningBits

/-- The command `i` in the state `s` has left the state `t`. -/
inductive Ran (s : State) : Instr → State → Prop
  /-- No error. -/
  | completed {i : Instr} {u : State} (v : Word) (h : Completes s i u) : Ran s i (u.respond v)
  /-- ILLEGAL or ARG. -/
  | rejected {i : Instr} {e : ErrorKind} (notAccess : e ≠ .access) (others : i.opcode.accessOnly = false) :
      Ran s i (s.raise i e)
  /-- ACCESS of a command that makes one access to each of its slots. -/
  | beyond {i : Instr} (valid : s.valid i.chOperand.toNat = true)
      (slot : ∃ p ∈ [s.rcurAt i.chOperand.toNat, s.wcurAt i.chOperand.toNat], uint s.alloc ≤ p) :
      Ran s i (s.raise i .access)
  /-- ACCESS of DE.PROCESS, after some iterations. -/
  | stopped {nc ns : Word} {u : State} (loop : processRows (uint ns) (uint nc) 0 s = .access u) :
      Ran s (.deProcess nc ns) (u.raise (.deProcess nc ns) .access)

section Commands

variable {s t : State}

theorem ran_rbWrite {ch : BitVec 8} {x : Word} (h : exec (.rbWrite ch x) s = .next t) : Ran s (.rbWrite ch x) t := by
  change execRbWrite ch x s = _ at h
  simp only [execRbWrite] at h
  split at h
  · next valid =>
    split at h <;> cases h
    · next check =>
      obtain ⟨p, hp, ge⟩ := State.checkSlots_beyondAlloc.1 check
      exact .beyond valid ⟨p, List.mem_cons_of_mem _ hp, ge⟩
    · exact .completed 0 .rbWrite
  · cases h
    exact .completed 0 (.ignored rfl)

theorem ran_rbRead {ch : BitVec 8} (h : exec (.rbRead ch) s = .next t) : Ran s (.rbRead ch) t := by
  change execRbRead ch s = _ at h
  simp only [execRbRead] at h
  split at h
  · next valid =>
    split at h <;> cases h
    · next check =>
      obtain ⟨p, hp, ge⟩ := State.checkSlots_beyondAlloc.1 check
      exact .beyond valid ⟨p, List.mem_append_left _ hp, ge⟩
    · exact .completed _ .rbRead
  · cases h
    exact .completed _ (.ignored rfl)

theorem ran_rbSetrp {ch : BitVec 8} {v : Word} (h : exec (.rbSetrp ch v) s = .next t) : Ran s (.rbSetrp ch v) t := by
  change execRbSetrp ch v s = _ at h
  simp only [execRbSetrp] at h
  split at h
  · split at h <;> cases h
    · exact .rejected nofun rfl
    · next lag _ => exact .completed 0 (.rbSetrp lag)
  · cases h
    exact .completed 0 (.ignored rfl)

theorem ran_rbStep {ch : BitVec 8} {x f : Word} (h : exec (.rbStep ch x f) s = .next t) : Ran s (.rbStep ch x f) t := by
  change execRbStep ch x f s = _ at h
  simp only [execRbStep] at h
  split at h
  · next valid =>
    rcases combStep_cases ch.toNat x f s with ⟨-, step⟩ | ⟨check, step⟩ | ⟨-, step⟩ <;> rw [step] at h <;> cases h
    · exact .completed _ .rbStep
    · exact .beyond valid (State.checkSlots_beyondAlloc.1 check)
  · cases h
    exact .completed _ (.ignored rfl)

theorem ran_deMixstep {ch : BitVec 8} {x : Word} (h : exec (.deMixstep ch x) s = .next t) :
    Ran s (.deMixstep ch x) t := by
  change execDeMixstep ch x s = _ at h
  unfold execDeMixstep at h
  rcases mixSample_cases ch.toNat x s with ⟨-, y, sample⟩ | ⟨⟨valid, slot⟩, sample⟩ | sample | ⟨-, y, sample⟩ <;>
    rw [sample] at h <;> cases h
  · exact .completed y .deMixstep
  · exact .beyond valid slot
  · exact .completed y (.ignored rfl)

theorem ran_deProcess {nc ns : Word} (h : exec (.deProcess nc ns) s = .next t) : Ran s (.deProcess nc ns) t := by
  change execDeProcess nc ns s = _ at h
  unfold execDeProcess at h
  split at h
  · split at h <;> cases h
    · next loop => exact .completed 0 (.deProcess loop)
    · next loop => exact .stopped loop
  · cases h
    exact .rejected nofun rfl

theorem ran_regRd {sel : BitVec 16} (h : exec (.regRd sel) s = .next t) : Ran s (.regRd sel) t := by
  change execRegRd sel s = _ at h
  unfold execRegRd at h
  split at h <;> cases h
  · exact .completed _ (.unchanged rfl)
  · exact .rejected nofun rfl

/-- An accepted `int` argument on its unsigned value. -/
theorem uint_bounds {w : Word} {hi : Nat} (h : ¬ (sint w < 1 ∨ (hi : Int) < sint w)) : 1 ≤ uint w ∧ uint w ≤ hi := by
  have := sint_eq_uint (w := w) (by omega)
  omega

theorem ran_init {n k : Word} (h : exec (.init n k) s = .next t) : Ran s (.init n k) t := by
  rw [exec_init] at h
  cases h
  split_ifs with outside
  · exact .rejected nofun rfl
  · exact .completed 0 (.init (uint_bounds (by tauto)) (uint_bounds (by tauto)))

theorem ran_deReset {sr ms : Word} (h : exec (.deReset sr ms) s = .next t) : Ran s (.deReset sr ms) t := by
  rw [exec_deReset] at h
  cases h
  split_ifs with outside
  · exact .rejected nofun rfl
  · have quotient := derivedDelay_cast (sr := sr) (ms := ms) (by omega) (by omega)
    exact .completed 0 (.deReset (by omega))

/-- Every outcome of a command is one of those listed. -/
theorem exec_ran {i : Instr} (h : exec i s = .next t) : Ran s i t := by
  cases i with
  | nop => cases h; exact .completed 0 (.unchanged rfl)
  | init n k => exact ran_init h
  | rbWrite ch x => exact ran_rbWrite h
  | rbRead ch => exact ran_rbRead h
  | rbSetrp ch v => exact ran_rbSetrp h
  | rbReset => cases h; exact .completed 0 .rbReset
  | rbResize n =>
    rw [exec_rbResize] at h
    cases h
    split_ifs with outside
    · exact .rejected nofun rfl
    · exact .completed 0 (.rbResize (uint_bounds outside))
  | rbGetcap => cases h; exact .completed _ (.unchanged rfl)
  | rbSetcapf k =>
    rw [exec_rbSetcapf] at h
    cases h
    split_ifs with outside
    · exact .rejected nofun rfl
    · exact .completed 0 (.rbSetcapf (uint_bounds (hi := 2 ^ 24) outside))
  | rbStep ch x f => exact ran_rbStep h
  | rbGetwc ch =>
    rw [exec_rbGetwc] at h
    cases h
    split_ifs
    · exact .completed _ (.ignored rfl)
    · exact .completed _ (.unchanged rfl)
  | rbGetrc ch =>
    rw [exec_rbGetrc] at h
    cases h
    split_ifs
    · exact .completed _ (.ignored rfl)
    · exact .completed _ (.unchanged rfl)
  | deReset sr ms => exact ran_deReset h
  | deSetdly ms sr =>
    rw [exec_deSetdly] at h
    cases h
    split_ifs
    · exact .rejected nofun rfl
    · exact .completed 0 (.deSetdly _)
  | deSetfb v => cases h; exact .completed 0 .deSetfb
  | deSetmix v => cases h; exact .completed 0 .deSetmix
  | deMixstep ch x => exact ran_deMixstep h
  | deProcess nc ns => exact ran_deProcess h
  | blkWr ch idx v =>
    rw [exec_blkWr] at h
    cases h
    split_ifs
    · exact .rejected nofun rfl
    · exact .completed 0 .blkWr
  | blkRd ch idx =>
    rw [exec_blkRd] at h
    cases h
    split_ifs
    · exact .rejected nofun rfl
    · exact .completed _ (.unchanged rfl)
  | regRd sel => exact ran_regRd h
  | statClr => cases h; exact .completed 0 .statClr

end Commands

end Sys2Proof.Machine
end

section
/-! PROOFS. What every command keeps: the invariant (10_state.md R45), the constants (R44), the regular states (R46);
and its one response (60_exceptions.md R240). -/

namespace Sys2Proof.Machine

variable {s t u : State} {i : Instr}

/-! ### What no command touches -/

/-- What a completed command leaves: the parameters, HW_ID, ERR_CMD and what stands on the ports. -/
structure Untouched (s u : State) : Prop where
  hw : u.hw = s.hw
  hwId : u.hwId = s.hwId
  errCmd : u.errCmd = s.errCmd
  input : u.input = s.input
  output : u.output = s.output

theorem SampleFrame.untouched (h : SampleFrame s u) : Untouched s u :=
  ⟨(congrArg State.hw h :), (congrArg State.hwId h :), (congrArg State.errCmd h :), (congrArg State.input h :),
    (congrArg State.output h :)⟩

theorem Completes.untouched (h : Completes s i u) : Untouched s u := by
  cases h with
  | deProcess loop => exact (processRows_frame (.inl loop)).untouched
  | _ => exact ⟨rfl, rfl, rfl, rfl, rfl⟩

/-- What DE.PROCESS has done before its error (R167). -/
theorem untouched_of_access {ns nc : Nat} (loop : processRows ns nc 0 s = .access u) : Untouched s u :=
  (processRows_frame (.inr loop)).untouched

/-- A command gives one response, with DATA 0 if ERR is 1, and takes nothing from the command port (R240, R83). -/
theorem Ran.answered (h : Ran s i t) : ∃ d e, Answered s t d e ∧ (e = true → d = 0) ∧ t.input = s.input := by
  cases h with
  | completed v h =>
    obtain ⟨-, -, -, input, output⟩ := h.untouched
    exact ⟨v, false, by rw [Answered, State.respond_output, output], nofun, input⟩
  | rejected => exact ⟨0, true, rfl, fun _ => rfl, rfl⟩
  | beyond => exact ⟨0, true, rfl, fun _ => rfl, rfl⟩
  | stopped loop =>
    obtain ⟨-, -, -, input, output⟩ := untouched_of_access loop
    exact ⟨0, true, by rw [Answered, State.raise_output, output], fun _ => rfl, input⟩

theorem Ran.constants (h : Ran s i t) : t.hw = s.hw ∧ t.hwId = s.hwId := by
  cases h with
  | completed v h => exact ⟨h.untouched.hw, h.untouched.hwId⟩
  | rejected => exact ⟨rfl, rfl⟩
  | beyond => exact ⟨rfl, rfl⟩
  | stopped loop => exact ⟨(untouched_of_access loop).hw, (untouched_of_access loop).hwId⟩

/-! ### The invariant -/

theorem State.Inv.setDelay (inv : s.Inv) (ds : Nat) : (s.setDelay ds).Inv := by
  have bound : min ds (uint s.capacity - 1) ≤ 2 ^ 24 := by have := inv.capacity; omega
  exact (((inv.warnIf _ .dlyClamp).setDelaySamples bound).reposition _ 0).reposition _ 1

theorem State.Inv.processSample_done (inv : s.Inv) {c j : Nat} (h : processSample c j s = .done u) : u.Inv := by
  have ends := processSample_inv inv c j
  rwa [h] at ends

/-- What the block loop leaves keeps the invariant, also when an ACCESS ends it. -/
theorem State.Inv.processRows_leaves (inv : s.Inv) {ns nc : Nat} (h : (processRows ns nc 0 s).Leaves u) : u.Inv :=
  processRows_keeps (P := State.Inv) (fun _ _ _ _ _ _ _ hv => hv.processSample_done) inv h

theorem Completes.inv (inv : s.Inv) (h : Completes s i u) : u.Inv := by
  have adv_lt : ∀ p, s.adv p < 2 ^ 24 := fun p => (inv.adv_lt p).trans_le inv.capacity.2
  have lagSlot_lt : ∀ c lag, s.lagSlot c lag < 2 ^ 24 := fun c lag => (inv.lagSlot_lt c lag).trans_le inv.capacity.2
  cases h with
  | unchanged => exact inv
  | ignored => exact inv.warn .chInv
  | rbWrite => exact (inv.storeWrite _ _ _).setWcur _ (adv_lt _)
  | rbRead => exact inv.setRcur _ (adv_lt _)
  | rbSetrp lag => exact inv.setRcur _ (lagSlot_lt _ _)
  | rbReset => exact inv.clearBuffer
  | rbResize size => exact inv.allocate size.1 size.2
  | rbSetcapf size => exact inv.setCapacity size.1 size.2
  | rbStep => exact inv.stepState _ _ _
  | init size count => exact (inv.construct count.1 count.2).allocate size.1 size.2
  | deReset size =>
    obtain ⟨-, ⟨-, capMax⟩, -⟩ := inv.legal
    exact (inv.setDelaySamples (size.2.trans capMax)).allocate size.1 size.2
  | deSetdly ds => exact inv.setDelay ds
  | deSetfb => exact (inv.warnIf _ .fbRange).setFeedback (unitWord_clamp01 _ _)
  | deSetmix => exact (inv.warnIf _ .mixRange).setMix (unitWord_clamp01 _ _)
  | deMixstep => exact inv.stepState _ _ _
  | deProcess loop => exact inv.processRows_leaves (.inl loop)
  | blkWr => exact inv.blkWrite _ _ _
  | statClr => exact inv.clearWarningBits

theorem Ran.inv (inv : s.Inv) (h : Ran s i t) : t.Inv := by
  cases h with
  | completed v h => exact (h.inv inv).respond v
  | rejected => exact inv.raise _ _
  | beyond => exact inv.raise _ _
  | stopped loop => exact (inv.processRows_leaves (.inr loop)).raise _ _

/-- A 96-bit command keeps the invariant, legal or not. -/
theorem runCommand_inv {c : Command} (inv : s.Inv) (h : runCommand c s = .next t) : t.Inv := by
  cases decoded : decode c with
  | ok i => exact (exec_ran (runCommand_ok decoded s ▸ h)).inv inv
  | error e =>
    rw [runCommand_error decoded] at h
    cases h
    exact inv.raiseWord _ _

/-! ### DE.PROCESS and its counts -/

/-- Both counts of DE.PROCESS are in their ranges (R167). -/
def State.BlockInRange (s : State) (nc ns : Word) : Prop :=
  (0 ≤ sint nc ∧ sint nc ≤ s.hw.nchMax) ∧ 0 ≤ sint ns ∧ sint ns ≤ s.hw.blkMax

theorem State.blockInRange_iff {nc ns : Word} :
    (intInRange 0 s.hw.nchMax nc && intInRange 0 s.hw.blkMax ns) = true ↔ s.BlockInRange nc ns := by
  simp only [Bool.and_eq_true, intInRange_iff, Nat.cast_zero, State.BlockInRange]

theorem exec_deProcess_of_outside {nc ns : Word} (h : ¬ s.BlockInRange nc ns) :
    exec (.deProcess nc ns) s = .next (s.raise (.deProcess nc ns) .arg) := by
  change execDeProcess nc ns s = _
  unfold execDeProcess
  rw [if_neg (mt State.blockInRange_iff.1 h)]

theorem exec_deProcess_of_done {nc ns : Word} (h : s.BlockInRange nc ns)
    (loop : processRows (uint ns) (uint nc) 0 s = .done u) : exec (.deProcess nc ns) s = .next (u.respond 0) := by
  change execDeProcess nc ns s = _
  unfold execDeProcess
  rw [if_pos (State.blockInRange_iff.2 h), loop]

theorem exec_deProcess_of_access {nc ns : Word} (h : s.BlockInRange nc ns)
    (loop : processRows (uint ns) (uint nc) 0 s = .access u) :
    exec (.deProcess nc ns) s = .next (u.raise (.deProcess nc ns) .access) := by
  change execDeProcess nc ns s = _
  unfold execDeProcess
  rw [if_pos (State.blockInRange_iff.2 h), loop]

/-- In a state that keeps R45 the block loop meets no word that does not exist. -/
theorem State.Inv.exists_leaves (inv : s.Inv) (ns nc : Nat) : ∃ u, (processRows ns nc 0 s).Leaves u := by
  have ends := processRows_inv inv ns nc 0
  cases loop : processRows ns nc 0 s with
  | done u => exact ⟨u, .inl rfl⟩
  | access u => exact ⟨u, .inr rfl⟩
  | absent => rw [loop] at ends; exact ends.elim

/-- In a state that keeps R45 every command completes (R240). -/
theorem State.Inv.exec_next (inv : s.Inv) (i : Instr) : ∃ t, exec i s = .next t := by
  cases i with
  | rbWrite ch x => exact ⟨_, exec_rbWrite_of_inv inv ch x⟩
  | rbRead ch => exact ⟨_, exec_rbRead_of_inv inv ch⟩
  | rbStep ch x f => exact ⟨_, exec_rbStep_of_inv inv ch x f⟩
  | deMixstep ch x => exact ⟨_, exec_deMixstep_of_inv inv ch x⟩
  | rbSetrp ch v =>
    by_cases valid : ch.toNat < uint s.channels
    · cases lag : lagInt s.hw.numFmt v with
      | none => exact ⟨_, exec_rbSetrp_of_bad valid lag⟩
      | some n => exact ⟨_, exec_rbSetrp_of_lag valid lag⟩
    · exact ⟨_, exec_rbSetrp_of_invalid (Nat.not_lt.1 valid) v⟩
  | deProcess nc ns =>
    by_cases inside : s.BlockInRange nc ns
    · obtain ⟨u, loop | loop⟩ := inv.exists_leaves (uint ns) (uint nc)
      · exact ⟨_, exec_deProcess_of_done inside loop⟩
      · exact ⟨_, exec_deProcess_of_access inside loop⟩
    · exact ⟨_, exec_deProcess_of_outside inside⟩
  | regRd sel =>
    by_cases inTable : sel.toNat ≤ 0x000C
    · exact ⟨_, exec_regRd_of_le s inTable⟩
    · exact ⟨_, execRegRd_reserved (Nat.not_le.1 inTable) s⟩
  | init n k => exact ⟨_, exec_init s n k⟩
  | rbResize n => exact ⟨_, exec_rbResize s n⟩
  | rbSetcapf k => exact ⟨_, exec_rbSetcapf s k⟩
  | rbGetwc ch => exact ⟨_, exec_rbGetwc s ch⟩
  | rbGetrc ch => exact ⟨_, exec_rbGetrc s ch⟩
  | deReset sr ms => exact ⟨_, exec_deReset s sr ms⟩
  | deSetdly ms sr => exact ⟨_, exec_deSetdly s ms sr⟩
  | blkWr ch idx v => exact ⟨_, exec_blkWr s ch idx v⟩
  | blkRd ch idx => exact ⟨_, exec_blkRd s ch idx⟩
  | _ => exact ⟨_, rfl⟩

/-- R240 for a 96-bit command. -/
theorem State.Inv.runCommand_answers (inv : s.Inv) (c : Command) :
    ∃ t d e, runCommand c s = .next t ∧ Answered s t d e ∧ (e = true → d = 0) ∧ t.input = s.input := by
  cases decoded : decode c with
  | ok i =>
    obtain ⟨t, run⟩ := inv.exec_next i
    obtain ⟨d, e, answer⟩ := (exec_ran run).answered
    exact ⟨t, d, e, (runCommand_ok decoded s).trans run, answer⟩
  | error e => exact ⟨_, 0, true, runCommand_error decoded s, rfl, fun _ => rfl, rfl⟩

/-! ### Regular states -/

/-- Writing a cursor below a bound keeps every cursor of the file below it. -/
theorem uint_getD_set_lt {l : List Word} {c d p bound : Nat} (hp : p < bound) (hb : bound ≤ 2 ^ 32)
    (hl : uint (l.getD d 0) < bound) : uint ((l.set c (wordOfNat p)).getD d 0) < bound := by
  by_cases hc : c < l.length
  · rw [uint_getD_set hc (hp.trans_le hb)]
    split_ifs
    · exact hp
    · exact hl
  · rwa [List.set_eq_of_length_le (Nat.not_lt.1 hc)]

theorem State.Regular.setWcur (reg : s.Regular) (c : Nat) {p : Nat} (hp : p < uint s.capacity) :
    (s.setWcur c p).Regular :=
  ⟨reg.capacityIsAlloc, fun d hd =>
    ⟨uint_getD_set_lt hp (uint_lt _).le (reg.cursors d hd).1, (reg.cursors d hd).2⟩⟩

theorem State.Regular.setRcur (reg : s.Regular) (c : Nat) {p : Nat} (hp : p < uint s.capacity) :
    (s.setRcur c p).Regular :=
  ⟨reg.capacityIsAlloc, fun d hd =>
    ⟨(reg.cursors d hd).1, uint_getD_set_lt hp (uint_lt _).le (reg.cursors d hd).2⟩⟩

/-- Regularity reads CAPACITY, ALLOC and the cursors of the physical channels only (R46). -/
theorem State.Regular.of_eq (reg : s.Regular) (hw : u.hw = s.hw) (capacity : u.capacity = s.capacity)
    (alloc : u.alloc = s.alloc) (wcur : u.wcur = s.wcur) (rcur : u.rcur = s.rcur) : u.Regular := by
  obtain ⟨size, cursors⟩ := reg
  constructor
  · rw [capacity, alloc, size]
  · simpa only [State.wcurAt, State.rcurAt, hw, capacity, wcur, rcur] using cursors

theorem State.Regular.stepState (reg : s.Regular) (inv : s.Inv) (c : Nat) (x f : Word) :
    (Machine.stepState c x f s).Regular :=
  State.Regular.setWcur (s := (s.setRcur c (s.adv (s.rcurAt c))).storeWrite c (s.wcurAt c) _)
    ((reg.setRcur c (inv.adv_lt _)).of_eq rfl rfl rfl rfl rfl) c (inv.adv_lt _)

theorem State.Regular.setDelay (reg : s.Regular) (inv : s.Inv) (ds : Nat) : (s.setDelay ds).Regular := by
  refine ⟨reg.capacityIsAlloc, fun c hc => ⟨(reg.cursors c hc).1, ?_⟩⟩
  rw [inv.setDelay_rcurAt]
  split_ifs
  · exact inv.lagSlot_lt _ _
  · exact (reg.cursors c hc).2

/-- A sample of the block loop keeps a regular state. -/
theorem State.Regular.processSample_done (reg : s.Regular) (inv : s.Inv) {c j : Nat}
    (h : processSample c j s = .done u) : u.Regular := by
  obtain ⟨y, ⟨-, rfl⟩ | ⟨-, rfl⟩⟩ := Machine.processSample_done h
  · exact (reg.stepState inv c _ _).of_eq rfl rfl rfl rfl rfl
  · exact reg.of_eq rfl rfl rfl rfl rfl

/-- In a regular state no cursor of a valid channel is at or above ALLOC. -/
theorem State.Regular.not_beyond (reg : s.Regular) (inv : s.Inv) {c : Nat} (valid : s.valid c = true) :
    ¬ ∃ p ∈ [s.rcurAt c, s.wcurAt c], uint s.alloc ≤ p := by
  obtain ⟨hw, hr⟩ := reg.cursors_lt_alloc inv (State.valid_iff.1 valid)
  simp only [List.mem_cons, List.not_mem_nil, or_false, exists_eq_or_imp, exists_eq_left]
  omega

/-- From a regular state the block loop ends without ACCESS, in a regular state (R46 (b), (e)). -/
theorem State.Regular.processRows_done (reg : s.Regular) (inv : s.Inv) (ns nc : Nat) :
    ∃ u, processRows ns nc 0 s = .done u ∧ u.Regular := by
  have ends : LoopEnds (fun u => u.Inv ∧ u.Regular) (fun _ => False) False (processRows ns nc 0 s) := by
    refine processRows_ends nc (fun d j v _ _ _ hv => ?_) ⟨inv, reg⟩
    obtain ⟨hinv, hreg⟩ := hv
    have keeps := processSample_inv hinv d j
    cases sample : processSample d j v with
    | done w => exact ⟨hinv.processSample_done sample, hreg.processSample_done hinv sample⟩
    | access w =>
      obtain ⟨-, valid, slot⟩ := processSample_access sample
      exact hreg.not_beyond hinv valid slot
    | absent => rwa [sample] at keeps
  cases loop : processRows ns nc 0 s with
  | done u => rw [loop] at ends; exact ⟨u, rfl, ends.2⟩
  | access u => rw [loop] at ends; exact ends.elim
  | absent => rw [loop] at ends; exact ends.elim

theorem Completes.regular (inv : s.Inv) (reg : s.Regular) (notSetcapf : ∀ k, i ≠ .rbSetcapf k) (h : Completes s i u) :
    u.Regular := by
  have inv' := h.inv inv
  cases h with
  | unchanged => exact reg
  | ignored => exact reg.of_eq rfl rfl rfl rfl rfl
  | rbWrite =>
    exact State.Regular.setWcur (s := s.storeWrite _ _ _) (reg.of_eq rfl rfl rfl rfl rfl) _ (inv.adv_lt _)
  | rbRead => exact reg.setRcur _ (inv.adv_lt _)
  | rbSetrp lag => exact reg.setRcur _ (inv.lagSlot_lt _ _)
  | rbReset => exact .of_cleared inv' reg.capacityIsAlloc s.clearBuffer_cleared
  | rbResize => exact .of_cleared inv' rfl (State.allocate_cleared _ _)
  | rbSetcapf => exact absurd rfl (notSetcapf _)
  | rbStep => exact reg.stepState inv _ _ _
  | init => exact .of_cleared inv' rfl (State.allocate_cleared _ _)
  | deReset => exact .of_cleared inv' rfl (State.allocate_cleared _ _)
  | deSetdly ds => exact reg.setDelay inv ds
  | deSetfb => exact reg.of_eq rfl rfl rfl rfl rfl
  | deSetmix => exact reg.of_eq rfl rfl rfl rfl rfl
  | deMixstep => exact reg.stepState inv _ _ _
  | deProcess loop =>
    obtain ⟨v, done, regular⟩ := reg.processRows_done inv _ _
    cases loop.symm.trans done
    exact regular
  | blkWr => exact reg.of_eq rfl rfl rfl rfl rfl
  | statClr => exact reg.of_eq rfl rfl rfl rfl rfl

/-- In a regular state a command completes or is rejected: ACCESS is not raised (R46 (e)). -/
theorem Ran.of_regular (inv : s.Inv) (reg : s.Regular) (h : Ran s i t) :
    (∃ u v, Completes s i u ∧ t = u.respond v) ∨
      ∃ e, e ≠ .access ∧ i.opcode.accessOnly = false ∧ t = s.raise i e := by
  cases h with
  | completed v h => exact .inl ⟨_, v, h, rfl⟩
  | rejected notAccess others => exact .inr ⟨_, notAccess, others, rfl⟩
  | beyond valid slot => exact (reg.not_beyond inv valid slot).elim
  | stopped loop =>
    obtain ⟨v, done, -⟩ := reg.processRows_done inv _ _
    cases loop.symm.trans done

end Sys2Proof.Machine

namespace Sys2Proof.Proofs

open Sys2Proof.Machine

/-- Settles O11: every outcome of a command keeps the invariant (`Ran.inv`), and a reset makes it anew. -/
theorem stepKeepsInvariant : Obligations.StepKeepsInvariant := by
  unfold Obligations.StepKeepsInvariant
  intro s t inv run
  match offered : s.input with
  | [] =>
    rw [step_of_idle offered] at run
    cases run
    exact inv
  | .command c :: rest =>
    rw [step_of_command offered] at run
    exact runCommand_inv (inv.withInput rest) run
  | .reset during :: rest =>
    rw [step_of_reset offered] at run
    cases run
    exact State.afterReset_inv inv.legal rest s.output

/-- Settles O12: a state that keeps R45 has every word a command reaches (`State.Inv.exec_next`). -/
theorem everyCommandCompletesWithOneResponse : Obligations.EveryCommandCompletesWithOneResponse := by
  unfold Obligations.EveryCommandCompletesWithOneResponse
  exact fun c s inv => inv.runCommand_answers c

/-- Settles O13: no outcome of a command touches the constants (`Ran.constants`), and a reset keeps them. -/
theorem configurationNeverChanges : Obligations.ConfigurationNeverChanges := by
  unfold Obligations.ConfigurationNeverChanges
  intro s t run
  match offered : s.input with
  | [] =>
    rw [step_of_idle offered] at run
    cases run
    exact ⟨rfl, id⟩
  | .command c :: rest =>
    rw [step_of_command offered] at run
    cases decoded : decode c with
    | ok i =>
      obtain ⟨hw, hwId⟩ := (exec_ran (runCommand_ok decoded _ ▸ run)).constants
      exact ⟨hw, hwId.trans⟩
    | error e =>
      rw [runCommand_error decoded] at run
      cases run
      exact ⟨rfl, id⟩
  | .reset during :: rest =>
    rw [step_of_reset offered] at run
    cases run
    exact ⟨rfl, fun _ => rfl⟩

/-- Settles O14: a command that completes keeps the state regular (`Completes.regular`), and an error leaves the
cursors. -/
theorem commandsKeepStatesRegular : Obligations.CommandsKeepStatesRegular := by
  unfold Obligations.CommandsKeepStatesRegular
  intro s t i inv reg notSetcapf run
  rcases (exec_ran run).of_regular inv reg with ⟨u, v, completes, rfl⟩ | ⟨e, -, -, rfl⟩
  · exact (completes.regular inv reg notSetcapf).of_eq rfl rfl rfl rfl rfl
  · exact reg.of_eq rfl rfl rfl rfl rfl

/-- Settles O15: each of the three allocates, and an allocation sets CAPACITY to ALLOC and every cursor to 0. -/
theorem reallocationMakesStatesRegular : Obligations.ReallocationMakesStatesRegular := by
  unfold Obligations.ReallocationMakesStatesRegular
  intro s t i inv which run answer
  have inv' := (exec_ran run).inv inv
  have allocated : ∀ (v : State) (n : Nat), t = (v.allocate n).respond 0 → t.Regular := by
    rintro v n rfl
    exact .of_cleared inv' rfl (State.allocate_cleared v n)
  have notRaised : ∀ e, t ≠ s.raise i e := by
    rintro e rfl
    simp [Answered] at answer
  cases i with
  | init n k =>
    have outcome := Host.Outcome.next.inj (run.symm.trans (exec_init s n k))
    split_ifs at outcome
    · exact (notRaised _ outcome).elim
    · exact allocated _ _ outcome
  | rbResize n =>
    have outcome := Host.Outcome.next.inj (run.symm.trans (exec_rbResize s n))
    split_ifs at outcome
    · exact (notRaised _ outcome).elim
    · exact allocated _ _ outcome
  | deReset sr ms =>
    have outcome := Host.Outcome.next.inj (run.symm.trans (exec_deReset s sr ms))
    split_ifs at outcome
    · exact (notRaised _ outcome).elim
    · exact allocated _ _ outcome
  | _ => simp [Instr.opcode] at which

/-- Settles O16: the accepted argument becomes CAPACITY, and ALLOC stays. -/
theorem setcapfKeepsRegularOnlyAtCapacity : Obligations.SetcapfKeepsRegularOnlyAtCapacity := by
  unfold Obligations.SetcapfKeepsRegularOnlyAtCapacity
  intro s k inv reg lo hi
  refine ⟨_, exec_rbSetcapf s k, ?_⟩
  rw [if_neg (by omega)]
  refine ⟨rfl, fun regular => ?_, ?_⟩
  · have size : k = s.alloc := regular.capacityIsAlloc
    rw [size, reg.capacityIsAlloc]
  · rintro rfl
    exact reg.of_eq rfl rfl rfl rfl rfl

end Sys2Proof.Proofs
end

section
/-! PROOFS. STATUS and errors: the bits a command may set and clear (10_state.md R42, R46 (e)), what an error leaves
(60_exceptions.md R243), the counts of DE.PROCESS (41_delay_effect.md R167), and the writers of each register (R30). -/

namespace Sys2Proof.Machine

variable {s t u : State} {i : Instr}

/-! ### STATUS bits -/

/-- From `s` to `u` no STATUS bit was cleared, and none but warnings (bits 3:0) was set. -/
def WarnsOnly (s u : State) : Prop :=
  ∀ k, (s.statusBit k = true → u.statusBit k = true) ∧ (4 ≤ k → u.statusBit k = s.statusBit k)

theorem WarnsOnly.of_eq (h : u.status = s.status) : WarnsOnly s u := by
  intro k
  rw [State.statusBit, State.statusBit, h]
  exact ⟨id, fun _ => rfl⟩

theorem WarnsOnly.trans (h : WarnsOnly s u) (h' : WarnsOnly u t) : WarnsOnly s t := fun k =>
  ⟨(h' k).1 ∘ (h k).1, fun hk => ((h' k).2 hk).trans ((h k).2 hk)⟩

theorem warningBit_lt_four (w : Warning) : warningBit w < 4 := by cases w <;> decide

theorem WarnsOnly.setBit {w : Warning} (h : u.status = Machine.setBit s.status (warningBit w)) : WarnsOnly s u := by
  intro k
  have bit : u.statusBit k = (s.statusBit k || k == warningBit w) := by
    rw [State.statusBit, h, setBit_getLsbD _ (warningBit_lt w)]
    rfl
  have low := warningBit_lt_four w
  rw [bit]
  refine ⟨fun set => by rw [set, Bool.true_or], fun hk => ?_⟩
  rw [beq_false_of_ne (by omega), Bool.or_false]

theorem WarnsOnly.warnIf (s : State) (b : Bool) (w : Warning) : WarnsOnly s (s.warnIf b w) := by
  cases b with
  | false => exact .of_eq rfl
  | true => exact .setBit (w := w) rfl

theorem processSample_warnsOnly {c j : Nat} (h : processSample c j s = .done u) : WarnsOnly s u := by
  obtain ⟨y, ⟨-, rfl⟩ | ⟨-, rfl⟩⟩ := processSample_done h
  · exact .of_eq rfl
  · exact .setBit (w := .chInv) rfl

/-- The block loop only warns (41_delay_effect.md R167). -/
theorem processRows_warnsOnly {ns nc : Nat} (h : (processRows ns nc 0 s).Leaves u) : WarnsOnly s u :=
  processRows_keeps (P := WarnsOnly s) (fun _ _ _ _ _ _ _ hv sample => hv.trans (processSample_warnsOnly sample))
    (.of_eq rfl) h

/-- STAT.CLR clears the warnings; every other command that completes only warns. -/
theorem Completes.warnsOnly (h : Completes s i u) :
    WarnsOnly s u ∨ i = .statClr ∧ u.status = clearWarnings s.status := by
  cases h with
  | statClr => exact .inr ⟨rfl, rfl⟩
  | ignored => exact .inl (.setBit (w := .chInv) rfl)
  | deSetdly => exact .inl (WarnsOnly.warnIf s _ .dlyClamp)
  | deSetfb => exact .inl (WarnsOnly.warnIf s _ .fbRange)
  | deSetmix => exact .inl (WarnsOnly.warnIf s _ .mixRange)
  | deProcess loop => exact .inl (processRows_warnsOnly (.inl loop))
  | _ => exact .inl (.of_eq rfl)

/-- The error bits stay when a command completes. -/
theorem Completes.statusBit_of_le (h : Completes s i u) {k : Nat} (hk : 4 ≤ k) : u.statusBit k = s.statusBit k := by
  rcases h.warnsOnly with only | ⟨-, cleared⟩
  · exact (only k).2 hk
  · rw [State.statusBit, cleared, clearWarnings_getLsbD, decide_eq_true hk, Bool.and_true]
    rfl

theorem State.statusBit_raise (s : State) (i : Instr) (e : ErrorKind) (k : Nat) :
    (s.raise i e).statusBit k = (s.statusBit k || k == errorBit e) := setBit_getLsbD _ (errorBit_lt e) k

theorem State.statusBit_raise_of_set (i : Instr) (e : ErrorKind) {k : Nat} (set : s.statusBit k = true) :
    (s.raise i e).statusBit k = true := by
  rw [State.statusBit_raise, set, Bool.true_or]

/-! ### An error -/

/-- On channels that are not valid no sample raises ACCESS. -/
theorem processRows_not_access {ns todo c : Nat} (invalid : uint s.channels ≤ c) :
    processRows ns todo c s ≠ .access u := by
  have ends : LoopEnds (fun v => v.channels = s.channels) (fun _ => False) True (processRows ns todo c s) := by
    refine processRows_ends todo (fun d j v hd _ _ hv => ?_) rfl
    cases sample : processSample d j v with
    | done w =>
      obtain ⟨y, ⟨-, rfl⟩ | ⟨-, rfl⟩⟩ := processSample_done sample <;> exact hv
    | access w =>
      obtain ⟨-, valid, -⟩ := processSample_access sample
      have := State.valid_iff.1 valid
      rw [hv] at this
      omega
    | absent => trivial
  intro loop
  rwa [loop] at ends

/-- On a valid channel a row leaves STATUS, and on a channel that is not valid it does not end in ACCESS. -/
theorem processRow_status (ns c : Nat) (s : State) :
    LoopEnds (fun v => v.channels = s.channels ∧ (s.valid c = true → v.status = s.status))
      (fun v => s.valid c = true ∧ v.status = s.status) True (processRow c ns 0 s) := by
  refine processRow_ends ns (fun j v _ _ hv => ?_) ⟨rfl, fun _ => rfl⟩
  obtain ⟨channels, status⟩ := hv
  have sameValid : v.valid c = s.valid c := by rw [State.valid, State.valid, channels]
  cases sample : processSample c j v with
  | done w =>
    obtain ⟨y, ⟨-, rfl⟩ | ⟨invalid, rfl⟩⟩ := processSample_done sample
    · exact ⟨channels, status⟩
    · exact ⟨channels, fun valid => absurd (sameValid.trans valid) (by rw [invalid]; nofun)⟩
  | access w =>
    obtain ⟨rfl, valid, -⟩ := processSample_access sample
    have valid' := sameValid.symm.trans valid
    exact ⟨valid', status valid'⟩
  | absent => trivial

/-- Valid channels come first, so no sample has warned before an ACCESS. -/
theorem status_of_processRows_access {ns todo c : Nat} (loop : processRows ns todo c s = .access u) :
    u.status = s.status := by
  induction todo generalizing c s with
  | zero => cases loop
  | succ todo ih =>
    have row := processRow_status ns c s
    simp only [processRows] at loop
    cases first : processRow c ns 0 s with
    | done v =>
      rw [first] at row loop
      obtain ⟨channels, status⟩ := row
      cases valid : s.valid c with
      | true => exact (ih loop).trans (status valid)
      | false =>
        have last : uint v.channels ≤ c + 1 := by
          rw [channels]
          exact (State.valid_eq_false_iff.1 valid).trans (Nat.le_succ c)
        exact absurd loop (processRows_not_access last)
    | access v =>
      rw [first] at row loop
      cases loop
      exact row.2
    | absent =>
      rw [first] at loop
      cases loop

/-- A response with ERR 0 is not one with ERR 1. -/
theorem not_answered_error {v : Word} : ¬ Answered s (u.respond v) 0 true := by
  intro h
  have last := congrArg List.getLast? h
  simp at last

/-- What a command that answers ERR 1 has left (R243): it has raised one error in a state `u` that is `s`, but for the
samples DE.PROCESS has completed. -/
theorem Ran.of_error (h : Ran s i t) (answer : Answered s t 0 true) :
    ∃ e u, t = u.raise i e ∧ SampleFrame s u ∧ u.status = s.status ∧ (i.opcode ≠ .deProcess → u = s) := by
  cases h with
  | completed v h => exact (not_answered_error answer).elim
  | rejected => exact ⟨_, s, rfl, rfl, rfl, fun _ => rfl⟩
  | beyond => exact ⟨_, s, rfl, rfl, rfl, fun _ => rfl⟩
  | stopped loop =>
    exact ⟨_, _, rfl, processRows_frame (.inr loop), status_of_processRows_access loop, fun h => absurd rfl h⟩

/-! ### The writers of each register -/

/-- The command of opcode `o` has changed a register or memory only if the table of R30 names it as a writer. -/
structure WrittenBy (o : Opcode) (s t : State) : Prop where
  channels : t.channels = s.channels ∨ o ∈ [.init]
  capacity : t.capacity = s.capacity ∨ o ∈ [.init, .rbResize, .rbSetcapf, .deReset]
  alloc : t.alloc = s.alloc ∨ o ∈ [.init, .rbResize, .deReset]
  wcur : t.wcur = s.wcur ∨ o ∈ [.rbWrite, .rbStep, .rbReset, .rbResize, .init, .deReset, .deMixstep, .deProcess]
  rcur : t.rcur = s.rcur ∨
    o ∈ [.rbRead, .rbSetrp, .rbStep, .rbReset, .rbResize, .init, .deReset, .deSetdly, .deMixstep, .deProcess]
  feedback : t.feedback = s.feedback ∨ o ∈ [.init, .deSetfb]
  mix : t.mix = s.mix ∨ o ∈ [.init, .deSetmix]
  delaySamples : t.delaySamples = s.delaySamples ∨ o ∈ [.init, .deReset, .deSetdly]
  store : t.store = s.store ∨ o ∈ [.rbWrite, .rbStep, .deMixstep, .deProcess, .rbReset, .rbResize, .init, .deReset]
  blk : t.blk = s.blk ∨ o ∈ [.blkWr, .deProcess]

/-- A command that changes STATUS, ERR_CMD and the responses only. -/
theorem WrittenBy.of_eq {o : Opcode} (h : { t with status := s.status, errCmd := s.errCmd, output := s.output } = s) :
    WrittenBy o s t :=
  ⟨.inl (congrArg State.channels h :), .inl (congrArg State.capacity h :), .inl (congrArg State.alloc h :),
    .inl (congrArg State.wcur h :), .inl (congrArg State.rcur h :), .inl (congrArg State.feedback h :),
    .inl (congrArg State.mix h :), .inl (congrArg State.delaySamples h :), .inl (congrArg State.store h :),
    .inl (congrArg State.blk h :)⟩

/-- Samples write STORE, BLK and the cursors. -/
theorem WrittenBy.of_sampleFrame (h : SampleFrame s t) : WrittenBy .deProcess s t :=
  ⟨.inl (congrArg State.channels h :), .inl (congrArg State.capacity h :), .inl (congrArg State.alloc h :),
    .inr (by decide), .inr (by decide), .inl (congrArg State.feedback h :), .inl (congrArg State.mix h :),
    .inl (congrArg State.delaySamples h :), .inr (by decide), .inr (by decide)⟩

/-- What each command writes, field by field. -/
theorem Completes.writtenBy (h : Completes s i u) : WrittenBy i.opcode s u := by
  have same : ∀ o, WrittenBy o s s := fun o => .of_eq rfl
  cases h with
  | unchanged => exact same _
  | ignored => exact { same _ with }
  | rbWrite => exact show WrittenBy .rbWrite s _ from
      { same _ with wcur := .inr (by decide), store := .inr (by decide) }
  | rbRead => exact show WrittenBy .rbRead s _ from
      { same _ with rcur := .inr (by decide) }
  | rbSetrp => exact show WrittenBy .rbSetrp s _ from
      { same _ with rcur := .inr (by decide) }
  | rbReset => exact show WrittenBy .rbReset s _ from
      { same _ with wcur := .inr (by decide), rcur := .inr (by decide), store := .inr (by decide) }
  | rbResize => exact show WrittenBy .rbResize s _ from
      { same _ with
        capacity := .inr (by decide), alloc := .inr (by decide), wcur := .inr (by decide),
        rcur := .inr (by decide), store := .inr (by decide) }
  | rbSetcapf => exact show WrittenBy .rbSetcapf s _ from
      { same _ with capacity := .inr (by decide) }
  | rbStep => exact show WrittenBy .rbStep s _ from
      { same _ with wcur := .inr (by decide), rcur := .inr (by decide), store := .inr (by decide) }
  | init => exact show WrittenBy .init s _ from
      { same _ with
        channels := .inr (by decide), capacity := .inr (by decide), alloc := .inr (by decide),
        wcur := .inr (by decide), rcur := .inr (by decide), store := .inr (by decide), feedback := .inr (by decide),
        mix := .inr (by decide), delaySamples := .inr (by decide) }
  | deReset => exact show WrittenBy .deReset s _ from
      { same _ with
        capacity := .inr (by decide), alloc := .inr (by decide), wcur := .inr (by decide),
        rcur := .inr (by decide), store := .inr (by decide), delaySamples := .inr (by decide) }
  | deSetdly => exact show WrittenBy .deSetdly s _ from
      { same _ with rcur := .inr (by decide), delaySamples := .inr (by decide) }
  | deSetfb => exact show WrittenBy .deSetfb s _ from
      { same _ with feedback := .inr (by decide) }
  | deSetmix => exact show WrittenBy .deSetmix s _ from
      { same _ with mix := .inr (by decide) }
  | deMixstep => exact show WrittenBy .deMixstep s _ from
      { same _ with wcur := .inr (by decide), rcur := .inr (by decide), store := .inr (by decide) }
  | deProcess loop => exact .of_sampleFrame (processRows_frame (.inl loop))
  | blkWr => exact show WrittenBy .blkWr s _ from
      { same _ with blk := .inr (by decide) }
  | statClr => exact { same _ with }

theorem Ran.writtenBy (h : Ran s i t) : WrittenBy i.opcode s t := by
  cases h with
  | completed v h => exact { h.writtenBy with }
  | rejected => exact .of_eq rfl
  | beyond => exact .of_eq rfl
  | stopped loop => exact { WrittenBy.of_sampleFrame (processRows_frame (.inr loop)) with }

/-- ERR_CMD is written by an error alone (10_state.md R43). -/
theorem Ran.errCmd (h : Ran s i t) : t.errCmd = s.errCmd ∨ Answered s t 0 true := by
  cases h with
  | completed v h => exact .inl h.untouched.errCmd
  | rejected => exact .inr rfl
  | beyond => exact .inr rfl
  | stopped loop => exact .inr (by rw [Answered, State.raise_output, (untouched_of_access loop).output])

end Sys2Proof.Machine

namespace Sys2Proof.Proofs

open Sys2Proof.Machine

/-- Settles O34: the counts are checked first; from a regular state the loop ends without ACCESS
(`State.Regular.processRows_done`). -/
theorem deProcessChecksItsCounts : Obligations.DeProcessChecksItsCounts := by
  unfold Obligations.DeProcessChecksItsCounts
  intro s nc ns inv
  refine ⟨encodedAs_plainRow .deProcess, fun outside => ?rejected, fun hnc hnc' hns hns' reg => ?completes⟩
  case rejected =>
    have notInside : ¬ s.BlockInRange nc ns := by
      unfold State.BlockInRange
      omega
    exact ⟨_, exec_deProcess_of_outside notInside, s.raise_raised_plain (o := .deProcess) rfl rfl rfl (by decide) .arg⟩
  case completes =>
    obtain ⟨u, loop, -⟩ := reg.processRows_done inv (uint ns) (uint nc)
    refine ⟨_, exec_deProcess_of_done ⟨⟨hnc, hnc'⟩, hns, hns'⟩ loop, ?_⟩
    rw [Answered, State.respond_output, (processRows_frame (.inl loop)).untouched.output]

/-- Settles O17: in a regular state a command completes, and then keeps the error bits, or raises another error
(`Ran.of_regular`). -/
theorem regularStatesNeverRaiseAccess : Obligations.RegularStatesNeverRaiseAccess := by
  unfold Obligations.RegularStatesNeverRaiseAccess
  intro s t i inv reg run
  have outcome := (exec_ran run).of_regular inv reg
  refine ⟨?bit, fun single => ?single, ?block⟩
  case bit =>
    rcases outcome with ⟨u, v, completes, rfl⟩ | ⟨e, notAccess, -, rfl⟩
    · exact completes.statusBit_of_le (by decide)
    · have other : (10 == errorBit e) = false := by
        cases e with
        | access => exact absurd rfl notAccess
        | illegal => rfl
        | arg => rfl
      rw [State.statusBit_raise, other, Bool.or_false]
  case single =>
    rcases outcome with ⟨u, v, completes, rfl⟩ | ⟨e, -, others, rfl⟩
    · exact ⟨v, by rw [Answered, State.respond_output, completes.untouched.output]⟩
    · simp only [List.mem_cons, List.not_mem_nil, or_false] at single
      rcases single with h | h | h | h <;> rw [h] at others <;> cases others
  case block =>
    rintro nc ns rfl hnc hnc' hns hns'
    obtain ⟨-, -, completes⟩ := deProcessChecksItsCounts s nc ns inv
    obtain ⟨t', run', answer⟩ := completes hnc hnc' hns hns' reg
    cases run.symm.trans run'
    exact answer

/-- Settles O18: one error was raised, in a state that is `s` but for completed samples (`Ran.of_error`). -/
theorem errorsArePrecise : Obligations.ErrorsArePrecise := by
  unfold Obligations.ErrorsArePrecise
  intro s t i _ run answer
  obtain ⟨e, u, rfl, frame, status, whole⟩ := (exec_ran run).of_error answer
  obtain ⟨bits, errCmd, -, -⟩ := u.raise_raised i e
  have hErrCmd : u.errCmd = s.errCmd := frame.untouched.errCmd
  have hOutput : u.output = s.output := frame.untouched.output
  refine ⟨errorBit e, by cases e <;> decide, ?bits, ?errCmd, ?frame, ?rest⟩
  case bits => exact fun k hk => status ▸ bits k hk
  case errCmd => rwa [status, hErrCmd] at errCmd
  case frame =>
    unfold SampleFrame at frame
    rw [← hErrCmd, ← hOutput]
    exact frame
  case rest =>
    intro other
    cases whole other
    exact ⟨rfl, rfl, rfl, rfl⟩

/-- Settles O19: STAT.CLR clears bits 3:0; everything else a command does to STATUS is setting bits. -/
theorem statusBitsAreSticky : Obligations.StatusBitsAreSticky := by
  unfold Obligations.StatusBitsAreSticky
  intro s t i k run set
  cases exec_ran run with
  | completed v completes =>
    rcases completes.warnsOnly with only | ⟨clr, -⟩
    · exact .inl ((only k).1 set)
    · by_cases hk : k < 4
      · exact .inr ⟨clr, hk⟩
      · exact .inl ((completes.statusBit_of_le (Nat.not_lt.1 hk)).trans set)
  | rejected => exact .inl (State.statusBit_raise_of_set _ _ set)
  | beyond => exact .inl (State.statusBit_raise_of_set _ _ set)
  | stopped loop =>
    exact .inl (State.statusBit_raise_of_set _ _ ((processRows_warnsOnly (.inr loop) k).1 set))

/-- Settles O20: the columns of `WrittenBy`, ERR_CMD by an error alone, and the constants. -/
theorem onlyTheNamedCommandsWriteEachRegister : Obligations.OnlyTheNamedCommandsWriteEachRegister := by
  unfold Obligations.OnlyTheNamedCommandsWriteEachRegister
  intro s t i run
  have ran := exec_ran run
  obtain ⟨channels, capacity, alloc, wcur, rcur, feedback, mix, delaySamples, store, blk⟩ := ran.writtenBy
  obtain ⟨hw, hwId⟩ := ran.constants
  obtain ⟨-, -, -, -, input⟩ := ran.answered
  exact ⟨channels, capacity, alloc, wcur, rcur, feedback, mix, delaySamples, ran.errCmd, store, blk, hw, hwId, input⟩

end Sys2Proof.Proofs
end

section
/-! PROOFS. Channels (10_state.md R48): what a command on one channel leaves of every other, that it depends on its own
channel and the shared registers only, and what DE.PROCESS leaves (41_delay_effect.md R167). -/

namespace Sys2Proof.Machine

variable {s t u : State} {i : Instr}

/-! ### Updates of another channel -/

theorem getD_set_of_ne {l : List Word} {c d : Nat} (h : d ≠ c) (w : Word) : (l.set c w).getD d 0 = l.getD d 0 := by
  rw [List.getD_eq_getElem?_getD, List.getD_eq_getElem?_getD, List.getElem?_set_ne h.symm]

theorem State.wcurAt_setWcur_of_ne {c d : Nat} (h : d ≠ c) (s : State) (p : Nat) :
    (s.setWcur c p).wcurAt d = s.wcurAt d := congrArg uint (getD_set_of_ne h _)

theorem State.rcurAt_setRcur_of_ne {c d : Nat} (h : d ≠ c) (s : State) (p : Nat) :
    (s.setRcur c p).rcurAt d = s.rcurAt d := congrArg uint (getD_set_of_ne h _)

theorem State.storeRead_storeWrite_of_ne (inv : s.Inv) {c d p q : Nat} (h : d ≠ c) (hp : p < 2 ^ 32) (hq : q < 2 ^ 32)
    (v : Word) : (s.storeWrite c p v).storeRead d q = s.storeRead d q := by
  rw [State.storeRead_storeWrite inv.store hp hq, if_neg (fun same => h same.1)]

theorem State.blkRead_blkWrite_of_ne (inv : s.Inv) {c d k j : Nat} (h : d ≠ c ∨ j ≠ k) (hk : k < 2 ^ 32)
    (hj : j < 2 ^ 32) (v : Word) : (s.blkWrite c k v).blkRead d j = s.blkRead d j := by
  rw [State.blkRead_blkWrite inv.blk hk hj, if_neg (by omega)]

/-- STORE and the cursors of channel `d` are as they were. -/
structure ChannelKept (d : Nat) (s t : State) : Prop where
  store : ∀ p, p < 2 ^ 32 → t.storeRead d p = s.storeRead d p
  wcur : t.wcurAt d = s.wcurAt d
  rcur : t.rcurAt d = s.rcurAt d

theorem ChannelKept.refl (d : Nat) (s : State) : ChannelKept d s s := ⟨fun _ _ => rfl, rfl, rfl⟩

theorem ChannelKept.trans {d : Nat} (h : ChannelKept d s u) (h' : ChannelKept d u t) : ChannelKept d s t :=
  ⟨fun p hp => (h'.store p hp).trans (h.store p hp), h'.wcur.trans h.wcur, h'.rcur.trans h.rcur⟩

/-- A step writes its own channel only. -/
theorem ChannelKept.stepState (inv : s.Inv) {c d : Nat} (h : d ≠ c) (x f : Word) :
    ChannelKept d s (Machine.stepState c x f s) where
  store _ hp := State.storeRead_storeWrite_of_ne (s := s) inv h (s.wcurAt_lt c) hp _
  wcur := State.wcurAt_setWcur_of_ne h ((s.setRcur c (s.adv (s.rcurAt c))).storeWrite c (s.wcurAt c) _) _
  rcur := State.rcurAt_setRcur_of_ne h s _

/-- A command that names a channel leaves STORE, the cursors and BLK of every other channel. -/
theorem Completes.keeps_channel (inv : s.Inv) (takes : i.opcode.takesChannel = true) {d : Nat}
    (other : d ≠ i.chOperand.toNat) (h : Completes s i u) :
    ChannelKept d s u ∧ ∀ p, p < 2 ^ 32 → u.blkRead d p = s.blkRead d p := by
  have kept := ChannelKept.refl d s
  cases h with
  | unchanged => exact ⟨kept, fun _ _ => rfl⟩
  | ignored => exact ⟨{ kept with }, fun _ _ => rfl⟩
  | rbWrite =>
    exact ⟨{ kept with
      store := fun _ hp => State.storeRead_storeWrite_of_ne inv other (s.wcurAt_lt _) hp _
      wcur := State.wcurAt_setWcur_of_ne other (s.storeWrite _ _ _) _ }, fun _ _ => rfl⟩
  | rbRead => exact ⟨{ kept with rcur := State.rcurAt_setRcur_of_ne other s _ }, fun _ _ => rfl⟩
  | rbSetrp => exact ⟨{ kept with rcur := State.rcurAt_setRcur_of_ne other s _ }, fun _ _ => rfl⟩
  | rbStep => exact ⟨.stepState inv other _ _, fun _ _ => rfl⟩
  | deMixstep => exact ⟨.stepState inv other _ _, fun _ _ => rfl⟩
  | blkWr =>
    exact ⟨{ kept with }, fun _ hp => State.blkRead_blkWrite_of_ne inv (.inl other) (indexNat_lt _) hp _⟩
  | _ => cases takes

/-! ### One sample of the block loop -/

/-- A sample writes one BLK word, and STORE and the cursors of its channel if that is valid. -/
theorem processSample_elsewhere (inv : s.Inv) {c k : Nat} (hk : k < 2 ^ 32) (h : processSample c k s = .done t) :
    (∀ d, d ≠ c ∨ uint s.channels ≤ d → ChannelKept d s t) ∧
      ∀ d j, j < 2 ^ 32 → d ≠ c ∨ j ≠ k → t.blkRead d j = s.blkRead d j := by
  obtain ⟨y, ⟨valid, rfl⟩ | ⟨-, rfl⟩⟩ := processSample_done h
  · refine ⟨fun d hd => ?_, fun d j hj hne => ?_⟩
    · have hc := State.valid_iff.1 valid
      have kept := ChannelKept.stepState inv (c := c) (d := d) (by omega) (s.blkRead c k) s.feedback
      exact { kept with }
    · exact State.blkRead_blkWrite_of_ne (inv.stepState c _ _) hne hk hj y
  · refine ⟨fun d _ => { ChannelKept.refl d s with }, fun d j hj hne => ?_⟩
    exact State.blkRead_blkWrite_of_ne (inv.warn .chInv) hne hk hj y

/-- What the block loop leaves as it was: BLK outside the block, and the channels outside it or not valid. -/
structure OutsideBlock (nc ns : Nat) (s t : State) : Prop where
  channels : t.channels = s.channels
  blk : ∀ c j, j < 2 ^ 32 → nc ≤ c ∨ ns ≤ j → t.blkRead c j = s.blkRead c j
  kept : ∀ c, nc ≤ c ∨ uint s.channels ≤ c → ChannelKept c s t

theorem processRows_outsideBlock (inv : s.Inv) {nc ns : Nat} (hns : ns ≤ 2 ^ 32)
    (h : (processRows ns nc 0 s).Leaves t) : OutsideBlock nc ns s t := by
  have keeps : t.Inv ∧ OutsideBlock nc ns s t := by
    refine processRows_keeps (P := fun u => u.Inv ∧ OutsideBlock nc ns s u) (fun d j u v _ hd hj hu sample => ?_)
      ⟨inv, rfl, fun _ _ _ _ => rfl, fun c _ => .refl c s⟩ h
    obtain ⟨hinv, channels, blk, kept⟩ := hu
    obtain ⟨others, words⟩ := processSample_elsewhere hinv (by omega) sample
    refine ⟨hinv.processSample_done sample, ?_, fun c k hk out => ?_, fun c out => ?_⟩
    · exact (congrArg State.channels (processSample_frame (s := u) rfl sample) :).trans channels
    · exact (words c k hk (by omega)).trans (blk c k hk out)
    · exact (kept c out).trans (others c (by rw [channels]; omega))
  exact keeps.2

/-! ### Agreement on one channel -/

/-- The states agree on everything but the other channels. -/
structure AgreeOn (c : Nat) (a b : State) : Prop where
  shared : { a with store := b.store, blk := b.blk, wcur := b.wcur, rcur := b.rcur } = b
  wcur : a.wcurAt c = b.wcurAt c
  rcur : a.rcurAt c = b.rcurAt c
  store : ∀ p, p < 2 ^ 32 → a.storeRead c p = b.storeRead c p
  blk : ∀ p, p < 2 ^ 32 → a.blkRead c p = b.blkRead c p

section Agreement

variable {a b : State} {c : Nat}

theorem AgreeOn.hw (h : AgreeOn c a b) : a.hw = b.hw := (congrArg State.hw h.shared :)
theorem AgreeOn.channels (h : AgreeOn c a b) : a.channels = b.channels := (congrArg State.channels h.shared :)
theorem AgreeOn.capacity (h : AgreeOn c a b) : a.capacity = b.capacity := (congrArg State.capacity h.shared :)
theorem AgreeOn.alloc (h : AgreeOn c a b) : a.alloc = b.alloc := (congrArg State.alloc h.shared :)
theorem AgreeOn.feedback (h : AgreeOn c a b) : a.feedback = b.feedback := (congrArg State.feedback h.shared :)
theorem AgreeOn.mix (h : AgreeOn c a b) : a.mix = b.mix := (congrArg State.mix h.shared :)

theorem AgreeOn.adv (h : AgreeOn c a b) (p : Nat) : a.adv p = b.adv p := by
  rw [State.adv, State.adv, h.capacity]

theorem AgreeOn.lagSlot (h : AgreeOn c a b) (lag : Nat) : a.lagSlot c lag = b.lagSlot c lag := by
  rw [State.lagSlot, State.lagSlot, h.capacity, h.wcur]

theorem AgreeOn.respond (h : AgreeOn c a b) (v : Word) : AgreeOn c (a.respond v) (b.respond v) :=
  { h with shared := (congrArg (State.respond · v) h.shared :) }

theorem AgreeOn.warn (h : AgreeOn c a b) (w : Warning) : AgreeOn c (a.warn w) (b.warn w) :=
  { h with shared := (congrArg (State.warn · w) h.shared :) }

theorem AgreeOn.raise (h : AgreeOn c a b) (i : Instr) (e : ErrorKind) : AgreeOn c (a.raise i e) (b.raise i e) :=
  { h with shared := (congrArg (State.raise · i e) h.shared :) }

theorem AgreeOn.storeWrite (h : AgreeOn c a b) (ha : a.Inv) (hb : b.Inv) {p : Nat} (hp : p < 2 ^ 32) (v : Word) :
    AgreeOn c (a.storeWrite c p v) (b.storeWrite c p v) where
  shared := (congrArg (fun s : State => { s with store := (b.storeWrite c p v).store }) h.shared :)
  wcur := h.wcur
  rcur := h.rcur
  blk := h.blk
  store q hq := by
    rw [State.storeRead_storeWrite ha.store hp hq, State.storeRead_storeWrite hb.store hp hq, h.store q hq]

theorem AgreeOn.blkWrite (h : AgreeOn c a b) (ha : a.Inv) (hb : b.Inv) {k : Nat} (hk : k < 2 ^ 32) (v : Word) :
    AgreeOn c (a.blkWrite c k v) (b.blkWrite c k v) where
  shared := (congrArg (fun s : State => { s with blk := (b.blkWrite c k v).blk }) h.shared :)
  wcur := h.wcur
  rcur := h.rcur
  store := h.store
  blk j hj := by
    rw [State.blkRead_blkWrite ha.blk hk hj, State.blkRead_blkWrite hb.blk hk hj, h.blk j hj]

theorem AgreeOn.setWcur (h : AgreeOn c a b) (ha : a.Inv) (hb : b.Inv) (hc : c < uint b.channels) {p : Nat}
    (hp : p < uint b.capacity) : AgreeOn c (a.setWcur c p) (b.setWcur c p) where
  shared := (congrArg (fun s : State => { s with wcur := (b.setWcur c p).wcur }) h.shared :)
  wcur := by
    rw [wcurSetAt_of_wcur (t := a.setWcur c p) ha (by rwa [h.channels]) (by rwa [h.capacity]) rfl c,
      wcurSetAt_of_wcur (t := b.setWcur c p) hb hc hp rfl c, if_pos rfl, if_pos rfl]
  rcur := h.rcur
  store := h.store
  blk := h.blk

theorem AgreeOn.setRcur (h : AgreeOn c a b) (ha : a.Inv) (hb : b.Inv) (hc : c < uint b.channels) {p : Nat}
    (hp : p < uint b.capacity) : AgreeOn c (a.setRcur c p) (b.setRcur c p) where
  shared := (congrArg (fun s : State => { s with rcur := (b.setRcur c p).rcur }) h.shared :)
  wcur := h.wcur
  rcur := by
    rw [rcurSetAt_of_rcur (t := a.setRcur c p) ha (by rwa [h.channels]) (by rwa [h.capacity]) rfl c,
      rcurSetAt_of_rcur (t := b.setRcur c p) hb hc hp rfl c, if_pos rfl, if_pos rfl]
  store := h.store
  blk := h.blk

/-- The word a step answers and stores depends on the channel and the shared registers only. -/
theorem AgreeOn.wet (h : AgreeOn c a b) (x f : Word) :
    mac a.hw.numFmt x f (a.storeRead c (a.rcurAt c)) = mac b.hw.numFmt x f (b.storeRead c (b.rcurAt c)) := by
  rw [h.hw, h.rcur, h.store _ (b.rcurAt_lt c)]

theorem AgreeOn.stepState (h : AgreeOn c a b) (ha : a.Inv) (hb : b.Inv) (hc : c < uint b.channels) (x f : Word) :
    AgreeOn c (Machine.stepState c x f a) (Machine.stepState c x f b) := by
  have next_lt : ∀ p, b.adv p < 2 ^ 24 := fun p => (hb.adv_lt p).trans_le hb.capacity.2
  unfold Machine.stepState
  rw [h.wet x f, h.adv, h.adv, h.rcur, h.wcur]
  have read := h.setRcur ha hb hc (hb.adv_lt (b.rcurAt c))
  have ha' : (a.setRcur c (b.adv (b.rcurAt c))).Inv := ha.setRcur c (next_lt _)
  have hb' : (b.setRcur c (b.adv (b.rcurAt c))).Inv := hb.setRcur c (next_lt _)
  have written := read.storeWrite ha' hb' (b.wcurAt_lt c) (mac b.hw.numFmt x f (b.storeRead c (b.rcurAt c)))
  exact written.setWcur (ha'.storeWrite _ _ _) (hb'.storeWrite _ _ _) hc (hb.adv_lt (b.wcurAt c))

/-- Commands on an agreeing channel answer alike and leave agreement. -/
theorem AgreeOn.exec {i : Instr} {a' b' : State} (h : AgreeOn i.chOperand.toNat a b) (ha : a.Inv) (hb : b.Inv)
    (takes : i.opcode.takesChannel = true) (run : Machine.exec i a = .next a') (run' : Machine.exec i b = .next b') :
    AgreeOn i.chOperand.toNat a' b' := by
  cases i with
  | rbWrite ch x =>
    change AgreeOn ch.toNat a b at h
    rw [exec_rbWrite_of_inv ha, h.channels, h.alloc, h.wcur, h.adv] at run
    rw [exec_rbWrite_of_inv hb] at run'
    cases run; cases run'
    split_ifs with invalid
    · exact (h.warn .chInv).respond 0
    · exact h.raise _ .access
    · exact ((h.storeWrite ha hb (b.wcurAt_lt _) x).setWcur (ha.storeWrite _ _ _) (hb.storeWrite _ _ _)
        (Nat.not_le.1 invalid) (hb.adv_lt _)).respond 0
  | rbRead ch =>
    change AgreeOn ch.toNat a b at h
    rw [exec_rbRead_of_inv ha, h.hw, h.channels, h.alloc, h.rcur, h.adv, h.store _ (b.rcurAt_lt _)] at run
    rw [exec_rbRead_of_inv hb] at run'
    cases run; cases run'
    split_ifs with invalid
    · exact (h.warn .chInv).respond _
    · exact h.raise _ .access
    · exact (h.setRcur ha hb (Nat.not_le.1 invalid) (hb.adv_lt _)).respond _
  | rbSetrp ch v =>
    change AgreeOn ch.toNat a b at h
    by_cases valid : ch.toNat < uint b.channels
    · have valid' : ch.toNat < uint a.channels := h.channels ▸ valid
      cases lag : lagInt b.hw.numFmt v with
      | none =>
        cases run.symm.trans (exec_rbSetrp_of_bad valid' (h.hw ▸ lag))
        cases run'.symm.trans (exec_rbSetrp_of_bad valid lag)
        exact h.raise _ .arg
      | some n =>
        cases run.symm.trans (exec_rbSetrp_of_lag valid' (h.hw ▸ lag))
        cases run'.symm.trans (exec_rbSetrp_of_lag valid lag)
        rw [h.lagSlot]
        exact (h.setRcur ha hb valid (hb.lagSlot_lt _ n)).respond 0
    · have invalid := Nat.not_lt.1 valid
      cases run.symm.trans (exec_rbSetrp_of_invalid (h.channels ▸ invalid) v)
      cases run'.symm.trans (exec_rbSetrp_of_invalid invalid v)
      exact (h.warn .chInv).respond 0
  | rbStep ch x f =>
    change AgreeOn ch.toNat a b at h
    rw [exec_rbStep_of_inv ha, h.wet x f, h.hw, h.channels, h.alloc, h.rcur, h.wcur] at run
    rw [exec_rbStep_of_inv hb] at run'
    cases run; cases run'
    split_ifs with invalid
    · exact (h.warn .chInv).respond _
    · exact h.raise _ .access
    · exact (h.stepState ha hb (Nat.not_le.1 invalid) x f).respond _
  | rbGetwc ch =>
    change AgreeOn ch.toNat a b at h
    have cursor : a.wcur.getD ch.toNat 0 = b.wcur.getD ch.toNat 0 := BitVec.eq_of_toNat_eq h.wcur
    rw [exec_rbGetwc, h.channels, cursor] at run
    rw [exec_rbGetwc] at run'
    cases run; cases run'
    split_ifs
    · exact (h.warn .chInv).respond 0
    · exact h.respond _
  | rbGetrc ch =>
    change AgreeOn ch.toNat a b at h
    have cursor : a.rcur.getD ch.toNat 0 = b.rcur.getD ch.toNat 0 := BitVec.eq_of_toNat_eq h.rcur
    rw [exec_rbGetrc, h.channels, cursor] at run
    rw [exec_rbGetrc] at run'
    cases run; cases run'
    split_ifs
    · exact (h.warn .chInv).respond 0
    · exact h.respond _
  | deMixstep ch x =>
    change AgreeOn ch.toNat a b at h
    rw [exec_deMixstep_of_inv ha, h.wet x a.feedback, h.feedback, h.mix, h.hw, h.channels, h.alloc, h.rcur,
      h.wcur] at run
    rw [exec_deMixstep_of_inv hb] at run'
    cases run; cases run'
    split_ifs with invalid
    · exact (h.warn .chInv).respond _
    · exact h.raise _ .access
    · exact (h.stepState ha hb (Nat.not_le.1 invalid) x b.feedback).respond _
  | blkWr ch idx v =>
    change AgreeOn ch.toNat a b at h
    rw [exec_blkWr, h.hw] at run
    rw [exec_blkWr] at run'
    cases run; cases run'
    split_ifs
    · exact h.raise _ .arg
    · exact (h.blkWrite ha hb (indexNat_lt idx) v).respond 0
  | blkRd ch idx =>
    change AgreeOn ch.toNat a b at h
    rw [exec_blkRd, h.hw, h.blk _ (indexNat_lt idx)] at run
    rw [exec_blkRd] at run'
    cases run; cases run'
    split_ifs
    · exact h.raise _ .arg
    · exact h.respond _
  | _ => cases takes

end Agreement

end Sys2Proof.Machine

namespace Sys2Proof.Proofs

open Sys2Proof.Machine

/-- Settles O37: the loop writes what samples write (`processRows_frame`), inside the block
(`processRows_outsideBlock`); its error, if any, adds STATUS, ERR_CMD and the response. -/
theorem deProcessLeavesTheRest : Obligations.DeProcessLeavesTheRest := by
  unfold Obligations.DeProcessLeavesTheRest
  intro s t nc ns inv run
  have hns : uint ns ≤ 2 ^ 32 := (uint_lt ns).le
  have rest : ∀ {u : State}, (processRows (uint ns) (uint nc) 0 s).Leaves u →
      { u with store := s.store, blk := s.blk, wcur := s.wcur, rcur := s.rcur, status := s.status, errCmd := s.errCmd,
               output := s.output } = s := fun leaves =>
    (congrArg (fun v : State => { v with errCmd := s.errCmd, output := s.output }) (processRows_frame leaves) :)
  cases exec_ran run with
  | completed v completes =>
    cases completes with
    | unchanged reads => cases reads
    | ignored channel => cases channel
    | deProcess loop =>
      have frame := rest (.inl loop)
      obtain ⟨-, blk, kept⟩ := processRows_outsideBlock inv hns (.inl loop)
      exact ⟨frame, blk, fun c out => ⟨(kept c out).store, (kept c out).wcur, (kept c out).rcur⟩⟩
  | rejected => exact ⟨rfl, fun _ _ _ _ => rfl, fun _ _ => ⟨fun _ _ => rfl, rfl, rfl⟩⟩
  | beyond => exact ⟨rfl, fun _ _ _ _ => rfl, fun _ _ => ⟨fun _ _ => rfl, rfl, rfl⟩⟩
  | stopped loop =>
    have frame := rest (.inr loop)
    obtain ⟨-, blk, kept⟩ := processRows_outsideBlock inv hns (.inr loop)
    exact ⟨frame, blk, fun c out => ⟨(kept c out).store, (kept c out).wcur, (kept c out).rcur⟩⟩

/-- Settles O41: a command that completes writes its own channel (`Completes.keeps_channel`), an error none. -/
theorem channelsAreIndependentForWrites : Obligations.ChannelsAreIndependentForWrites := by
  unfold Obligations.ChannelsAreIndependentForWrites
  intro s t i d inv takes run other
  cases exec_ran run with
  | completed v completes =>
    obtain ⟨⟨store, wcur, rcur⟩, blk⟩ := completes.keeps_channel inv takes other
    exact ⟨store, blk, wcur, rcur⟩
  | rejected => exact ⟨fun _ _ => rfl, fun _ _ => rfl, rfl, rfl⟩
  | beyond => exact ⟨fun _ _ => rfl, fun _ _ => rfl, rfl, rfl⟩
  | stopped => cases takes

/-- Settles O42: the nine commands with a channel operand, each by the updates it is made of (`AgreeOn.exec`). -/
theorem channelsAreIndependentForReads : Obligations.ChannelsAreIndependentForReads := by
  unfold Obligations.ChannelsAreIndependentForReads
  rintro s s' t t' i inv inv' takes c agree ⟨shared, wcur, rcur, store, blk⟩ run run'
  obtain ⟨shared', wcur', rcur', store', blk'⟩ := AgreeOn.exec ⟨shared, wcur, rcur, store, blk⟩ inv inv' takes run run'
  exact ⟨shared', wcur', rcur', store', blk'⟩

end Sys2Proof.Proofs
end

section
/-! PROOFS. DE.PROCESS as a sequence of samples (41_delay_effect.md R168): one iteration as a list of writes computed
from its own channel, DE.MIXSTEP with a BLK write as the same writes and a response, and the order of two channels. -/

namespace Sys2Proof.Machine

variable {s t u : State}

/-! ### A sample as a list of writes -/

/-- What one iteration of the block loop writes (R167). -/
structure Sample where
  /-- The channel. -/
  channel : Nat
  /-- The index in BLK. -/
  index : Nat
  /-- Whether the channel is valid: otherwise STORE and the cursors stay and CH_INV is set. -/
  valid : Bool
  /-- The slot of STORE that is written. -/
  slot : Nat
  /-- The word written there. -/
  stored : Word
  /-- The cursors after it. -/
  nextWrite : Nat
  nextRead : Nat
  /-- The word written to BLK, DE.MIXSTEP's DATA. -/
  result : Word

/-- The sample that iteration (c, i) makes of the state. -/
def State.sample (s : State) (c i : Nat) : Sample :=
  let x := s.blkRead c i
  let wet := mac s.hw.numFmt x s.feedback (s.storeRead c (s.rcurAt c))
  { channel := c
    index := i
    valid := s.valid c
    slot := s.wcurAt c
    stored := wet
    nextWrite := s.adv (s.wcurAt c)
    nextRead := s.adv (s.rcurAt c)
    result := blend s.hw.numFmt s.mix (if s.valid c then wet else s.hw.numFmt.zero) x }

/-- The state with the sample's writes made. -/
def State.put (s : State) (a : Sample) : State :=
  { s with
    store := if a.valid then s.store.write (cellKey a.channel a.slot) a.stored else s.store
    wcur := if a.valid then s.wcur.set a.channel (wordOfNat a.nextWrite) else s.wcur
    rcur := if a.valid then s.rcur.set a.channel (wordOfNat a.nextRead) else s.rcur
    status := if a.valid then s.status else setBit s.status (warningBit .chInv)
    blk := s.blk.write (cellKey a.channel a.index) a.result }

/-- Iteration on channel `c` raises ACCESS. -/
abbrev State.Blocked (s : State) (c : Nat) : Prop :=
  s.valid c = true ∧ (uint s.alloc ≤ s.rcurAt c ∨ uint s.alloc ≤ s.wcurAt c)

theorem State.put_of_valid {c i : Nat} (valid : s.valid c = true) :
    s.put (s.sample c i) =
      (stepState c (s.blkRead c i) s.feedback s).blkWrite c i
        (blend s.hw.numFmt s.mix (mac s.hw.numFmt (s.blkRead c i) s.feedback (s.storeRead c (s.rcurAt c)))
          (s.blkRead c i)) := by
  simp only [State.put, State.sample, valid, if_true]
  rfl

theorem State.put_of_invalid {c i : Nat} (invalid : s.valid c = false) :
    s.put (s.sample c i) =
      (s.warn .chInv).blkWrite c i (blend s.hw.numFmt s.mix s.hw.numFmt.zero (s.blkRead c i)) := by
  simp only [State.put, State.sample, invalid, Bool.false_eq_true, if_false]
  rfl

theorem processSample_of_blocked (inv : s.Inv) {c : Nat} (i : Nat) (blocked : s.Blocked c) :
    processSample c i s = .access s := by
  obtain ⟨valid, beyond⟩ := blocked
  rw [processSample_of_inv inv, if_pos valid, if_pos beyond]

theorem processSample_of_not_blocked (inv : s.Inv) {c : Nat} (i : Nat) (free : ¬ s.Blocked c) :
    processSample c i s = .done (s.put (s.sample c i)) := by
  rw [processSample_of_inv inv]
  cases valid : s.valid c with
  | true =>
    have inside : ¬ (uint s.alloc ≤ s.rcurAt c ∨ uint s.alloc ≤ s.wcurAt c) := fun beyond => free ⟨valid, beyond⟩
    rw [if_pos rfl, if_neg inside, State.put_of_valid valid]
  | false => rw [if_neg nofun, State.put_of_invalid valid]

theorem State.Inv.put_sample (inv : s.Inv) (c i : Nat) : (s.put (s.sample c i)).Inv := by
  cases valid : s.valid c with
  | true =>
    rw [State.put_of_valid valid]
    exact (inv.stepState c _ _).blkWrite c i _
  | false =>
    rw [State.put_of_invalid valid]
    exact (inv.warn .chInv).blkWrite c i _

/-! ### DE.MIXSTEP and its DATA written back -/

theorem State.lastResponse_respond (s : State) (v : Word) : (s.respond v).lastResponse = some ⟨v, false⟩ := by
  simp [State.lastResponse]

theorem State.lastResponse_raise (s : State) (i : Instr) (e : ErrorKind) :
    (s.raise i e).lastResponse = some ⟨0, true⟩ := by
  simp [State.lastResponse]

/-- A physical channel is its own 8-bit operand. -/
theorem toNat_ofNat_channel {c : Nat} (hc : c < 256) : (BitVec.ofNat 8 c).toNat = c := by
  rw [BitVec.toNat_ofNat]
  omega

theorem exec_deMixstep_of_blocked (inv : s.Inv) {c : Nat} (hc : c < 256) (blocked : s.Blocked c) (x : Word) :
    exec (.deMixstep (BitVec.ofNat 8 c) x) s = .next (s.raise (.deMixstep (BitVec.ofNat 8 c) x) .access) := by
  obtain ⟨valid, beyond⟩ := blocked
  rw [exec_deMixstep_of_inv inv, toNat_ofNat_channel hc, if_neg (Nat.not_le.2 (State.valid_iff.1 valid)), if_pos beyond]

/-- Where the iteration completes, DE.MIXSTEP responds the sample's result, and writing it to BLK completes the
sample. -/
theorem exec_deMixstep_of_not_blocked (inv : s.Inv) {c : Nat} (hc : c < 256) (free : ¬ s.Blocked c) (i : Nat) :
    ∃ v : State, exec (.deMixstep (BitVec.ofNat 8 c) (s.blkRead c i)) s = .next (v.respond (s.sample c i).result) ∧
      v.blkWrite c i (s.sample c i).result = s.put (s.sample c i) := by
  rw [exec_deMixstep_of_inv inv, toNat_ofNat_channel hc]
  cases valid : s.valid c with
  | true =>
    have hlt := State.valid_iff.1 valid
    have inside : ¬ (uint s.alloc ≤ s.rcurAt c ∨ uint s.alloc ≤ s.wcurAt c) := fun beyond => free ⟨valid, beyond⟩
    have result : (s.sample c i).result = blend s.hw.numFmt s.mix
        (mac s.hw.numFmt (s.blkRead c i) s.feedback (s.storeRead c (s.rcurAt c))) (s.blkRead c i) := by
      simp only [State.sample, valid, if_true]
    rw [if_neg (Nat.not_le.2 hlt), if_neg inside, State.put_of_valid valid, result]
    exact ⟨_, rfl, rfl⟩
  | false =>
    have result : (s.sample c i).result = blend s.hw.numFmt s.mix s.hw.numFmt.zero (s.blkRead c i) := by
      simp only [State.sample, valid, Bool.false_eq_true, if_false]
    rw [if_pos (State.valid_eq_false_iff.1 valid), State.put_of_invalid valid, result]
    exact ⟨_, rfl, rfl⟩

theorem mixThenWrite_of_blocked (inv : s.Inv) {c : Nat} (hc : c < 256) (i : Nat) (blocked : s.Blocked c) :
    mixThenWrite c i s = none := by
  unfold mixThenWrite
  simp only [exec_deMixstep_of_blocked inv hc blocked, State.lastResponse_raise, if_true]

theorem mixThenWrite_of_not_blocked (inv : s.Inv) {c : Nat} (hc : c < 256) (i : Nat) (free : ¬ s.Blocked c) :
    mixThenWrite c i s = some ((s.put (s.sample c i)).respond (s.sample c i).result) := by
  obtain ⟨v, run, write⟩ := exec_deMixstep_of_not_blocked inv hc free i
  unfold mixThenWrite
  simp only [run, State.lastResponse_respond, Bool.false_eq_true, if_false, ← write]
  rfl

/-! ### The responses do not matter -/

/-- The state with other responses transferred. -/
def State.withOutput (s : State) (out : List Response) : State := { s with output := out }

theorem State.Inv.withOutput (inv : s.Inv) (out : List Response) : (s.withOutput out).Inv :=
  ⟨inv.legal, inv.hwId, inv.channels, inv.capacity, inv.alloc, inv.wcurLength, inv.rcurLength, inv.wcurRange,
    inv.rcurRange, inv.feedback, inv.mix, inv.delaySamples, inv.status, inv.store, inv.blk⟩

theorem processSample_withOutput (inv : s.Inv) (out : List Response) {c i : Nat} (h : processSample c i s = .done t) :
    processSample c i (s.withOutput out) = .done (t.withOutput out) := by
  by_cases blocked : s.Blocked c
  · rw [processSample_of_blocked inv i blocked] at h
    cases h
  · rw [processSample_of_not_blocked inv i blocked] at h
    cases h
    exact processSample_of_not_blocked (inv.withOutput out) i blocked

theorem processList_withOutput (inv : s.Inv) (out : List Response) {l : List (Nat × Nat)}
    (h : processList l s = .done t) : processList l (s.withOutput out) = .done (t.withOutput out) := by
  induction l generalizing s with
  | nil =>
    cases h
    rfl
  | cons e l ih =>
    obtain ⟨c, i⟩ := e
    simp only [processList] at h ⊢
    cases sample : processSample c i s with
    | done v =>
      rw [sample] at h
      simp only [processSample_withOutput inv out sample]
      exact ih (inv.processSample_done sample) h
    | access v => rw [sample] at h; cases h
    | absent => rw [sample] at h; cases h

/-- The samples made by DE.MIXSTEP are those of the block loop, which gives no responses (R168). -/
theorem processList_of_mixAll {l : List (Nat × Nat)} (inv : s.Inv) (channels : ∀ e ∈ l, e.1 < 256)
    (h : mixAll l s = some u) : u.Inv ∧ processList l s = .done (u.withOutput s.output) := by
  induction l generalizing s with
  | nil =>
    cases h
    exact ⟨inv, rfl⟩
  | cons e l ih =>
    obtain ⟨c, i⟩ := e
    have hc : c < 256 := channels (c, i) List.mem_cons_self
    obtain ⟨v, first, rest⟩ := Option.bind_eq_some_iff.1 h
    by_cases blocked : s.Blocked c
    · rw [mixThenWrite_of_blocked inv hc i blocked] at first
      cases first
    · rw [mixThenWrite_of_not_blocked inv hc i blocked] at first
      cases first
      have inv' := inv.put_sample c i
      obtain ⟨invU, tail⟩ := ih (inv'.respond _) (fun e he => channels e (List.mem_cons_of_mem _ he)) rest
      have silent := processList_withOutput (inv'.respond _) s.output tail
      simp only [processList, processSample_of_not_blocked inv i blocked]
      exact ⟨invU, silent⟩

/-- Every pair of a block in range has a physical channel. -/
theorem blockPairs_channel_lt {nc ns : Word} (inv : s.Inv) (inside : s.BlockInRange nc ns) :
    ∀ e ∈ blockPairs (uint nc) (uint ns), e.1 < 256 := by
  rintro ⟨c, i⟩ pair
  obtain ⟨hc, -⟩ := mem_blockPairs.1 pair
  obtain ⟨⟨-, nchMax⟩, -⟩ := inv.legal
  obtain ⟨⟨lo, hi⟩, -⟩ := inside
  have := sint_eq_uint lo
  show c < 256
  omega

/-! ### Samples of two channels -/

/-- Writes at different indices commute. -/
theorem Memory.write_comm {m : Memory} (wf : m.wf) {k l : Nat} (h : k ≠ l) (v w : Word) :
    (m.write k v).write l w = (m.write l w).write k v := by
  refine Memory.ext_of_wf (Memory.write_wf (Memory.write_wf wf _ _) _ _) (Memory.write_wf (Memory.write_wf wf _ _) _ _)
    fun a => ?_
  rw [Memory.read_write (Memory.write_wf wf k v), Memory.read_write wf, Memory.read_write (Memory.write_wf wf l w),
    Memory.read_write wf]
  by_cases ha : a = k
  · have : ¬ a = l := fun e => h (ha.symm.trans e)
    simp only [if_pos ha, if_neg this]
  · simp only [if_neg ha]

theorem setBit_idem (status : Word) (n : Nat) : setBit (setBit status n) n = setBit status n := by
  rw [setBit, setBit, BitVec.or_assoc, BitVec.or_self]

/-- The writes of samples of different channels commute. -/
theorem State.put_comm (inv : s.Inv) {a b : Sample} (channels : a.channel ≠ b.channel) (ha : a.index < 2 ^ 32)
    (hb : b.index < 2 ^ 32) (ha' : a.slot < 2 ^ 32) (hb' : b.slot < 2 ^ 32) :
    (s.put a).put b = (s.put b).put a := by
  have blkKey : cellKey a.channel a.index ≠ cellKey b.channel b.index := fun e => channels ((cellKey_inj ha hb).1 e).1
  have storeKey : cellKey a.channel a.slot ≠ cellKey b.channel b.slot := fun e => channels ((cellKey_inj ha' hb').1 e).1
  cases va : a.valid <;> cases vb : b.valid <;>
    simp only [State.put, va, vb, if_true, Bool.false_eq_true, if_false, Memory.write_comm inv.blk blkKey,
      Memory.write_comm inv.store storeKey, List.set_comm _ _ channels, setBit_idem]

/-- A sample of one channel leaves the sample of another as it was, and whether that raises ACCESS. -/
theorem State.sample_put (inv : s.Inv) {c d i j : Nat} (h : c ≠ d) (free : ¬ s.Blocked c) (hi : i < 2 ^ 32)
    (hj : j < 2 ^ 32) :
    (s.put (s.sample c i)).sample d j = s.sample d j ∧ ((s.put (s.sample c i)).Blocked d ↔ s.Blocked d) := by
  obtain ⟨others, words⟩ := processSample_elsewhere inv hi (processSample_of_not_blocked inv i free)
  obtain ⟨store, wcur, rcur⟩ := others d (.inl h.symm)
  have word := words d j hj (.inl h.symm)
  generalize ht : s.put (s.sample c i) = t at *
  have hw : t.hw = s.hw := ht ▸ rfl
  have valid : t.valid d = s.valid d := ht ▸ rfl
  have alloc : t.alloc = s.alloc := ht ▸ rfl
  have feedback : t.feedback = s.feedback := ht ▸ rfl
  have mix : t.mix = s.mix := ht ▸ rfl
  have adv : ∀ p, t.adv p = s.adv p := ht ▸ fun _ => rfl
  constructor
  · simp only [State.sample, word, rcur, wcur, store _ (s.rcurAt_lt d), hw, valid, feedback, mix, adv]
  · simp only [State.Blocked, valid, alloc, rcur, wcur]

/-- The next state of one iteration, if it completes. -/
def State.nextSample (c i : Nat) (s : State) : Option State :=
  if s.Blocked c then none else some (s.put (s.sample c i))

theorem State.nextSample_of_blocked {c : Nat} (i : Nat) (h : s.Blocked c) : s.nextSample c i = none := if_pos h

theorem State.nextSample_of_not_blocked {c : Nat} (i : Nat) (h : ¬ s.Blocked c) :
    s.nextSample c i = some (s.put (s.sample c i)) := if_neg h

/-- But for the responses, DE.MIXSTEP with its DATA written back is one iteration (R168). -/
theorem mixThenWrite_silent (inv : s.Inv) {c : Nat} (hc : c < 256) (i : Nat) :
    (mixThenWrite c i s).map (State.withOutput · []) = (s.withOutput []).nextSample c i := by
  by_cases blocked : s.Blocked c
  · rw [mixThenWrite_of_blocked inv hc i blocked]
    exact (State.nextSample_of_blocked (s := s.withOutput []) i blocked).symm
  · rw [mixThenWrite_of_not_blocked inv hc i blocked]
    exact (State.nextSample_of_not_blocked (s := s.withOutput []) i blocked).symm

theorem mixThenWrite_bind_silent (inv : s.Inv) {c d : Nat} (hc : c < 256) (hd : d < 256) (i j : Nat) :
    ((mixThenWrite c i s).bind (mixThenWrite d j)).map (State.withOutput · []) =
      ((s.withOutput []).nextSample c i).bind (State.nextSample d j) := by
  rw [← mixThenWrite_silent inv hc i]
  by_cases blocked : s.Blocked c
  · rw [mixThenWrite_of_blocked inv hc i blocked]
    rfl
  · rw [mixThenWrite_of_not_blocked inv hc i blocked]
    exact mixThenWrite_silent ((inv.put_sample c i).respond _) hd j

theorem State.nextSample_comm (inv : s.Inv) {c d i j : Nat} (h : c ≠ d) (hi : i < 2 ^ 32) (hj : j < 2 ^ 32) :
    (s.nextSample c i).bind (State.nextSample d j) = (s.nextSample d j).bind (State.nextSample c i) := by
  by_cases hc : s.Blocked c <;> by_cases hd : s.Blocked d
  · rw [nextSample_of_blocked i hc, nextSample_of_blocked j hd]
    rfl
  · have hc' := (State.sample_put inv h.symm hd hj hi).2.2 hc
    rw [nextSample_of_blocked i hc, nextSample_of_not_blocked j hd]
    exact (nextSample_of_blocked i hc').symm
  · have hd' := (State.sample_put inv h hc hi hj).2.2 hd
    rw [nextSample_of_blocked j hd, nextSample_of_not_blocked i hc]
    exact nextSample_of_blocked j hd'
  · obtain ⟨sampleD, blockedD⟩ := State.sample_put inv h hc hi hj
    obtain ⟨sampleC, blockedC⟩ := State.sample_put inv h.symm hd hj hi
    rw [nextSample_of_not_blocked i hc, nextSample_of_not_blocked j hd]
    refine (nextSample_of_not_blocked j (mt blockedD.1 hd)).trans ?_
    refine .trans ?_ (nextSample_of_not_blocked i (mt blockedC.1 hc)).symm
    rw [sampleD, sampleC, State.put_comm inv (a := s.sample c i) (b := s.sample d j) h hi hj (s.wcurAt_lt c)
      (s.wcurAt_lt d)]

end Sys2Proof.Machine

namespace Sys2Proof.Proofs

open Sys2Proof.Machine

/-- Settles O35: the loop visits the pairs of the block (`processRows_eq_list`), and over them the samples are those of
DE.MIXSTEP (`processList_of_mixAll`). -/
theorem deProcessIsASequenceOfMixsteps : Obligations.DeProcessIsASequenceOfMixsteps := by
  unfold Obligations.DeProcessIsASequenceOfMixsteps
  intro s u nc ns inv hnc hnc' hns hns' all
  have inside : s.BlockInRange nc ns := ⟨⟨hnc, hnc'⟩, hns, hns'⟩
  have loop : processRows (uint ns) (uint nc) 0 s = .done (u.withOutput s.output) := by
    rw [processRows_eq_list, (processList_of_mixAll inv (blockPairs_channel_lt inv inside) all).2]
  exact ⟨_, exec_deProcess_of_done inside loop, rfl, rfl⟩

/-- Settles O36: the earlier samples are those of DE.MIXSTEP, and where DE.MIXSTEP raises, the iteration has done
nothing. -/
theorem deProcessStopsAtTheFailingSample : Obligations.DeProcessStopsAtTheFailingSample := by
  unfold Obligations.DeProcessStopsAtTheFailingSample
  intro s u e nc ns before after c i inv hnc hnc' hns hns' pairs all run answer
  have inside : s.BlockInRange nc ns := ⟨⟨hnc, hnc'⟩, hns, hns'⟩
  have channels := blockPairs_channel_lt inv inside
  rw [pairs] at channels
  have hc : c < 256 := channels (c, i) (by simp)
  obtain ⟨invU, done⟩ := processList_of_mixAll inv (fun e he => channels e (List.mem_append_left _ he)) all
  have blocked : u.Blocked c := by
    by_contra free
    obtain ⟨v, run', -⟩ := exec_deMixstep_of_not_blocked invU hc free i
    cases run.symm.trans run'
    exact not_answered_error answer
  have stop : processSample c i (u.withOutput s.output) = .access (u.withOutput s.output) :=
    processSample_of_blocked (invU.withOutput _) i blocked
  have loop : processRows (uint ns) (uint nc) 0 s = .access (u.withOutput s.output) := by
    rw [processRows_eq_list, pairs, processList_append, done]
    simp only [processList, stop]
  obtain ⟨bits, errCmd, -, -⟩ :=
    (u.withOutput s.output).raise_raised_plain (i := .deProcess nc ns) (o := .deProcess) rfl rfl rfl rfl .access
  exact ⟨_, exec_deProcess_of_access inside loop, rfl, bits, errCmd, rfl⟩

/-- Settles O43: without responses each command is one iteration (`mixThenWrite_bind_silent`), and iterations on two
channels commute (`State.nextSample_comm`). -/
theorem channelsMayBeInterleaved : Obligations.ChannelsMayBeInterleaved := by
  unfold Obligations.ChannelsMayBeInterleaved
  intro s c i d j inv hc hd hi hj h
  obtain ⟨⟨-, nchMax⟩, -, ⟨-, blkMax⟩, -⟩ := inv.legal
  exact (mixThenWrite_bind_silent inv (by omega) (by omega) i j).trans
    ((State.nextSample_comm (inv.withOutput []) h (by omega) (by omega)).trans
      (mixThenWrite_bind_silent inv (by omega) (by omega) j i).symm)

end Sys2Proof.Proofs
end

section
/-! PROOFS. The delay line (40_ring_buffer.md R120 to R122; 41_delay_effect.md R172): a channel on which only steps are
made holds its last CAPACITY outputs, each at a fixed distance behind the write cursor. -/

namespace Sys2Proof.Machine

variable {s t u : State}

/-! ### Positions on the ring -/

/-- The lag of a cursor that stands at a lag (R120). -/
theorem lagPosition_lagPosition {capacity : Nat} (pos : 0 < capacity) (w lag : Nat) :
    lagPosition capacity w (lagPosition capacity w lag) = lag % capacity := by
  zify
  rw [lagPosition_cast pos, lagPosition_cast pos, Int.sub_emod_emod]
  congr 1
  omega

/-- The steps between a word's write and its read: the lag, or CAPACITY for a lag of 0 (R120). -/
def effectiveDelay (capacity lag : Nat) : Nat := if lag % capacity = 0 then capacity else lag % capacity

theorem effectiveDelay_bounds {capacity : Nat} (pos : 0 < capacity) (lag : Nat) :
    1 ≤ effectiveDelay capacity lag ∧ effectiveDelay capacity lag ≤ capacity := by
  have := Nat.mod_lt lag pos
  unfold effectiveDelay
  split_ifs <;> omega

/-- From a write cursor at 0, the read cursor of a lag stands one effective delay behind. -/
theorem lagPosition_zero {capacity : Nat} (pos : 0 < capacity) (lag : Nat) :
    lagPosition capacity 0 lag = (capacity - effectiveDelay capacity lag) % capacity := by
  obtain ⟨-, le⟩ := effectiveDelay_bounds pos lag
  zify [le]
  rw [lagPosition_cast pos, Int.emod_eq_emod_iff_emod_sub_eq_zero]
  apply Int.emod_eq_zero_of_dvd
  have parts := Nat.mod_add_div lag capacity
  unfold effectiveDelay
  split_ifs with h
  · refine ⟨-(lag / capacity : Nat), ?_⟩
    rw [h] at parts
    zify at parts
    push_cast
    linarith
  · refine ⟨-(lag / capacity : Nat) - 1, ?_⟩
    zify at parts
    push_cast
    linarith

/-- Two positions less than a whole turn apart are different slots. -/
theorem ringSlot_ne {capacity n k : Nat} (hk : 1 ≤ k) (hk' : k < capacity) :
    (n + capacity - k) % capacity ≠ n % capacity := by
  intro same
  have h : n + capacity - k ≡ n + capacity [MOD capacity] := by rwa [Nat.ModEq, Nat.add_mod_right]
  have dvd := (Nat.modEq_iff_dvd' (Nat.sub_le _ _)).1 h
  rw [show n + capacity - (n + capacity - k) = k by omega] at dvd
  exact absurd (Nat.le_of_dvd hk dvd) (by omega)

/-- The slots of a ring hold the last `capacity` of the outputs `hist`, output `n` in slot `n` modulo `capacity`, and
ZERO where no output has been written yet. -/
def HoldsOutputs (capacity : Nat) (zero : Word) (hist : List Word) (read : Nat → Word) : Prop :=
  ∀ k, 1 ≤ k → k ≤ capacity →
    read ((hist.length + capacity - k) % capacity) = if k ≤ hist.length then hist.getD (hist.length - k) 0 else zero

/-- One more output, written to its slot. -/
theorem HoldsOutputs.push {capacity : Nat} {zero y : Word} {hist : List Word} {read read' : Nat → Word}
    (h : HoldsOutputs capacity zero hist read)
    (write : ∀ q, q < capacity → read' q = if q = hist.length % capacity then y else read q) :
    HoldsOutputs capacity zero (hist ++ [y]) read' := by
  intro k hk hk'
  rw [List.length_append, List.length_singleton, write _ (Nat.mod_lt _ (by omega))]
  by_cases newest : k = 1
  · subst newest
    have slot : (hist.length + 1 + capacity - 1) % capacity = hist.length % capacity := by
      rw [show hist.length + 1 + capacity - 1 = hist.length + capacity by omega, Nat.add_mod_right]
    rw [if_pos slot, if_pos (by omega), Nat.add_sub_cancel, List.getD_append_right _ _ _ _ le_rfl, Nat.sub_self]
    rfl
  · have slot : hist.length + 1 + capacity - k = hist.length + capacity - (k - 1) := by omega
    rw [slot, if_neg (ringSlot_ne (by omega) (by omega)), h (k - 1) (by omega) (by omega)]
    by_cases early : k ≤ hist.length + 1
    · rw [if_pos (by omega), if_pos early, List.getD_append _ _ _ _ (by omega)]
      congr 1
      omega
    · rw [if_neg (by omega), if_neg early]

/-! ### The delay line -/

/-- Channel `c` of a regular state has made the outputs `hist` since it was cleared, and reads `d` steps behind. -/
structure DelayLine (c d : Nat) (hist : List Word) (s : State) : Prop where
  inv : s.Inv
  regular : s.Regular
  valid : c < uint s.channels
  wcur : s.wcurAt c = hist.length % uint s.capacity
  rcur : s.rcurAt c = (hist.length + uint s.capacity - d) % uint s.capacity
  store : HoldsOutputs (uint s.capacity) s.hw.numFmt.zero hist (s.storeRead c)

/-- The word that the next step reads. -/
theorem DelayLine.read {c d : Nat} {hist : List Word} (h : DelayLine c d hist s) (lo : 1 ≤ d)
    (hi : d ≤ uint s.capacity) :
    s.storeRead c (s.rcurAt c) = if hist.length < d then s.hw.numFmt.zero else hist.getD (hist.length - d) 0 := by
  rw [h.rcur, h.store d lo hi]
  by_cases early : hist.length < d
  · rw [if_pos early, if_neg (by omega)]
  · rw [if_neg early, if_pos (by omega)]

/-- RB.STEP on a valid channel of a regular state completes. -/
theorem exec_rbStep_of_regular (inv : s.Inv) (reg : s.Regular) {ch : BitVec 8} (valid : ch.toNat < uint s.channels)
    (x f : Word) :
    exec (.rbStep ch x f) s = .next ((stepState ch.toNat x f s).respond
      (mac s.hw.numFmt x f (s.storeRead ch.toNat (s.rcurAt ch.toNat)))) := by
  obtain ⟨hw, hr⟩ := reg.cursors_lt_alloc inv valid
  rw [exec_rbStep_of_inv inv, if_neg (by omega), if_neg (by omega)]

/-- A step makes one more output. -/
theorem DelayLine.step {c d : Nat} {hist : List Word} (h : DelayLine c d hist s) (hi : d ≤ uint s.capacity)
    (x f v : Word) :
    DelayLine c d (hist ++ [mac s.hw.numFmt x f (s.storeRead c (s.rcurAt c))]) ((stepState c x f s).respond v) := by
  set y := mac s.hw.numFmt x f (s.storeRead c (s.rcurAt c))
  have wcur' : (stepState c x f s).wcurAt c = s.adv (s.wcurAt c) :=
    (wcurSetAt_of_wcur (t := stepState c x f s) h.inv h.valid (h.inv.adv_lt _) rfl c).trans (if_pos rfl)
  have rcur' : (stepState c x f s).rcurAt c = s.adv (s.rcurAt c) :=
    (rcurSetAt_of_rcur (t := stepState c x f s) h.inv h.valid (h.inv.adv_lt _) rfl c).trans (if_pos rfl)
  have store' : StoreSetAt s (stepState c x f s) c (s.wcurAt c) y := storeSetAt_of_store h.inv (s.wcurAt_lt c) rfl
  refine ⟨(h.inv.stepState c x f).respond v, (h.regular.stepState h.inv c x f).of_eq rfl rfl rfl rfl rfl, h.valid,
    ?wcur, ?rcur, ?store⟩
  case wcur =>
    rw [State.respond_wcurAt, wcur', h.wcur, State.adv, advance, Nat.mod_add_mod, List.length_append]
    rfl
  case rcur =>
    have next : hist.length + uint s.capacity - d + 1 = hist.length + 1 + uint s.capacity - d := by omega
    rw [State.respond_rcurAt, rcur', h.rcur, State.adv, advance, Nat.mod_add_mod, next, List.length_append]
    rfl
  case store =>
    refine h.store.push fun q hq => (store' c q (hq.trans (uint_lt _))).trans ?_
    simp only [true_and, h.wcur]

/-- The responses of steps on a delay line (R120, R121): each output is the multiply-accumulate of its input and the
output `d` steps before, or ZERO. -/
theorem DelayLine.stepAll {ch : BitVec 8} {d : Nat} {hist : List Word} (h : DelayLine ch.toNat d hist s) (lo : 1 ≤ d)
    (hi : d ≤ uint s.capacity) (f : Word) (xs : List Word) :
    ∃ ys e, Machine.stepAll ch f xs s = some (ys, e) ∧ ys.length = xs.length ∧
      ∀ n, n < xs.length → ys.getD n 0 = mac s.hw.numFmt (xs.getD n 0) f
        (if hist.length + n < d then s.hw.numFmt.zero else (hist ++ ys).getD (hist.length + n - d) 0) := by
  induction xs generalizing s hist with
  | nil => exact ⟨[], s, rfl, rfl, nofun⟩
  | cons x xs ih =>
    set y := mac s.hw.numFmt x f (s.storeRead ch.toNat (s.rcurAt ch.toNat)) with hy
    obtain ⟨ys, e, run, length, outputs⟩ := ih (h.step hi x f y) hi
    refine ⟨y :: ys, e, ?_, congrArg (· + 1) length, fun n hn => ?_⟩
    · simp only [Machine.stepAll, exec_rbStep_of_regular h.inv h.regular h.valid, State.lastResponse_respond, ← hy, run,
        Bool.false_eq_true, if_false, Option.map_some]
    · cases n with
      | zero =>
        rw [List.getD_cons_zero, List.getD_cons_zero, hy, h.read lo hi, Nat.add_zero]
        congr 1
        split_ifs
        · rfl
        · rw [List.getD_append _ _ _ _ (by omega)]
      | succ n =>
        have later := outputs n (Nat.lt_of_succ_lt_succ hn)
        rw [List.append_assoc, List.singleton_append, List.length_append, List.length_singleton,
          Nat.add_right_comm hist.length 1 n, Nat.add_assoc hist.length n 1] at later
        rw [List.getD_cons_succ, List.getD_cons_succ]
        exact later

/-- The recurrence of a delay line that starts without outputs (R120, R121). -/
theorem DelayLine.recurrence {ch : BitVec 8} {d : Nat} (h : DelayLine ch.toNat d [] s) (lo : 1 ≤ d)
    (hi : d ≤ uint s.capacity) (f : Word) (xs : List Word) :
    ∃ ys e, Machine.stepAll ch f xs s = some (ys, e) ∧ ys.length = xs.length ∧
      ∀ n, n < xs.length → ys.getD n 0 = mac s.hw.numFmt (xs.getD n 0) f
        (if n < d then s.hw.numFmt.zero else ys.getD (n - d) 0) := by
  simpa only [List.length_nil, Nat.zero_add, List.nil_append] using h.stepAll lo hi f xs

/-! ### A cleared buffer -/

/-- A command gives one response. -/
theorem Answered.inj {d d' : Word} {e e' : Bool} (h : Answered s t d e) (h' : Answered s t d' e') :
    d = d' ∧ e = e' := by
  have same := List.append_cancel_left (h.symm.trans h')
  simpa using same

/-- RB.RESET leaves a regular state with a cleared buffer. -/
theorem regular_of_rbReset (inv : s.Inv) (reg : s.Regular) (run : exec .rbReset s = .next t) :
    t = s.clearBuffer.respond 0 ∧ t.Inv ∧ t.Regular ∧ BufferCleared t := by
  cases run
  have inv' : (s.clearBuffer.respond 0).Inv := inv.clearBuffer.respond 0
  exact ⟨rfl, inv', .of_cleared inv' reg.capacityIsAlloc s.clearBuffer_cleared, s.clearBuffer_cleared⟩

/-- A cleared channel whose read cursor stands `d` slots behind is a delay line without outputs. -/
theorem DelayLine.of_cleared {c d : Nat} (inv : s.Inv) (reg : s.Regular) (valid : c < uint s.channels)
    (store : ∀ p, s.storeRead c p = s.hw.numFmt.zero) (wcur : s.wcurAt c = 0)
    (rcur : s.rcurAt c = (uint s.capacity - d) % uint s.capacity) : DelayLine c d [] s where
  inv := inv
  regular := reg
  valid := valid
  wcur := wcur.trans (Nat.zero_mod _).symm
  rcur := by rw [rcur, List.length_nil, Nat.zero_add]
  store k hk _ := by rw [store, List.length_nil, if_neg (by omega)]

/-- RB.READ on a valid channel of a regular state whose words are all ZERO. -/
theorem readAll_zero {ch : BitVec 8} (n : Nat) (inv : s.Inv) (reg : s.Regular) (valid : ch.toNat < uint s.channels)
    (store : ∀ p, s.storeRead ch.toNat p = s.hw.numFmt.zero) :
    ∃ u, readAll ch n s = some (List.replicate n s.hw.numFmt.zero, u) := by
  induction n generalizing s with
  | zero => exact ⟨s, rfl⟩
  | succ n ih =>
    obtain ⟨-, hr⟩ := reg.cursors_lt_alloc inv valid
    have next_lt := inv.adv_lt (s.rcurAt ch.toNat)
    have inv' := inv.setRcur ch.toNat (next_lt.trans_le inv.capacity.2)
    have reg' := reg.setRcur ch.toNat next_lt
    obtain ⟨u, rest⟩ := ih (inv'.respond s.hw.numFmt.zero) (reg'.of_eq rfl rfl rfl rfl rfl) valid store
    have run : exec (.rbRead ch) s =
        .next ((s.setRcur ch.toNat (s.adv (s.rcurAt ch.toNat))).respond s.hw.numFmt.zero) := by
      rw [exec_rbRead_of_inv inv, if_neg (by omega), if_neg (by omega), store]
    refine ⟨u, ?_⟩
    simp only [readAll, run, State.lastResponse_respond, rest, Bool.false_eq_true, if_false, Option.map_some]
    rfl

end Sys2Proof.Machine

namespace Sys2Proof.Proofs

open Sys2Proof.Machine

/-- Settles O45: RB.SETRP on a cleared channel makes a delay line of the effective delay (`lagPosition_zero`), whose
responses are those of `DelayLine.stepAll`. -/
theorem effectiveDelayAfterSetrp : Obligations.EffectiveDelayAfterSetrp := by
  unfold Obligations.EffectiveDelayAfterSetrp
  intro s t ch v f lag xs inv reg valid hlag run
  obtain ⟨rfl, invT, regT, store, cursors⟩ := regular_of_rbReset inv reg run
  obtain ⟨wcur, -⟩ := cursors ch.toNat
  set t := s.clearBuffer.respond 0
  have pos : 0 < uint s.capacity := inv.capacity.1
  obtain ⟨lo, hi⟩ := effectiveDelay_bounds pos lag
  have slot_lt := invT.lagSlot_lt ch.toNat lag
  have slot : t.lagSlot ch.toNat lag = lagPosition (uint s.capacity) 0 lag := by
    rw [State.lagSlot, wcur]
    rfl
  have rcur : (t.setRcur ch.toNat (t.lagSlot ch.toNat lag)).rcurAt ch.toNat = lagPosition (uint s.capacity) 0 lag := by
    rw [rcurSetAt_of_rcur (t := t.setRcur ch.toNat (t.lagSlot ch.toNat lag)) invT valid slot_lt rfl, if_pos rfl, slot]
  refine ⟨_, exec_rbSetrp_of_lag valid hlag, ?_, ?_⟩
  · rw [State.lagOf_eq (s := s) (t := (t.setRcur _ _).respond 0) rfl wcur rcur]
    exact lagPosition_lagPosition pos 0 lag
  · have line : DelayLine ch.toNat (effectiveDelay (uint s.capacity) lag) []
        ((t.setRcur ch.toNat (t.lagSlot ch.toNat lag)).respond 0) :=
      .of_cleared ((invT.setRcur _ (slot_lt.trans_le invT.capacity.2)).respond 0)
        ((regT.setRcur _ slot_lt).of_eq rfl rfl rfl rfl rfl) valid (store _) wcur
        (rcur.trans (lagPosition_zero pos lag))
    exact line.recurrence lo hi f xs

/-- Settles O46: after RB.RESET both cursors are 0, so the read cursor is CAPACITY steps behind. -/
theorem combFilterRecurrence : Obligations.CombFilterRecurrence := by
  unfold Obligations.CombFilterRecurrence
  intro s t ch f xs inv reg valid run
  obtain ⟨rfl, invT, regT, store, cursors⟩ := regular_of_rbReset inv reg run
  obtain ⟨wcur, rcur⟩ := cursors ch.toNat
  have pos : 0 < uint s.capacity := inv.capacity.1
  have line : DelayLine ch.toNat (uint s.capacity) [] (s.clearBuffer.respond 0) :=
    .of_cleared invT regT valid (store _) wcur (rcur.trans (by simp))
  exact line.recurrence pos le_rfl f xs

/-- Settles O47: RB.RESET clears STORE, and RB.READ writes no word of it. -/
theorem resetBufferReadsZero : Obligations.ResetBufferReadsZero := by
  unfold Obligations.ResetBufferReadsZero
  intro s t ch inv reg valid run
  obtain ⟨rfl, invT, regT, store, -⟩ := regular_of_rbReset inv reg run
  exact readAll_zero _ invT regT valid (store _)

/-- Settles O49, from O30 and O31: the accepted delay is CAPACITY, so DE.SETDLY clamps it to CAPACITY - 1, and that is
the lag (`lagPosition_lagPosition`). -/
theorem setdlyAfterResetClamps : Obligations.SetdlyAfterResetClamps := by
  unfold Obligations.SetdlyAfterResetClamps
  intro s t ms sr inv run answer
  obtain ⟨-, t', run', post⟩ := deResetSizesToTheDelay s sr ms inv
  cases run.symm.trans run'
  have invT : t.Inv := (exec_ran run).inv inv
  have pos : 0 < uint t.capacity := invT.capacity.1
  by_cases rejected : sint sr < 0 ∨ sint ms < 0 ∨ sint sr * sint ms / 1000 < 1 ∨
      (s.hw.capMax : Int) < sint sr * sint ms / 1000
  · obtain ⟨-, -, error, -⟩ := (if_pos rejected).mp post
    cases (error.inj answer).2
  obtain ⟨-, delay, -, capacity, ⟨-, cursors⟩, frame⟩ := (if_neg rejected).mp post
  have channels : t.channels = s.channels := (congrArg State.channels frame :)
  refine ⟨BitVec.eq_of_toNat_eq (by unfold uint at delay capacity; omega), fun c => ?cleared, ?setdly⟩
  case cleared =>
    obtain ⟨wcur, rcur⟩ := cursors c
    rw [State.lagOf, wcur, rcur]
    simp [lagPosition]
  case setdly =>
    obtain ⟨-, u, runU, postU⟩ := deSetdlyRepositionsChannelsZeroAndOne t ms sr invT
    rw [if_neg (by omega)] at postU
    obtain ⟨-, bits, delayU, rcurU, frameU⟩ := postU
    rw [if_pos (by omega)] at bits
    have lag : min (sint sr * sint ms / 1000) ((uint t.capacity : Int) - 1) = (uint t.capacity - 1 : Nat) := by omega
    have capacityU : u.capacity = t.capacity := (congrArg State.capacity frameU :)
    refine ⟨u, runU, (bits 3 (by decide)).trans (Bool.or_true _), by omega, fun c hc valid => ?_⟩
    have wcur : u.wcurAt c = 0 := (congrArg (State.wcurAt · c) frameU :).trans (cursors c).1
    have rcur : u.rcurAt c = lagPosition (uint t.capacity) 0 (uint t.capacity - 1) := by
      zify
      rw [rcurU, if_pos ⟨hc, by rwa [channels]⟩, lagPosition_cast pos, lag, (cursors c).1]
    rw [State.lagOf_eq capacityU wcur rcur, lagPosition_lagPosition pos, Nat.mod_eq_of_lt (by omega)]

end Sys2Proof.Proofs
end

section
/-! PROOFS. The clocked ports (30_encoding.md R80; log 11): what an edge does in each phase of the handshake, and which
step of the untimed machine it makes. -/

namespace Sys2Proof.Machine

variable {x : PortInputs} {core core' : State} {phase phase' : Phase} {c : Command}

/-! ### What an edge does -/

/-- A command in hand after an edge: still being executed, or over with its one response on offer. -/
inductive Working (core : State) (c : Command) : Bool → Phase → Prop
  | busy : Working core c false (.busy c)
  | finished {after : State} {r : Response} (run : runCommand c core = .next after)
      (output : after.output = core.output ++ [r]) : Working core c true (.responding c after r)

theorem portWork_working (inv : core.Inv) (c : Command) (done : Bool) :
    ∃ phase, portWork done core c = .next (core, phase) ∧ Working core c done phase := by
  cases done with
  | false => exact ⟨_, rfl, .busy⟩
  | true =>
    obtain ⟨after, d, e, run, output, -⟩ := inv.runCommand_answers c
    exact ⟨_, portFinish_eq run output, .finished run output⟩

/-- A rising edge of `clk` in each phase: the untimed state and the phase it leaves. -/
inductive PortMoved (x : PortInputs) (core : State) : Phase → State → Phase → Prop
  /-- `rst_n` is 0: whatever is in hand is abandoned. -/
  | abandoned {phase : Phase} (rst : x.rstN = false) : PortMoved x core phase core .resetting
  | resetOver (rst : x.rstN = true) (done : x.workDone = true) : PortMoved x core .resetting core.hardwareReset .ready
  | resetGoesOn (rst : x.rstN = true) (done : x.workDone = false) : PortMoved x core .resetting core .resetting
  | idle (rst : x.rstN = true) (valid : x.cmdValid = false) : PortMoved x core .ready core .ready
  | accepted {phase : Phase} (rst : x.rstN = true) (valid : x.cmdValid = true)
      (work : Working core x.cmd x.workDone phase) : PortMoved x core .ready core phase
  | executing {c : Command} {phase : Phase} (rst : x.rstN = true) (work : Working core c x.workDone phase) :
      PortMoved x core (.busy c) core phase
  | responseHeld {c : Command} {after : State} {r : Response} (rst : x.rstN = true) (ready : x.rspReady = false) :
      PortMoved x core (.responding c after r) core (.responding c after r)
  | responseTaken {c : Command} {after : State} {r : Response} (rst : x.rstN = true) (ready : x.rspReady = true) :
      PortMoved x core (.responding c after r) after .ready

/-- Every edge has an outcome in a state that keeps R45, and these are all of them. -/
theorem portMove_moved (inv : core.Inv) (x : PortInputs) (phase : Phase) (waiting : Option Command) :
    ∃ core' phase', portMove x ⟨core, phase, waiting⟩ = .next (core', phase') ∧
      PortMoved x core phase core' phase' := by
  cases rst : x.rstN with
  | false => exact ⟨_, _, by simp only [portMove, rst, Bool.not_false, if_true], .abandoned rst⟩
  | true =>
    simp only [portMove, rst, Bool.not_true, Bool.false_eq_true, if_false]
    cases phase with
    | resetting =>
      cases done : x.workDone with
      | false => exact ⟨_, _, rfl, .resetGoesOn rst done⟩
      | true => exact ⟨_, _, rfl, .resetOver rst done⟩
    | ready =>
      cases valid : x.cmdValid with
      | false => exact ⟨_, _, rfl, .idle rst valid⟩
      | true =>
        obtain ⟨phase', move, work⟩ := portWork_working inv x.cmd x.workDone
        exact ⟨_, _, move, .accepted rst valid work⟩
    | busy c =>
      obtain ⟨phase', move, work⟩ := portWork_working inv c x.workDone
      exact ⟨_, _, move, .executing rst work⟩
    | responding c after r =>
      cases ready : x.rspReady with
      | false => exact ⟨_, _, rfl, .responseHeld rst ready⟩
      | true => exact ⟨_, _, rfl, .responseTaken rst ready⟩

/-! ### The signals after an edge -/

/-- While a command is in hand `cmd_ready` is 0. -/
theorem Working.inHand {done : Bool} (h : Working core c done phase) (core' : State) (waiting : Option Command) :
    inHand ⟨core', phase, waiting⟩ = some c ∧ cmdReady ⟨core', phase, waiting⟩ = false := by
  cases h <;> exact ⟨rfl, rfl⟩

theorem Working.offered (h : Working core c true phase) (core' : State) (waiting : Option Command) :
    ∃ r, rspOffered ⟨core', phase, waiting⟩ = some r := by
  cases h
  exact ⟨_, rfl⟩

/-- What the port answers to the inputs of an edge with `rst_n` 1 (R80, R283). -/
structure PortServes (x : PortInputs) (p q : PortState) : Prop where
  accepts : x.cmdValid = true → cmdReady p = true → inHand q = some x.cmd ∧ cmdReady q = false
  keepsHand : ∀ c, inHand p = some c → rspTransfers p x = false → inHand q = some c ∧ cmdReady q = false
  holds : ∀ r, rspOffered p = some r → x.rspReady = false → rspOffered q = some r
  releases : ∀ r, rspOffered p = some r → x.rspReady = true →
    inHand q = none ∧ rspOffered q = none ∧ cmdReady q = true
  finishes : x.workDone = true →
    (∀ c, inHand p = some c → rspOffered p = none → ∃ r, rspOffered q = some r) ∧
      (x.cmdValid = true → cmdReady p = true → ∃ r, rspOffered q = some r) ∧ (p.phase = .resetting → cmdReady q = true)

theorem PortMoved.serves (h : PortMoved x core phase core' phase') (rst : x.rstN = true) (w w' : Option Command) :
    PortServes x ⟨core, phase, w⟩ ⟨core', phase', w'⟩ := by
  cases h with
  | abandoned low => cases rst.symm.trans low
  | resetOver => exact ⟨nofun, nofun, nofun, nofun, fun _ => ⟨nofun, nofun, fun _ => rfl⟩⟩
  | resetGoesOn _ notDone =>
    exact ⟨nofun, nofun, nofun, nofun, fun done => absurd (done.symm.trans notDone) nofun⟩
  | idle _ invalid =>
    exact ⟨fun valid => absurd (valid.symm.trans invalid) nofun, nofun, nofun, nofun,
      fun _ => ⟨nofun, fun valid => absurd (valid.symm.trans invalid) nofun, nofun⟩⟩
  | accepted _ _ work =>
    refine ⟨fun _ _ => work.inHand _ _, nofun, nofun, nofun, fun done => ⟨nofun, fun _ _ => ?_, nofun⟩⟩
    rw [done] at work
    exact work.offered _ _
  | executing _ work =>
    refine ⟨nofun, fun _ hand _ => ?_, nofun, nofun, fun done => ⟨fun _ _ _ => ?_, nofun, nofun⟩⟩
    · cases hand
      exact work.inHand _ _
    · rw [done] at work
      exact work.offered _ _
  | responseHeld _ notReady =>
    exact ⟨nofun, fun _ hand _ => ⟨hand, rfl⟩, fun _ offered _ => offered,
      fun _ _ ready => absurd (ready.symm.trans notReady) nofun, fun _ => ⟨fun _ _ => nofun, nofun, nofun⟩⟩
  | responseTaken _ ready =>
    refine ⟨nofun, fun _ _ stays => ?_, fun _ _ notReady => absurd (ready.symm.trans notReady) nofun,
      fun _ _ _ => ⟨rfl, rfl, rfl⟩, fun _ => ⟨fun _ _ => nofun, nofun, nofun⟩⟩
    rw [rspTransfers, rst, ready] at stays
    cases stays

/-- The command that waits after an edge, as R80 says it. -/
theorem waitingAfter_eq (p : PortState) (x : PortInputs) :
    waitingAfter p x =
      if x.cmdValid = true ∧ ¬ (x.rstN = true ∧ cmdReady p = true) then some x.cmd else none := by
  unfold waitingAfter cmdTransfers
  congr 1
  cases x.cmdValid <;> cases x.rstN <;> simp

/-! ### The step of the untimed machine -/

/-- The step that takes one more event from the host is that event's. -/
theorem step_reset_event (s : State) :
    step { s with input := .reset none :: s.input } = .next s.hardwareReset := step_of_reset rfl

theorem step_command_event (s : State) (c : Command) :
    step { s with input := .command c :: s.input } = runCommand c s := step_of_command rfl

theorem Working.inv {done : Bool} (h : Working core c done phase) (waiting : Option Command) :
    PortState.Inv ⟨core, phase, waiting⟩ := by
  cases h with
  | busy => trivial
  | finished run output => exact ⟨run, output⟩

/-- What an edge makes of the untimed state (R68, R69, R270). -/
structure PortRefines (x : PortInputs) (p q : PortState) : Prop where
  inv : q.Inv
  coreInv : q.core.Inv
  quiet : rspTransfers p x = false → q.core = p.core ∨
    (p.phase = .resetting ∧ step { p.core with input := .reset none :: p.core.input } = .next q.core)
  reset : p.phase = .resetting → cmdReady q = true →
    step { p.core with input := .reset none :: p.core.input } = .next q.core
  command : rspTransfers p x = true →
    ∃ c r, inHand p = some c ∧ rspOffered p = some r ∧
      step { p.core with input := .command c :: p.core.input } = .next q.core ∧
      q.core.output = p.core.output ++ [r]

/-- No response transfers while none is offered. -/
theorem not_rspTransfers {p : PortState} (h : rspOffered p = none) : ¬ rspTransfers p x = true := by
  rw [rspTransfers, h, Option.isSome_none, Bool.and_false]
  nofun

theorem PortMoved.refines {w w' : Option Command} (h : PortMoved x core phase core' phase') (inv : core.Inv)
    (pinv : PortState.Inv ⟨core, phase, w⟩) : PortRefines x ⟨core, phase, w⟩ ⟨core', phase', w'⟩ := by
  cases h with
  | abandoned low =>
    refine ⟨trivial, inv, fun _ => .inl rfl, nofun, fun taken => ?_⟩
    rw [rspTransfers, low] at taken
    cases taken
  | resetOver =>
    exact ⟨trivial, State.afterReset_inv inv.legal _ _, fun _ => .inr ⟨rfl, step_reset_event core⟩,
      fun _ _ => step_reset_event core, fun taken => absurd taken (not_rspTransfers rfl)⟩
  | resetGoesOn =>
    exact ⟨trivial, inv, fun _ => .inl rfl, nofun, fun taken => absurd taken (not_rspTransfers rfl)⟩
  | idle =>
    exact ⟨trivial, inv, fun _ => .inl rfl, nofun, fun taken => absurd taken (not_rspTransfers rfl)⟩
  | accepted _ _ work =>
    exact ⟨work.inv _, inv, fun _ => .inl rfl, nofun, fun taken => absurd taken (not_rspTransfers rfl)⟩
  | executing _ work =>
    exact ⟨work.inv _, inv, fun _ => .inl rfl, nofun, fun taken => absurd taken (not_rspTransfers rfl)⟩
  | responseHeld _ notReady =>
    refine ⟨pinv, inv, fun _ => .inl rfl, nofun, fun taken => ?_⟩
    rw [rspTransfers, notReady, Bool.and_false] at taken
    cases taken
  | responseTaken rst ready =>
    obtain ⟨run, output⟩ := pinv
    refine ⟨trivial, runCommand_inv inv run, fun stays => ?_, nofun, fun _ => ?_⟩
    · rw [rspTransfers, rst, ready] at stays
      cases stays
    · exact ⟨_, _, rfl, rfl, (step_command_event core _).trans run, output⟩

end Sys2Proof.Machine

namespace Sys2Proof.Proofs

open Sys2Proof.Machine

/-- Settles O58: the edges are those of `PortMoved`, and each serves the port's inputs (`PortMoved.serves`). -/
theorem portHandshake : Obligations.PortHandshake := by
  unfold Obligations.PortHandshake
  intro x p inv holds
  refine ⟨fun h => portEdge_of_not_holds (Bool.eq_false_iff.2 (mt (hostHolds_iff p x).1 h)), fun h => ?_⟩
  obtain ⟨core, phase, waiting⟩ := p
  obtain ⟨core', phase', move, moved⟩ := portMove_moved inv x phase waiting
  refine ⟨⟨core', phase', _⟩, portEdge_next.2 ⟨(hostHolds_iff _ x).2 h, rfl, move⟩, waitingAfter_eq _ x,
    fun low => ?reset, fun high => ?served⟩
  case reset =>
    cases moved with
    | abandoned => exact ⟨rfl, rfl, rfl⟩
    | _ rst => cases low.symm.trans rst
  case served =>
    obtain ⟨accepts, keepsHand, holds, releases, finishes⟩ :=
      moved.serves high waiting (waitingAfter ⟨core, phase, waiting⟩ x)
    exact ⟨accepts, keepsHand, holds, releases, finishes⟩

/-- Settles O59: each edge of `PortMoved` leaves the untimed state or makes the step of one event
(`PortMoved.refines`). -/
theorem portEdgeRefinesStep : Obligations.PortEdgeRefinesStep := by
  unfold Obligations.PortEdgeRefinesStep
  intro x p q inv pinv edge
  obtain ⟨core, phase, waiting⟩ := p
  obtain ⟨-, -, move⟩ := portEdge_next.1 edge
  obtain ⟨core', phase', move', moved⟩ := portMove_moved inv x phase waiting
  cases move.symm.trans move'
  obtain ⟨inv', coreInv, quiet, reset, command⟩ := moved.refines (w' := q.waiting) inv pinv
  exact ⟨inv', coreInv, quiet, reset, command⟩

end Sys2Proof.Proofs
end

section
/-! PROOFS. The binary32 operations by value (00_scope.md R11, R12, R25): one rounding of an exact value is
roundTiesToEven, a value that is a word's rounds to that word, and the zeros, infinities and NaNs. -/

namespace Sys2Proof.Machine

/-! ### Words -/

theorem finite_low_lt {w : Word} (h : f32Finite w = true) : w.toNat % 2 ^ 31 < f32InfMag := (f32Finite_iff w).1 h

theorem lt_two_pow_of_le_inf {b : Nat} (h : b ≤ f32InfMag) : b < 2 ^ 31 := h.trans_lt (by decide)

/-- The units of a word from its sign and magnitude. -/
theorem f32Units_eq (w : Word) :
    f32Units w = if f32Sign w = true then -(magOf (w.toNat % 2 ^ 31) : Int) else magOf (w.toNat % 2 ^ 31) := by
  rw [f32Units, f32Mag_eq]

theorem f32Finite_pack {neg : Bool} {b : Nat} (h : b < f32InfMag) : f32Finite (f32Pack neg b) = true := by
  rwa [f32Finite_iff, f32Pack_low (lt_two_pow_of_le_inf h.le)]

/-- Bits up to the infinity's are no NaN. -/
theorem not_nan_pack {neg : Bool} {b : Nat} (h : b ≤ f32InfMag) : f32IsNaN (f32Pack neg b) = false := by
  have inf : f32InfMag = 255 * 2 ^ 23 := by decide
  rw [f32IsNaN, f32Exp_eq, f32Frac_eq, f32Pack_low (lt_two_pow_of_le_inf h), Bool.and_eq_false_iff]
  by_cases top : b / 2 ^ 23 = 255
  · right
    simp only [bne_eq_false_iff_eq]
    omega
  · left
    simpa using top

theorem f32IsNaN_neg (w : Word) : f32IsNaN (f32Neg w) = f32IsNaN w := by
  rw [f32IsNaN, f32IsNaN, f32Exp_eq, f32Exp_eq, f32Frac_eq, f32Frac_eq, f32Neg_low]

/-- The word `-0` is the zero with sign bit 1. -/
theorem eq_negZero_iff {w : Word} : w = 0x80000000 ↔ f32Units w = 0 ∧ f32Sign w = true := by
  constructor
  · rintro rfl
    decide
  · rintro ⟨zero, sign⟩
    refine (eq_zero_or_of_f32Units_eq_zero zero).resolve_left ?_
    rintro rfl
    cases sign

theorem f32Neg_eq_negZero_iff {w : Word} : f32Neg w = 0x80000000 ↔ w = 0 := by
  constructor
  · intro h
    have twice : f32Neg (f32Neg w) = w := by
      rw [f32Neg, f32Neg, BitVec.xor_assoc, BitVec.xor_self, BitVec.xor_zero]
    rw [← twice, h]
    decide
  · rintro rfl
    decide

/-- The infinities as signs and bits 30:0. -/
theorem infinity_eq (s : Bool) : infinity s = f32Pack s f32InfMag := by cases s <;> decide

theorem f32Sign_infinity (s : Bool) : f32Sign (infinity s) = s := by cases s <;> decide

theorem f32IsInf_infinity (s : Bool) : f32IsInf (infinity s) = true := by cases s <;> decide

theorem f32IsNaN_infinity (s : Bool) : f32IsNaN (infinity s) = false := by cases s <;> decide

theorem f32Neg_infinity (s : Bool) : f32Neg (infinity s) = infinity (!s) := by cases s <;> decide

/-! ### One rounding -/

theorem f32RoundMag_le (num den : Nat) : f32RoundMag num den ≤ f32InfMag := min_le_right _ _

theorem f32Sign_round (neg : Bool) (num den : Nat) : f32Sign (f32Round neg num den) = neg :=
  f32Sign_pack (lt_two_pow_of_le_inf (f32RoundMag_le num den))

/-- The magnitude of a finite word rounds to the word's bits. -/
theorem f32RoundMag_exact {b den : Nat} (hd : 0 < den) (hb : b < f32InfMag) : f32RoundMag (den * magOf b) den = b := by
  have largest : magOf (f32InfMag - 1) < (2 ^ 25 - 1) * 2 ^ 252 := by decide
  have finite : magOf b < (2 ^ 25 - 1) * 2 ^ 252 :=
    (magOf_strictMono.monotone (Nat.le_sub_one_of_lt hb)).trans_lt largest
  have below : den * magOf b < (2 ^ 25 - 1) * 2 ^ 252 * den := by
    rw [Nat.mul_comm den]
    exact Nat.mul_lt_mul_of_pos_right finite hd
  obtain ⟨-, nearest⟩ := (f32RoundMag_spec hd).2 below
  obtain ⟨close, -⟩ := nearest b
  rw [Nat.cast_mul, sub_self, abs_zero, abs_nonpos_iff, sub_eq_zero] at close
  have same : magOf b = magOf (f32RoundMag (den * magOf b) den) :=
    Nat.eq_of_mul_eq_mul_left hd (by exact_mod_cast close)
  exact (magOf_strictMono.injective same).symm

theorem f32RoundMag_zero {den : Nat} (hd : 0 < den) : f32RoundMag 0 den = 0 := by
  have := f32RoundMag_exact (b := 0) hd (by decide)
  rwa [show magOf 0 = 0 by decide, Nat.mul_zero] at this

/-- The magnitude of `w`, counted in the direction of the sign `neg`. -/
def magToward (neg : Bool) (w : Word) : Int :=
  if f32Sign w = neg then magOf (w.toNat % 2 ^ 31) else -magOf (w.toNat % 2 ^ 31)

/-- The distance of a word from an exact value, in units of the value's denominator. -/
theorem abs_sub_f32Value {neg : Bool} {num den : Nat} {v : ℚ} (hd : 0 < den)
    (hv : v = (if neg then -1 else 1) * ((num : ℚ) / (den * 2 ^ 149))) (w : Word) :
    |v - f32Value w| = (|(num : Int) - den * magToward neg w| : Int) / ((den : ℚ) * 2 ^ 149) := by
  have hden : (den : ℚ) ≠ 0 := by exact_mod_cast hd.ne'
  have units : (f32Units w : ℚ) = (if neg then -1 else 1) * magToward neg w := by
    rw [f32Units_eq, magToward]
    cases neg <;> cases f32Sign w <;> simp
  have split : v - f32Value w =
      (if neg then -1 else 1) * (((num : Int) - den * magToward neg w : Int) / ((den : ℚ) * 2 ^ 149)) := by
    rw [hv, f32Value_eq, units]
    push_cast
    field_simp
  have sign : |(if neg then (-1 : ℚ) else 1)| = 1 := by cases neg <;> simp
  rw [split, abs_mul, sign, one_mul, abs_div, abs_of_pos (show (0 : ℚ) < den * 2 ^ 149 by positivity), Int.cast_abs]

theorem magToward_pack {neg : Bool} {b : Nat} (h : b < 2 ^ 31) : magToward neg (f32Pack neg b) = magOf b := by
  rw [magToward, f32Sign_pack h, if_pos rfl, f32Pack_low h]

/-- No finite word is nearer to the magnitude `num / den` than the bits `f32RoundMag` gives, of either sign, and of two
nearest ones those bits are even (R11): a word of the other sign is no nearer than zero. -/
theorem f32RoundMag_nearest {neg : Bool} {num den : Nat} (hd : 0 < den) (h : num < (2 ^ 25 - 1) * 2 ^ 252 * den)
    (w : Word) :
    |(num : Int) - den * magOf (f32RoundMag num den)| ≤ |(num : Int) - den * magToward neg w| ∧
      (|(num : Int) - den * magOf (f32RoundMag num den)| = |(num : Int) - den * magToward neg w| →
        w ≠ f32Pack neg (f32RoundMag num den) → f32RoundMag num den % 2 = 0) := by
  obtain ⟨-, nearest⟩ := (f32RoundMag_spec hd).2 h
  by_cases same : f32Sign w = neg
  · obtain ⟨close, tie⟩ := nearest (w.toNat % 2 ^ 31)
    rw [magToward, if_pos same]
    refine ⟨close, fun equal other => tie equal fun bits => other ?_⟩
    rw [← bits, ← same, f32Pack_self]
  · obtain ⟨close, tie⟩ := nearest 0
    rw [show magOf 0 = 0 by decide, Nat.cast_zero, mul_zero, sub_zero,
      abs_of_nonneg (Int.natCast_nonneg num)] at close tie
    have far : |(num : Int) - den * magToward neg w| = num + (den * magOf (w.toNat % 2 ^ 31) : Nat) := by
      rw [magToward, if_neg same, mul_neg, sub_neg_eq_add, abs_of_nonneg (by positivity)]
      push_cast
      rfl
    rw [far]
    refine ⟨by omega, fun equal _ => ?_⟩
    by_cases zero : f32RoundMag num den = 0
    · rw [zero]
    · exact tie (by omega) (Ne.symm zero)

/-- One rounding of an exact value is roundTiesToEven (R11): of the words of the value's sign by `f32RoundMag_spec`, and
no word of the other sign is nearer than zero. -/
theorem roundsTo_f32Round {neg : Bool} {num den : Nat} {v : ℚ} (hd : 0 < den)
    (hv : v = (if neg then -1 else 1) * ((num : ℚ) / (den * 2 ^ 149))) : RoundsTo v (f32Round neg num den) := by
  obtain ⟨overflow, inRange⟩ := f32RoundMag_spec (num := num) hd
  have hden : (0 : ℚ) < den * 2 ^ 149 := by positivity
  have abs_v : |v| = num / (den * 2 ^ 149) := by
    rw [hv, abs_mul, abs_of_nonneg (show (0 : ℚ) ≤ num / (den * 2 ^ 149) by positivity)]
    cases neg <;> simp
  have threshold : (2 ^ 25 - 1 : ℚ) * 2 ^ 103 ≤ |v| ↔ (2 ^ 25 - 1) * 2 ^ 252 * den ≤ num := by
    rw [abs_v, le_div_iff₀ hden]
    have scale : (2 ^ 25 - 1 : ℚ) * 2 ^ 103 * (den * 2 ^ 149) = ((2 ^ 25 - 1) * 2 ^ 252 * den : Nat) := by
      push_cast
      norm_num
      ring
    rw [scale, Nat.cast_le]
  unfold RoundsTo
  by_cases big : (2 ^ 25 - 1 : ℚ) * 2 ^ 103 ≤ |v|
  · have inf := threshold.1 big
    have num_pos : 0 < num := Nat.lt_of_lt_of_le (by positivity) inf
    have pos : (0 : ℚ) < num / (den * 2 ^ 149) := by positivity
    have sign : v < 0 ↔ neg = true := by
      rw [hv]
      cases neg
      · simpa using pos.le
      · simpa using pos
    rw [if_pos big, f32Round, overflow inf, ← infinity_eq, infinity]
    simp only [sign]
  · have below := not_le.1 (mt threshold.2 big)
    obtain ⟨finite, -⟩ := inRange below
    have bits := lt_two_pow_of_le_inf finite.le
    have parity : f32Frac (f32Round neg num den) % 2 = f32RoundMag num den % 2 := by
      rw [f32Frac_eq, f32Round, f32Pack_low bits]
      omega
    rw [if_neg big, parity]
    refine ⟨f32Finite_pack finite, fun w _ => ?_⟩
    obtain ⟨close, tie⟩ := f32RoundMag_nearest (neg := neg) hd below w
    rw [abs_sub_f32Value hd hv, abs_sub_f32Value hd hv, f32Round, magToward_pack bits,
      div_le_div_iff_of_pos_right hden, div_left_inj' hden.ne', Int.cast_le, Int.cast_inj]
    exact ⟨close, fun equal other => tie equal fun same => other (congrArg f32Value same)⟩

/-! ### Sums and products of finite words -/

/-- A finite sum is the rounded exact sum; a zero sum carries a sign of its own (R11). -/
theorem fadd_eq_round {a b : Word} (ha : f32Finite a = true) (hb : f32Finite b = true) :
    ∃ neg, fadd a b = f32Round neg (f32Units a + f32Units b).natAbs 1 ∧
      (f32Units a + f32Units b ≠ 0 → neg = decide (f32Units a + f32Units b < 0)) := by
  rw [fadd_finite ha hb]
  by_cases zero : f32Units a + f32Units b = 0
  · rw [if_pos zero, zero]
    exact ⟨_, by rw [f32Round, Int.natAbs_zero, f32RoundMag_zero Nat.one_pos], fun h => absurd rfl h⟩
  · rw [if_neg zero]
    exact ⟨_, rfl, fun _ => rfl⟩

theorem roundsTo_fadd {a b : Word} (ha : f32Finite a = true) (hb : f32Finite b = true) :
    RoundsTo (f32Value a + f32Value b) (fadd a b) := by
  obtain ⟨neg, sum, sign⟩ := fadd_eq_round ha hb
  rw [sum]
  refine roundsTo_f32Round Nat.one_pos ?_
  rw [f32Value_eq, f32Value_eq, ← add_div, ← Int.cast_add, Nat.cast_one, one_mul, ← mul_div_assoc]
  congr 1
  generalize f32Units a + f32Units b = z at sign
  rcases lt_trichotomy z 0 with h | rfl | h
  · rw [sign h.ne, decide_eq_true h, if_pos rfl, Nat.cast_natAbs, abs_of_neg h]
    push_cast
    ring
  · simp
  · rw [sign h.ne', decide_eq_false h.not_gt, if_neg nofun, Nat.cast_natAbs, abs_of_pos h, one_mul]

theorem roundsTo_fmul {a b : Word} (ha : f32Finite a = true) (hb : f32Finite b = true) :
    RoundsTo (f32Value a * f32Value b) (fmul a b) := by
  rw [fmul_finite ha hb]
  refine roundsTo_f32Round (Nat.two_pow_pos 149) ?_
  rw [f32Value_eq, f32Value_eq, f32Units, f32Units]
  push_cast
  rw [div_mul_div_comm, ← mul_div_assoc]
  congr 1
  cases f32Sign a <;> cases f32Sign b <;> simp

theorem f32Sign_fmul {a b : Word} (ha : f32Finite a = true) (hb : f32Finite b = true) :
    f32Sign (fmul a b) = (f32Sign a ^^ f32Sign b) := by
  rw [fmul_finite ha hb, f32Sign_round]

/-- The sum of two finite words does not depend on their order. -/
theorem fadd_comm_of_finite {a b : Word} (ha : f32Finite a = true) (hb : f32Finite b = true) : fadd a b = fadd b a := by
  rw [fadd_finite ha hb, fadd_finite hb ha, add_comm, Bool.and_comm]

/-- Adding a zero leaves a finite word, but for `-0` plus `+0` (R11, R25). -/
theorem fadd_zero {x : Word} (hx : f32Finite x = true) (s : Bool) :
    fadd x (f32Pack s 0) = if x = 0x80000000 ∧ s = false then 0 else x := by
  have zero : f32Units (f32Pack s 0) = 0 := by cases s <;> decide
  have sign : f32Sign (f32Pack s 0) = s := f32Sign_pack (by decide)
  rw [fadd_finite hx (f32Finite_pack (by decide)), zero, sign, add_zero]
  by_cases units : f32Units x = 0
  · rw [if_pos units]
    rcases eq_zero_or_of_f32Units_eq_zero units with rfl | rfl <;> cases s <;> decide
  · have notZero : x ≠ 0x80000000 := fun h => units (eq_negZero_iff.1 h).1
    rw [if_neg units, if_neg (fun h => notZero h.1)]
    have mag : (f32Units x).natAbs = 1 * magOf (x.toNat % 2 ^ 31) := by
      rw [f32Units_eq]
      split_ifs <;> omega
    have neg : decide (f32Units x < 0) = f32Sign x := by
      rw [f32Units_eq] at units ⊢
      cases f32Sign x <;> simp at units ⊢
      omega
    rw [neg, mag, f32Round, f32RoundMag_exact Nat.one_pos (finite_low_lt hx), f32Pack_self]

/-- A product with `+0` is a zero of the other factor's sign. -/
theorem fmul_zero_left {d : Word} (hd : f32Finite d = true) : fmul 0 d = f32Pack (f32Sign d) 0 := by
  rw [fmul_finite (by decide) hd, show f32Sign 0 = false by decide, show f32Mag 0 = 0 by decide, Nat.zero_mul, f32Round,
    f32RoundMag_zero (Nat.two_pow_pos 149), Bool.false_bne]

/-- A product with 1 is the other factor. -/
theorem fmul_one_left {w : Word} (hw : f32Finite w = true) : fmul NumFmt.f32.one w = w := by
  have one : f32Mag NumFmt.f32.one = 2 ^ 149 := by decide
  rw [fmul_finite (by decide) hw, show f32Sign NumFmt.f32.one = false by decide, one, f32Round, f32Mag_eq,
    f32RoundMag_exact (Nat.two_pow_pos 149) (finite_low_lt hw), Bool.false_bne, f32Pack_self]

/-! ### Operands that are not finite -/

theorem fadd_nan {a b : Word} (h : f32IsNaN a = true ∨ f32IsNaN b = true) : fadd a b = f32Nan := by
  unfold fadd
  rw [if_pos (by simpa using h)]

theorem fmul_nan {a b : Word} (h : f32IsNaN a = true ∨ f32IsNaN b = true) : fmul a b = f32Nan := by
  unfold fmul
  exact if_pos (by simpa using h)

/-- A sum is the canonical NaN or no NaN (R12). -/
theorem fadd_nan_canonical (a b : Word) : fadd a b = f32Nan ∨ f32IsNaN (fadd a b) = false := by
  by_cases nan : f32IsNaN a = true ∨ f32IsNaN b = true
  · exact .inl (fadd_nan nan)
  · obtain ⟨na, nb⟩ : f32IsNaN a = false ∧ f32IsNaN b = false := by simpa using nan
    unfold fadd
    simp only [na, nb, Bool.or_self, Bool.false_eq_true, if_false]
    split_ifs
    · exact .inl rfl
    · exact .inr na
    · exact .inr nb
    · exact .inr (not_nan_pack (by decide))
    · exact .inr (not_nan_pack (f32RoundMag_le _ _))

/-- A product is the canonical NaN or no NaN (R12). -/
theorem fmul_nan_canonical (a b : Word) : fmul a b = f32Nan ∨ f32IsNaN (fmul a b) = false := by
  unfold fmul
  dsimp only
  split_ifs
  · exact .inl rfl
  · exact .inl rfl
  · exact .inr (not_nan_pack le_rfl)
  · exact .inr (not_nan_pack (f32RoundMag_le _ _))

/-- An infinity plus a finite word is that infinity. -/
theorem fadd_infinity_left (s : Bool) {a : Word} (ha : f32Finite a = true) : fadd (infinity s) a = infinity s := by
  simp [fadd, f32IsNaN_infinity, f32IsInf_infinity, not_nan_of_finite ha, not_inf_of_finite ha]

theorem fadd_infinity_right (s : Bool) {a : Word} (ha : f32Finite a = true) : fadd a (infinity s) = infinity s := by
  simp [fadd, f32IsNaN_infinity, f32IsInf_infinity, not_nan_of_finite ha, not_inf_of_finite ha]

theorem f32Mag_eq_zero_iff {a : Word} : f32Mag a = 0 ↔ f32Value a = 0 := by
  rw [f32Value_eq_zero, f32Units]
  split_ifs <;> omega

/-- Zero times an infinity is the canonical NaN, any other finite word times it the infinity of the product's sign. -/
theorem fmul_infinity_right (s : Bool) {a : Word} (ha : f32Finite a = true) :
    fmul a (infinity s) = if f32Value a = 0 then f32Nan else infinity (f32Sign a ^^ s) := by
  simp [fmul, f32IsNaN_infinity, f32IsInf_infinity, not_nan_of_finite ha, not_inf_of_finite ha, f32Mag_eq_zero_iff,
    f32Sign_infinity, infinity_eq (f32Sign a ^^ s)]

theorem fmul_infinity_left (s : Bool) {a : Word} (ha : f32Finite a = true) :
    fmul (infinity s) a = if f32Value a = 0 then f32Nan else infinity (s ^^ f32Sign a) := by
  simp [fmul, f32IsNaN_infinity, f32IsInf_infinity, not_nan_of_finite ha, not_inf_of_finite ha, f32Mag_eq_zero_iff,
    f32Sign_infinity, infinity_eq (s ^^ f32Sign a)]

/-- An infinity is one of the two. -/
theorem eq_infinity_of_isInf {x : Word} (h : f32IsInf x = true) : x = infinity (f32Sign x) := by
  have low : x.toNat % 2 ^ 31 = f32InfMag := by
    obtain ⟨exp, frac⟩ : f32Exp x = 255 ∧ f32Frac x = 0 := by simpa [f32IsInf] using h
    rw [f32Exp_eq] at exp
    rw [f32Frac_eq] at frac
    have inf : f32InfMag = 255 * 2 ^ 23 := by decide
    omega
  rw [infinity_eq, ← low, f32Pack_self]

end Sys2Proof.Machine
end

section
/-! PROOFS. The laws of the numbers (00_scope.md R11 to R14, R25): rounding, the signs of zeros, operands that are not
finite, and a gain or mix at its boundaries. -/

namespace Sys2Proof.Machine

/-! ### Boundary gains and mixes in F32 -/

/-- The exact zero sums (R11). -/
theorem fadd_of_sum_zero {a b : Word} (ha : f32Finite a = true) (hb : f32Finite b = true)
    (zero : f32Value a + f32Value b = 0) :
    fadd a b = if a = 0x80000000 ∧ b = 0x80000000 then 0x80000000 else 0 := by
  have units : f32Units a + f32Units b = 0 := by
    rw [f32Value_eq, f32Value_eq, ← add_div, div_eq_zero_iff, or_iff_left (by positivity)] at zero
    exact_mod_cast zero
  rw [fadd_finite ha hb, if_pos units]
  by_cases signs : f32Sign a = true ∧ f32Sign b = true
  · obtain ⟨sa, sb⟩ := signs
    have both : f32Units a = 0 ∧ f32Units b = 0 := by
      rw [f32Units_eq, f32Units_eq, if_pos sa, if_pos sb] at *
      omega
    rw [if_pos ⟨eq_negZero_iff.2 ⟨both.1, sa⟩, eq_negZero_iff.2 ⟨both.2, sb⟩⟩, sa, sb]
    rfl
  · rw [if_neg fun neg => signs ⟨(eq_negZero_iff.1 neg.1).2, (eq_negZero_iff.1 neg.2).2⟩]
    have pos : (f32Sign a && f32Sign b) = false := by simpa using signs
    rw [pos]
    rfl

/-- The exact zero differences (R11). -/
theorem fsub_of_difference_zero {a b : Word} (ha : f32Finite a = true) (hb : f32Finite b = true)
    (zero : f32Value a - f32Value b = 0) :
    fsub a b = if a = 0x80000000 ∧ b = 0 then 0x80000000 else 0 := by
  have sum := fadd_of_sum_zero ha ((f32Finite_neg b).trans hb) (by rwa [f32Value_neg, ← sub_eq_add_neg])
  simp only [f32Neg_eq_negZero_iff] at sum
  exact sum

theorem fsub_self {x : Word} (hx : f32Finite x = true) : fsub x x = 0 := by
  rw [fsub_of_difference_zero hx hx (sub_self _), if_neg]
  rintro ⟨rfl, h⟩
  cases h

/-- A product of zero with a word that is not finite is the canonical NaN (R12). -/
theorem fmul_zero_notFinite {d : Word} (hd : f32Finite d = false) : fmul 0 d = f32Nan := by
  rcases nan_or_inf hd with nan | inf
  · exact fmul_nan (.inr nan)
  · rw [eq_infinity_of_isInf inf, fmul_infinity_right _ (by decide), if_pos (f32Value_eq_zero.2 (by decide))]

/-- A zero product is `+0` by the sign of the other factor. -/
theorem fmul_zero_eq_zero_iff {d : Word} (hd : f32Finite d = true) : fmul 0 d = 0 ↔ f32Sign d = false := by
  rw [fmul_zero_left hd]
  cases f32Sign d <;> decide

/-- A zero gain leaves the input, but for its NaNs and zeros (R25). -/
theorem macF32_zero_gain (x d : Word) :
    macF32 x 0 d =
      if f32IsNaN x = true ∨ f32Finite d = false then f32Nan
      else if x = 0x80000000 ∧ fmul 0 d = 0 then 0 else x := by
  unfold macF32
  by_cases nan : f32IsNaN x = true
  · rw [if_pos (.inl nan), fadd_nan (.inl nan)]
  cases hd : f32Finite d with
  | false => rw [if_pos (.inr rfl), fmul_zero_notFinite hd, fadd_nan (.inr (by decide))]
  | true =>
    rw [if_neg (not_or.2 ⟨nan, nofun⟩)]
    simp only [fmul_zero_eq_zero_iff hd]
    rw [fmul_zero_left hd]
    cases hx : f32Finite x with
    | true => exact fadd_zero hx (f32Sign d)
    | false =>
      have inf := eq_infinity_of_isInf ((nan_or_inf hx).resolve_left nan)
      rw [if_neg, inf, fadd_infinity_left _ (f32Finite_pack (by decide))]
      rintro ⟨rfl, -⟩
      cases hx

/-- A mix of 1 is the wet value (R25). -/
theorem blendF32_one {w x : Word} (hw : f32Finite w = true) (hx : f32Finite x = true) :
    blendF32 NumFmt.f32.one w x = if w = 0x80000000 ∧ f32Sign x = false then 0 else w := by
  have difference : fsub NumFmt.f32.one NumFmt.f32.one = 0 := fsub_self (by decide)
  rw [blendF32, difference, fmul_one_left hw, fmul_zero_left hx, fadd_zero hw]

/-- A mix of 0 is the dry value (R25). -/
theorem blendF32_zero {w x : Word} (hw : f32Finite w = true) (hx : f32Finite x = true) :
    blendF32 0 w x = if x = 0x80000000 ∧ f32Sign w = false then 0 else x := by
  have difference : fsub NumFmt.f32.one 0 = NumFmt.f32.one := fadd_zero (by decide) true
  rw [blendF32, difference, fmul_one_left hx, fmul_zero_left hw,
    fadd_comm_of_finite (f32Finite_pack (by decide)) hx, fadd_zero hx]

theorem blendF32_one_notFinite (w : Word) {x : Word} (hx : f32Finite x = false) :
    blendF32 NumFmt.f32.one w x = f32Nan := by
  have difference : fsub NumFmt.f32.one NumFmt.f32.one = 0 := fsub_self (by decide)
  rw [blendF32, difference, fmul_zero_notFinite hx, fadd_nan (.inr (by decide))]

theorem blendF32_zero_notFinite {w : Word} (hw : f32Finite w = false) (x : Word) : blendF32 0 w x = f32Nan := by
  rw [blendF32, fmul_zero_notFinite hw, fadd_nan (.inl (by decide))]

/-! ### Boundary gains and mixes in Q8_24 -/

/-- A word's own value, counted in units of 2^-24, rounds and saturates to the word. -/
theorem wordOfInt_round (x : Word) : wordOfInt (sat32 (rnd24 (sint x * 2 ^ 24))) = x := by
  have whole : rnd24 (sint x * 2 ^ 24) = sint x := by
    unfold rnd24
    omega
  have lo := BitVec.le_toInt x
  have hi := BitVec.toInt_lt (x := x)
  have inside : sat32 (sint x) = sint x := by
    unfold sat32 sint
    omega
  rw [whole, inside]
  exact BitVec.ofInt_toInt

theorem macQ_zero_gain (x d : Word) : macQ x 0 d = x := by
  rw [macQ, show sint 0 = 0 by decide, zero_mul, add_zero, wordOfInt_round]

theorem blendQ_one (w x : Word) : blendQ NumFmt.q824.one w x = w := by
  rw [blendQ, show sint NumFmt.q824.one = 2 ^ 24 by decide, sub_self, zero_mul, add_zero, mul_comm, wordOfInt_round]

theorem blendQ_zero (w x : Word) : blendQ 0 w x = x := by
  rw [blendQ, show sint 0 = 0 by decide, zero_mul, zero_add, sub_zero, mul_comm, wordOfInt_round]

end Sys2Proof.Machine

namespace Sys2Proof.Proofs

open Sys2Proof.Machine

/-- Settles O51: each operation on finite words is one rounding of the exact result (`roundsTo_f32Round`); MAC and BLEND
are their definitions. -/
theorem binaryOperationsRoundToNearestEven : Obligations.BinaryOperationsRoundToNearestEven := by
  unfold Obligations.BinaryOperationsRoundToNearestEven
  refine ⟨fun a b ha hb => ⟨roundsTo_fadd ha hb, ?sub, roundsTo_fmul ha hb, f32Sign_fmul ha hb⟩, fun _ _ _ => rfl,
    fun _ _ _ => rfl⟩
  rw [sub_eq_add_neg, ← f32Value_neg]
  exact roundsTo_fadd ha ((f32Finite_neg b).trans hb)

/-- Settles O52: two terms of opposite units are both `-0` only if both signs are set (`fadd_of_sum_zero`), and a
difference is the sum with the negated word. -/
theorem exactZeroSumsAreSigned : Obligations.ExactZeroSumsAreSigned := by
  unfold Obligations.ExactZeroSumsAreSigned
  exact ⟨fun _ _ => fadd_of_sum_zero, fun _ _ => fsub_of_difference_zero, fun _ => fsub_self⟩

/-- Settles O53: no operation makes another NaN than the canonical one (`fadd_nan_canonical`, `fmul_nan_canonical`), and
the cases with an infinity are lemmas of their own. -/
theorem producedNaNsAreCanonical : Obligations.ProducedNaNsAreCanonical := by
  unfold Obligations.ProducedNaNsAreCanonical
  refine ⟨fun a b => ⟨fun nan => ?_, fun nan => ?_, fun nan => ?_⟩, fun a b nan => ?operand, ?infinities,
    fun s a ha => ?mixed⟩
  · exact (fadd_nan_canonical a b).resolve_right (by simp [nan])
  · exact (fadd_nan_canonical a (f32Neg b)).resolve_right fun h => by cases nan.symm.trans h
  · exact (fmul_nan_canonical a b).resolve_right (by simp [nan])
  case operand =>
    exact ⟨fadd_nan nan, fadd_nan (by rwa [f32IsNaN_neg]), fmul_nan nan⟩
  case infinities =>
    decide
  case mixed =>
    have difference : fsub a (infinity s) = infinity (!s) := by
      rw [fsub, f32Neg_infinity, fadd_infinity_right _ ha]
    exact ⟨fadd_infinity_right s ha, fadd_infinity_left s ha, difference,
      fadd_infinity_left s ((f32Finite_neg a).trans ha), fmul_infinity_right s ha, fmul_infinity_left s ha⟩

/-- Settles O55: the products with 0 and 1 are exact, and a zero added leaves the other term (`fadd_zero`). -/
theorem zeroGainAndBoundaryMixLaws : Obligations.ZeroGainAndBoundaryMixLaws := by
  unfold Obligations.ZeroGainAndBoundaryMixLaws
  exact ⟨macQ_zero_gain, blendQ_one, blendQ_zero, macF32_zero_gain,
    fun _ _ hw hx => ⟨blendF32_one hw hx, blendF32_zero hw hx⟩,
    fun w x => ⟨fun hx => blendF32_one_notFinite w hx, fun hw => blendF32_zero_notFinite hw x⟩⟩

end Sys2Proof.Proofs
end

section
/-! PROOFS. The pseudo-instructions of the assembler (30_encoding.md R91). -/

namespace Sys2Proof.Machine

/-- A whole number up to 2^24 is a binary32 value. -/
theorem exists_magOf_eq {n : Nat} (hn : n ≤ 2 ^ 24) : ∃ b, b < f32InfMag ∧ magOf b = n * 2 ^ 149 := by
  have inf : f32InfMag = 255 * 2 ^ 23 := by decide
  rcases Nat.eq_zero_or_pos n with rfl | pos
  · exact ⟨0, by decide, by decide⟩
  rcases hn.lt_or_eq with small | rfl
  · have lo := Nat.log2_self_le pos.ne'
    have hi := Nat.lt_log2_self (n := n)
    have width : n.log2 < 24 := (Nat.log2_lt pos.ne').2 small
    have scale : 2 ^ n.log2 * 2 ^ (23 - n.log2) = 2 ^ 23 := by
      rw [← Nat.pow_add]
      congr 1
      omega
    have low : 2 ^ 23 ≤ n * 2 ^ (23 - n.log2) := scale ▸ Nat.mul_le_mul_right _ lo
    have high : n * 2 ^ (23 - n.log2) ≤ 2 ^ 24 := by
      have := Nat.mul_le_mul_right (2 ^ (23 - n.log2)) hi.le
      rw [Nat.pow_succ, Nat.mul_right_comm, scale] at this
      omega
    refine ⟨(126 + n.log2) * 2 ^ 23 + n * 2 ^ (23 - n.log2), by omega, ?_⟩
    rw [magOf_shift high (.inr low), Nat.mul_assoc, ← Nat.pow_add]
    congr 2
    omega
  · refine ⟨149 * 2 ^ 23 + 2 ^ 24, by omega, ?_⟩
    rw [magOf_shift le_rfl (by omega)]

/-- The lag word of RB.SETLAG is exact (R91). -/
theorem f32Value_lagWord {n : Nat} (hn : n ≤ 2 ^ 24) :
    f32Finite (f32Round false (n * 2 ^ 149) 1) = true ∧ f32Value (f32Round false (n * 2 ^ 149) 1) = n := by
  obtain ⟨b, hb, mag⟩ := exists_magOf_eq hn
  have bits : f32RoundMag (n * 2 ^ 149) 1 = b := by
    rw [← mag, ← Nat.one_mul (magOf b), f32RoundMag_exact Nat.one_pos hb]
  have low := lt_two_pow_of_le_inf hb.le
  rw [f32Round, bits]
  refine ⟨f32Finite_pack hb, ?_⟩
  rw [f32Value_eq, f32Units_eq, f32Sign_pack low, if_neg nofun, f32Pack_low low, mag]
  push_cast
  exact mul_div_cancel_right₀ _ (by positivity)

theorem indexField_of_lt {i : Nat} (h : i < 2 ^ 16) : indexField i = some (BitVec.ofNat 16 i) := if_pos h

/-- BLK.FILL: one BLK.WR per value, at rising indices (R91). -/
theorem expandFill_eq (ch : BitVec 8) {i : Nat} {vs : List Word} (h : i + vs.length ≤ 2 ^ 16) :
    expandFill ch i vs =
      some ((List.range vs.length).map fun k => .blkWr ch (BitVec.ofNat 16 (i + k)) (vs.getD k 0)) := by
  induction vs generalizing i with
  | nil => rfl
  | cons v vs ih =>
    rw [List.length_cons] at h ⊢
    rw [expandFill, indexField_of_lt (by omega), ih (by omega), List.range_succ_eq_map]
    simp only [Option.bind_some, Option.map_some, List.map_cons, List.map_map, Nat.add_zero, List.getD_cons_zero]
    congr 3
    funext k
    simp only [Function.comp_apply, List.getD_cons_succ, Nat.succ_eq_add_one, Nat.add_assoc, Nat.add_comm 1 k]

/-- BLK.DUMP: BLK.RD at rising indices (R91). -/
theorem expandDump_eq (ch : BitVec 8) {i n : Nat} (h : i + n ≤ 2 ^ 16) :
    expandDump ch i n = some ((List.range n).map fun k => .blkRd ch (BitVec.ofNat 16 (i + k))) := by
  induction n generalizing i with
  | zero => rfl
  | succ n ih =>
    rw [expandDump, indexField_of_lt (by omega), ih (by omega), List.range_succ_eq_map]
    simp only [Option.bind_some, Option.map_some, List.map_cons, List.map_map, Nat.add_zero]
    congr 3
    funext k
    simp only [Function.comp_apply, Nat.succ_eq_add_one, Nat.add_assoc, Nat.add_comm 1 k]

end Sys2Proof.Machine

namespace Sys2Proof.Proofs

open Sys2Proof.Machine

/-- Settles O60: the lag word is exact (`f32Value_lagWord`), so O54 converts it back; the lists by their recursions. -/
theorem pseudoInstructionsExpand : Obligations.PseudoInstructionsExpand := by
  unfold Obligations.PseudoInstructionsExpand
  refine ⟨fun ch n hn => ?lag, fun ch n hn => if_neg (Nat.not_le.2 hn), fun ch n hn => ?fixed,
    fun ch i vs h => expandFill_eq ch h, fun ch i n h => expandDump_eq ch h⟩
  case lag =>
    obtain ⟨finite, value⟩ := f32Value_lagWord hn
    obtain ⟨floor, -⟩ := lagConversion
    refine ⟨_, if_pos hn, finite, value, ?_⟩
    rw [floor _ finite, value, Int.floor_natCast, Int.toNat_natCast]
  case fixed =>
    refine ⟨_, if_pos hn, ?_⟩
    show lagQ (wordOfNat n) = some n
    rw [lagQ, sint_wordOfNat hn, Int.toNat_natCast]

end Sys2Proof.Proofs
end
